-- ==== Sys2Proof/Word.lean ====
section
/-! DEFINITION. Words, bytes and samples: the three sizes of data the spec names (`30_encoding.md` R101,
`20_memory.md` R70 and R72, `10_state.md` R38 and R47). -/

namespace Sys2Proof

/-- A 32-bit message word: handles, sizes, rates, process ids (R101, D10). -/
abbrev Word := BitVec 32

/-- An 8-bit byte of `FIFO(ch)` or of a client block (R70). -/
abbrev Byte := BitVec 8

/-- A byte position of the FIFO or of a sample: a byte value, or `none` for the spec's `undef` (R72). -/
abbrev UByte := Option Byte

/-- One sample of `SB` bytes as the DAC receives it, first FIFO byte first (R47, R75). -/
abbrev Sample := List UByte

end Sys2Proof
end

