-- ==== Sys2Proof/Config.lean ====
section
/-! DEFINITION. What one instance of the block fixes (`00_scope.md` R7 to R11) and the free values: the answers of the
allocator and of the block mapper (`46_environment_agents.md` R258, R259) and the waveform generator (R260). -/

namespace Sys2Proof

/-- The status names of R108. `mapError e` is the propagated mapping error whose code is `0x80 + e`, so that exactly
the codes `0x80 .. 0xFF` can be built. -/
inductive Status
  | ok | invalidParams | alreadyConfigured | notConfigured | inProgress | notSupported | outOfMemory | cancelled
  | mapError (e : BitVec 7)
  deriving DecidableEq, Repr, Inhabited

/-- The answer of the allocator oracle `Alloc` (R258). -/
inductive AllocAnswer
  | ok | outOfMemory
  deriving DecidableEq, Repr, Inhabited

/-- The answer of the mapper oracle `MapBlock` (R259): success, or an error whose status is `mapError e`. -/
inductive MapAnswer
  | ok | err (e : BitVec 7)
  deriving DecidableEq, Repr, Inhabited

/-- The model parameters of R8, R9 and R11. `NCH` (R7) is the number of channel records a state holds (`State.nch`),
and `Gen` is `genByte` below. Defaults are R11's; `H` and `SB` have none (D40). -/
structure Config where
  /-- `H`, samples in one half of a FIFO (R8). -/
  h : Nat
  /-- `SB`, bytes per sample (R9). -/
  sb : Nat
  /-- `DIAG_UNDERFLOW`: the underflow diagnostic is emitted (R11, D8). -/
  diagUnderflow : Bool := true
  /-- `WRONG_MODE_STATUS`: the failure of a command on an active channel of another mode (R11, D9). -/
  wrongModeStatus : Status := .notConfigured
  /-- `SETLEVEL_USES_VALUE`: SetLevel writes its value instead of zero (R222, D11). -/
  setLevelUsesValue : Bool := false
  /-- `FIFO_RELEASE_ON_CLOSE`: Close invalidates the FIFO (R141, D12). -/
  fifoReleaseOnClose : Bool := false
  /-- `DIAG_SINK`: the process a diagnostic is addressed to (R107, D13). -/
  diagSink : Word := 0
  /-- `CNT_BITS`: the signed width of `cnt[ch]` (R25, D21). -/
  cntBits : Nat := 32
  deriving DecidableEq, Repr

/-- FREE VALUE (log 5): the allocator's answer to the `n`-th question asked once the answers given in the state are used
up. -/
opaque Config.freeAlloc : Nat → AllocAnswer

/-- FREE VALUE (log 5): the mapper's answer to the `n`-th question, about one handle, once the answers given in the state
are used up. -/
opaque Config.freeMap : Nat → Word → MapAnswer

/-- FREE VALUE (log 6): byte `j` of sample `i` of `Gen(type, amp, n)` on an instance whose samples have `sb` bytes; the
arguments are `sb type amp n i j`. The spec fixes nothing of it but that it depends on these alone (R227, R260). -/
opaque Config.genByte : Nat → Word → Word → Nat → Nat → Nat → Byte

/-- FREE VALUE (log 17): byte `j >= 4` of the sample SetLevel takes from a 32-bit value on an instance with `SB > 4`; R220 and
R222 name bits of the value that do not exist. -/
opaque Config.wideLevelByte : Word → Nat → Byte

end Sys2Proof
end

