-- ==== Sys2Proof/Syntax.lean ====
section
/-! DEFINITION. The six commands of the block (`30_encoding.md` R100, R103), one constructor per row of the opcode
table. Every constructor keeps all operand fields of format `REQ` (R101) but the reserved bits `w0[31:16]`. -/

namespace Sys2Proof

/-- A decoded command: channel index, the two parameter words `a` and `b`, and the sending process `p` (R101, R103). The
channel index is a number, not bits: commands compare it with `NCH`, and only the encoding limits it to 8 bits (R264).
A parameter word that R103 calls ignored is kept under the name `a` or `b`. -/
inductive Instr
  /-- `OPEN ch, mode, rate @p` (R131). -/
  | openCmd (ch : Nat) (mode rate p : Word)
  /-- `CLOSE ch @p` (R136). -/
  | closeCmd (ch : Nat) (a b p : Word)
  /-- `WRITE ch, block, size @p` (R160). -/
  | writeCmd (ch : Nat) (block size p : Word)
  /-- `FLUSH ch @p` (R210). -/
  | flushCmd (ch : Nat) (a b p : Word)
  /-- `SETLEVEL ch, value @p` (R220). -/
  | setLevel (ch : Nat) (value b p : Word)
  /-- `SETWAVE ch, type, amp @p` (R225). -/
  | setWave (ch : Nat) (waveType amp p : Word)
  deriving DecidableEq, Repr

end Sys2Proof
end

