-- ==== Sys2Proof/WellFormed.lean ====
section
/-! DEFINITION. Which commands the request format can carry: the one check is that the channel index fits the 8 bits of
`w0[15:8]` (`46_environment_agents.md` R264, last row of the duties; `30_encoding.md` R101). Every other field is a whole
word. An index `>= NCH`, an unknown mode or a rate of 0 is not ill-formed: the command itself answers it. -/

namespace Sys2Proof

/-- The channel index of a command, `w0[15:8]` (R101). -/
def Instr.chIdx : Instr → Nat
  | .openCmd ch _ _ _ | .closeCmd ch _ _ _ | .writeCmd ch _ _ _
  | .flushCmd ch _ _ _ | .setLevel ch _ _ _ | .setWave ch _ _ _ => ch

/-- "`NCH <= 256`, `ch` fits 8 bits ... larger indices cannot be encoded" (R264). -/
def WellFormed (i : Instr) : Bool := decide (i.chIdx < 256)

end Sys2Proof
end

