-- ==== Sys2Proof/Decode.lean ====
section
/-! DEFINITION. The request format `REQ`, the decoder and the encoder (`30_encoding.md` R101 to R105, R109, R110). The
decoder is total: an opcode outside `0x01 .. 0x06` is rejected by name, and dispatcher phase `D0` answers it with
`NotSupported` (R245). -/

namespace Sys2Proof

/-- One request message: four 32-bit words (R101). The words are numbers, not bytes, so no byte order applies. -/
structure Request where
  w0 : Word
  w1 : Word
  w2 : Word
  w3 : Word
  deriving DecidableEq, Repr

/-- `op = w0[7:0]` (R101, R105). -/
def Request.op (r : Request) : Byte := r.w0.extractLsb' 0 8

/-- `ch = w0[15:8]`, unsigned (R101, R105). -/
def Request.ch (r : Request) : Nat := (r.w0.extractLsb' 8 8).toNat

/-- Why a request is no command: its opcode is none of the six (R109). -/
inductive DecodeError
  | unknownOpcode (op : Byte)
  deriving DecidableEq, Repr

/-- The opcode values of R102. -/
def Instr.opcode : Instr → Byte
  | .openCmd _ _ _ _ => 0x01
  | .closeCmd _ _ _ _ => 0x02
  | .writeCmd _ _ _ _ => 0x03
  | .flushCmd _ _ _ _ => 0x04
  | .setLevel _ _ _ _ => 0x05
  | .setWave _ _ _ _ => 0x06

/-- The first parameter word `a` (R103). -/
def Instr.paramA : Instr → Word
  | .openCmd _ a _ _ | .closeCmd _ a _ _ | .writeCmd _ a _ _
  | .flushCmd _ a _ _ | .setLevel _ a _ _ | .setWave _ a _ _ => a

/-- The second parameter word `b` (R103). -/
def Instr.paramB : Instr → Word
  | .openCmd _ _ b _ | .closeCmd _ _ b _ | .writeCmd _ _ b _
  | .flushCmd _ _ b _ | .setLevel _ _ b _ | .setWave _ _ b _ => b

/-- The sending process `p` (R101). -/
def Instr.sender : Instr → Word
  | .openCmd _ _ _ p | .closeCmd _ _ _ p | .writeCmd _ _ _ p
  | .flushCmd _ _ _ p | .setLevel _ _ _ p | .setWave _ _ _ p => p

/-- The decoder of phase `D0` (R105, R241): the command is selected by `w0[7:0]` alone, the reserved bits `w0[31:16]` are
ignored and the channel index is not checked. -/
def decode (r : Request) : Except DecodeError Instr :=
  if r.op = 0x01 then .ok (.openCmd r.ch r.w1 r.w2 r.w3)
  else if r.op = 0x02 then .ok (.closeCmd r.ch r.w1 r.w2 r.w3)
  else if r.op = 0x03 then .ok (.writeCmd r.ch r.w1 r.w2 r.w3)
  else if r.op = 0x04 then .ok (.flushCmd r.ch r.w1 r.w2 r.w3)
  else if r.op = 0x05 then .ok (.setLevel r.ch r.w1 r.w2 r.w3)
  else if r.op = 0x06 then .ok (.setWave r.ch r.w1 r.w2 r.w3)
  else .error (.unknownOpcode r.op)

/-- `w0 = op | ch << 8`, the reserved bits sent as zero (R101, R111). -/
def encodeWord0 (op : Byte) (ch : Nat) : Word := op.zeroExtend 32 ||| ((BitVec.ofNat 8 ch).zeroExtend 32 <<< 8)

/-- The four words of a command (R101, R111). -/
def encode (i : Instr) : Request :=
  { w0 := encodeWord0 i.opcode i.chIdx, w1 := i.paramA, w2 := i.paramB, w3 := i.sender }

/-- The request whose bits are `w`: bit 0 of `w` is bit 0 of `w0`, and the bits of `w1`, `w2`, `w3` count on from it. Only
the low `nbits` bits are taken, every bit above them is 0 (log 19). -/
def Request.ofTableWord (nbits w : Nat) : Request :=
  let v := w % 2 ^ nbits
  { w0 := BitVec.ofNat 32 v, w1 := BitVec.ofNat 32 (v / 2 ^ 32)
    w2 := BitVec.ofNat 32 (v / 2 ^ 64), w3 := BitVec.ofNat 32 (v / 2 ^ 96) }

/-- What the decoder reads from an instruction of the opcode table given as one number. -/
def decodeTableWord (nbits w : Nat) : Option Instr :=
  match decode (Request.ofTableWord nbits w) with
  | .ok i => some i
  | .error _ => none

end Sys2Proof
end

