-- ==== Sys2Proof/Machine/State.lean ====
section
/-! DEFINITION. The state of the block as plain data (`10_state.md` R20 to R52), its faults, and reset (R51, R330). The
channel record (R21 to R31) and the per-channel environment registers (R32 to R40) of one channel are one `Channel`; the
global registers (R41 to R46) and the model-only observation state (R47 to R50) are fields of `State`. The environment's
inputs, which the spec keeps outside the state, are data of the model beside them: the client blocks (R73), the schedule
(R262) and the oracle answers (R258, R259). -/

namespace Sys2Proof.Machine

/-- The three faults of the model, the only ones (R49, R301). Each marks a point where the source gives the algorithm no
meaning; the run stops, so each is safe. -/
inductive Fault
  /-- Raised by `FifoCopy` when it would read a block byte at an offset `>= blen` (R79): WRITE phases W9 and W10, and the
  refill handler. Safe: the hardware goes on with bytes the spec does not give, the model stops. -/
  | sourceOverread (ch : Nat)
  /-- Raised by WRITE phase W13 when `cnt + N` leaves the signed `CNT_BITS` range (R172). Safe: the model stops. -/
  | cntOverflow (ch : Nat)
  /-- Raised by `TimerStart` at rate 0 (R253): WRITE phase W14 and SETWAVE phase V1. Safe: the model stops. -/
  | rateZero (ch : Nat)
  deriving DecidableEq, Repr

/-- Reasons for refusing an instruction. -/
inductive Refusal
  /-- An arm of `exec` whose instruction has no meaning yet. Safe: the machine stops. No arm raises it in this model. -/
  | notModelled (mnemonic : String)
  deriving DecidableEq, Repr

/-- The output personality of a channel, "fixed for the lifetime of an open session" (R2, R22). -/
inductive Mode
  | level | stream | wave
  deriving DecidableEq, Repr

/-- The sequencer's phase names (R44). `D0` is the phase of an idle sequencer and has no constructor: it runs when
`seq = Idle` (R241). -/
inductive Phase
  | o1
  | c1 | c2 | c3 | c4 | c5 | c6
  | w1 | w2 | w3 | w4 | w5 | w6 | w7 | w8 | w9 | w10 | w11 | w12 | w13 | w14
  | f1 | f2 | f3 | f4 | f5 | f6
  | l1
  | v1
  deriving DecidableEq, Repr

/-- The locals of a running command (R45). They hold zeros when a command starts and no phase reads one that an earlier
phase of the same command has not written (log 10). -/
structure Locals where
  /-- `N`, units in this Write (written at W7). -/
  n : Nat := 0
  /-- `c`, the snapshot of `cnt[ch]` (written at W8). -/
  c : Int := 0
  /-- `h`, the snapshot of `half[ch]` (written at W9). -/
  h : Bool := false
  /-- `k`, units copied by the priming copy (written at W9 or W10). -/
  k : Nat := 0
  /-- `needStart` (written at W13). -/
  needStart : Bool := false
  /-- `cap`, the captured block handle (written at F4 and C4). -/
  cap : Option Word := none
  deriving DecidableEq, Repr

/-- The task-context sequencer, the block's program counter (R44): idle, or a command with its next phase and locals. -/
inductive Seq
  | idle
  | busy (cmd : Instr) (phase : Phase) (loc : Locals)
  deriving DecidableEq, Repr

/-- The responses of the block (R106). -/
inductive Response
  | cmdAck (dest : Word) (ch : Nat) (op : Byte) (status : Status) (block : Word)
  | writeDone (dest : Word) (ch : Nat) (status : Status) (block size : Word)
  /-- `Diag(ch, Underflow)`. -/
  | diag (ch : Nat)
  deriving DecidableEq, Repr

/-- A timer service call as the trace `ctl` records it (R48). -/
inductive TimerCall
  | start (ch : Nat) (rate : Nat)
  | stop (ch : Nat)
  deriving DecidableEq, Repr

/-- A byte memory: address and byte pairs at strictly rising addresses. An unlisted address reads as no value, the spec's
`undef` (R72), so no entry can equal what an unlisted address reads as. Each space of R70 is a memory of its own. -/
abbrev Memory := List Host.Cell

/-- The canonical form of a memory. -/
abbrev Memory.wf (m : Memory) : Prop := m.Pairwise fun x y => x.1 < y.1

/-- One client block `BLK(handle)`: its length `blen` and its bytes (R73). -/
structure Block where
  handle : Word
  len : Nat
  bytes : Memory
  deriving DecidableEq, Repr

/-- A cursor: a byte offset in the block with a handle (R26, R73). -/
structure Cursor where
  handle : Word
  off : Nat
  deriving DecidableEq, Repr

/-- Who takes the next step (R262) and, for the host, what it does. `run` is the schedule line RUN (R112): sequencer phases
until the sequencer is idle with no request queued. -/
inductive Turn
  | phase
  | run
  | irq (ch : Nat)
  | tick (ch : Nat)
  | send (r : Request)
  /-- The host creates or fills the client block with this handle (R82, R92). -/
  | supply (handle : Word) (bytes : List Byte)
  deriving DecidableEq, Repr

/-- One channel: its record (R21 to R29), its environment registers (R32 to R38) and its observation state (R47, R50). -/
structure Channel where
  /-- R21. -/
  active : Bool
  /-- R22. -/
  mode : Mode
  /-- "`fifo` non-null", R23. -/
  fifoValid : Bool
  /-- `FIFO(ch)`, offsets `0 .. FB-1`, R71. -/
  fifo : Memory
  /-- R24. -/
  half : Bool
  /-- `pendingHalves`, signed and unbounded, R25. -/
  cnt : Int
  /-- `sourceCursor`, R26. -/
  ptr : Cursor
  /-- `inFlightBlock`; `none` is the spec's own "none", R27. -/
  block : Option Word
  /-- `inFlightSize`, R28. -/
  size : Word
  /-- `requestingProcess`, R28. -/
  process : Word
  /-- `sampleRate`, R29. -/
  rate : Word
  /-- R32. -/
  irqEn : Bool
  /-- R33. -/
  timerRun : Bool
  /-- R33; `rate * H` is an unbounded product (R228). -/
  timerRate : Nat
  /-- R34. -/
  dmaEn : Bool
  /-- R35. -/
  htif : Bool
  /-- R35. -/
  tcif : Bool
  /-- R36. -/
  dmaPos : Nat
  /-- R37. -/
  dacEn : Bool
  /-- `DACDR(ch)`, R38, R74. -/
  dacDr : Sample
  /-- Samples written to `dac_dr[ch]`, oldest first, R47. -/
  dacTrace : List Sample
  /-- R50, R80. -/
  race : Bool
  /-- R50, R257. -/
  overrun : Bool
  deriving DecidableEq, Repr

/-- The whole state. -/
structure State where
  /-- The parameters of R8, R9, R11; no step writes them (log 1). -/
  cfg : Config
  /-- One entry per channel `0 .. NCH-1` (R20); their number is `NCH` (R7). -/
  chans : List Channel
  /-- R41. -/
  clkEn : Bool
  /-- R42. -/
  irqMask : Bool
  /-- The request queue, head first, R43. -/
  rq : List Request
  /-- R44. -/
  seq : Seq
  /-- Responses, oldest first, R48. -/
  resp : List Response
  /-- Timer service calls, oldest first, R48. -/
  ctl : List TimerCall
  /-- R49. -/
  fault : Option Fault
  /-- The client blocks, environment input (R73), by rising handle; a handle not listed has length 0 (log 7). -/
  blocks : List Block
  /-- MODEL'S OWN (log 8): the handles of the Writes whose completion was lost when a later Write recorded its block over
  theirs (R178, R344): their window of R92 never ends. -/
  lost : List Word
  /-- MODEL'S OWN (log 3): the turns still to be taken; when it is empty the sequencer has the turn. -/
  sched : List Turn
  /-- MODEL'S OWN (log 5): the answers `Alloc` gives to the next questions; when used up, free values. -/
  allocIn : List AllocAnswer
  /-- MODEL'S OWN (log 5): the answers `MapBlock` gives to the next questions; when used up, free values. -/
  mapIn : List MapAnswer
  /-- MODEL'S OWN (log 5): how many free values have been drawn. -/
  asked : Nat
  deriving DecidableEq, Repr

/-- A channel after reset (R51). R51 gives `active`, `fifo_valid`, the FIFO bytes, the enables and flags, `dma_pos`, the
trace and the marks; the spec gives no value for `mode`, `half`, `cnt`, `ptr`, `block`, `size`, `process`, `rate`,
`timer_rate` and `dac_dr`, which hold zeros here (DESIGN CHOICE, log 2). -/
def Channel.reset (cfg : Config) : Channel :=
  { active := false, mode := .level, fifoValid := false, fifo := [], half := false, cnt := 0, ptr := ⟨0, 0⟩
    block := none, size := 0, process := 0, rate := 0, irqEn := false, timerRun := false, timerRate := 0
    dmaEn := false, htif := false, tcif := false, dmaPos := 0, dacEn := false
    dacDr := List.replicate cfg.sb (some 0), dacTrace := [], race := false, overrun := false }

/-- The instance `State.reset` is about: the parameter values the spec's own test vectors take (`95_test_vectors.md`,
Conventions), `H = 2`, `SB = 1`, every other parameter at R11's default (DESIGN CHOICE, log 1). -/
def vectorConfig : Config := { h := 2, sb := 1 }

/-- The state of R51 for an instance with `nch` channels. -/
def State.resetOf (cfg : Config) (nch : Nat) : State :=
  { cfg := cfg, chans := List.replicate nch (Channel.reset cfg), clkEn := false, irqMask := false, rq := []
    seq := .idle, resp := [], ctl := [], fault := none, blocks := [], lost := [], sched := [], allocIn := []
    mapIn := [], asked := 0 }

/-- The machine right after reset (R51, R330), with `NCH = 2` (log 1). -/
def State.reset : State := State.resetOf vectorConfig 2

end Sys2Proof.Machine
end

