-- ==== Sys2Proof/Machine/Operands.lean ====
section
/-! DEFINITION. Sizes, operand forms and effective addresses: the parameters `HB` and `FB` (`00_scope.md` R10), the mode
word (`30_encoding.md` R104), the unit count (`41_write.md` R165), the two address computations of the block
(`20_memory.md` R81), the samples SetLevel and SetWave write (`44_level_wave.md` R222, R227). -/

namespace Sys2Proof.Machine

/-- `HB = H * SB`, the half-unit in bytes (R10). -/
def hbOf (cfg : Config) : Nat := cfg.h * cfg.sb

/-- `FB = 2 * HB`, the FIFO size in bytes (R10). -/
def fbOf (cfg : Config) : Nat := 2 * hbOf cfg

/-- The mode word of OPEN; any other value is no mode (R104). -/
def modeOf (a : Word) : Option Mode :=
  if a = 0 then some .level else if a = 1 then some .stream else if a = 2 then some .wave else none

/-- `N = size div HB` (R165). -/
def unitsOf (cfg : Config) (size : Word) : Nat := size.toNat / hbOf cfg

/-- FIFO offset of the half NOT named by the half value `hv`: 0 if `hv`, `HB` otherwise (R81 (b), D7). -/
def copyDst (cfg : Config) (hv : Bool) : Nat := if hv then 0 else hbOf cfg

/-- The zero sample: `SB` zero bytes (R132, R222). -/
def zeroSample (cfg : Config) : Sample := List.replicate cfg.sb (some 0)

/-- Byte `j` of the sample taken from a value: the value's byte `j`, the least significant first (R222); a byte the word does
not have is free (log 17). -/
def valueByte (value : Word) (j : Nat) : Byte := if j < 4 then value.extractLsb' (8 * j) 8 else Config.wideLevelByte value j

/-- The low `SB` bytes of a word, least significant byte at the lowest offset (R222). -/
def wordSample (cfg : Config) (value : Word) : Sample := (List.range cfg.sb).map fun j => some (valueByte value j)

/-- The sample SetLevel writes (R220, R222). -/
def levelSample (cfg : Config) (value : Word) : Sample :=
  if cfg.setLevelUsesValue then wordSample cfg value else zeroSample cfg

/-- `Gen(type, amp, 2*H)`, its samples' bytes in FIFO order (R225, R260). -/
def waveBytes (cfg : Config) (waveType amp : Word) : List UByte :=
  (List.range (2 * cfg.h)).flatMap fun i =>
    (List.range cfg.sb).map fun j => some (Config.genByte cfg.sb waveType amp (2 * cfg.h) i j)

end Sys2Proof.Machine
end

