-- ==== Sys2Proof/Machine/Flags.lean ====
section
/-! DEFINITION. The one-bit conditions of the block (`10_state.md` R46): what enables an agent (`42_refill_handler.md` R190,
`46_environment_agents.md` R254), which half the engine is in (`20_memory.md` R80), the race and overrun marks (R80, R257),
the event conditions (R255) and the count's range (`41_write.md` R172). -/

namespace Sys2Proof.Machine

/-- A DMA event is pending (R35, R190). -/
def Channel.pending (c : Channel) : Bool := c.htif || c.tcif

/-- The engine moves samples: `timer_run` and `dma_en` (R254). -/
def Channel.ticking (c : Channel) : Bool := c.timerRun && c.dmaEn

/-- A copy of `n` bytes to offset `dst` touches the half the running engine is reading (R78, R80). -/
def raceHit (cfg : Config) (c : Channel) (dst n : Nat) : Bool :=
  c.ticking && (List.range n).any fun i => (dst + i) / hbOf cfg == c.dmaPos / hbOf cfg

/-- An event raised now finds an earlier one unserviced (R257). -/
def overrunHit (c : Channel) : Bool := c.irqEn && c.pending

/-- `v` lies in the signed range of `CNT_BITS` bits (R25, R172). -/
def cntInRange (cfg : Config) (v : Int) : Bool :=
  decide (-(2 : Int) ^ (cfg.cntBits - 1) ≤ v) && decide (v < (2 : Int) ^ (cfg.cntBits - 1))

end Sys2Proof.Machine
end

