-- ==== Sys2Proof/Machine/Ops.lean ====
section
/-! DEFINITION. The named operations: byte memory, the channel records, responses, the failure exit (`45_dispatcher.md`
R242), critical sections (`20_memory.md` R88), the copy primitive (R78), the timer services
(`46_environment_agents.md` R251, R252), the DAC write (R74), the oracles (R258, R259) and the host's block input. -/

namespace Sys2Proof.Machine

/-! ### Memory -/

/-- The value at an address; an unlisted address has none (R72). -/
def Memory.read : Memory → Nat → UByte
  | [], _ => none
  | (a, b) :: m, k => if k = a then some b else Memory.read m k

/-- Writes one byte position, keeping the canonical form: writing no value removes the entry. -/
def Memory.write : Memory → Nat → UByte → Memory
  | [], _, none => []
  | [], k, some b => [(k, b)]
  | (a, c) :: m, k, v =>
    if k < a then
      match v with
      | none => (a, c) :: m
      | some b => (k, b) :: (a, c) :: m
    else if k = a then
      match v with
      | none => m
      | some b => (k, b) :: m
    else (a, c) :: Memory.write m k v

/-- `MemRead(addr, n)`: `n` bytes in ascending order (R14). -/
def Memory.readBytes (m : Memory) (addr n : Nat) : List UByte :=
  (List.range n).map fun i => Memory.read m (addr + i)

/-- `MemWrite(addr, n, v)`: bytes in ascending order (R14). -/
def Memory.writeBytes : Memory → Nat → List UByte → Memory
  | m, _, [] => m
  | m, addr, v :: vs => Memory.writeBytes (Memory.write m addr v) (addr + 1) vs

/-! ### Client blocks (R73) -/

/-- A handle no block has: length 0 (log 7). -/
def Block.absent (h : Word) : Block := ⟨h, 0, []⟩

/-- `BLK(handle)` (R73). -/
def State.blk (s : State) (h : Word) : Block := (s.blocks.find? fun b => b.handle = h).getD (Block.absent h)

/-- A block's contents laid out from offset 0. -/
def Block.ofBytes (h : Word) (bytes : List Byte) : Block :=
  ⟨h, bytes.length, Memory.writeBytes [] 0 (bytes.map some)⟩

/-- Puts a block in its place by rising handle, replacing the block of the same handle; an empty block is not listed. -/
def putBlock (b : Block) : List Block → List Block
  | [] => if b.len = 0 then [] else [b]
  | x :: xs =>
    if b.handle < x.handle then (if b.len = 0 then x :: xs else b :: x :: xs)
    else if b.handle = x.handle then (if b.len = 0 then xs else b :: xs)
    else x :: putBlock b xs

/-! ### Channel records -/

/-- `NCH` (R7). -/
def State.nch (s : State) : Nat := s.chans.length

/-- The record of channel `ch` (R13). No rule reads it for `ch >= NCH`. -/
def State.chan (s : State) (ch : Nat) : Channel := s.chans.getD ch (Channel.reset s.cfg)

/-- Writes registers of channel `ch` (R13). -/
def State.modChan (s : State) (ch : Nat) (f : Channel → Channel) : State :=
  { s with chans := s.chans.set ch (f (s.chan ch)) }

/-- Writes the shared clock (R41). -/
def State.setClock (s : State) (on : Bool) : State := { s with clkEn := on }

/-! ### Responses, failures, the end of a command -/

/-- `Emit(r)` (R15). -/
def State.emit (s : State) (r : Response) : State := { s with resp := s.resp ++ [r] }

/-- The `block` field of a failure response: the handle for a WRITE, 0 otherwise (R242). -/
def failBlock : Instr → Word
  | .writeCmd _ block _ _ => block
  | _ => 0

/-- `raise Fail(status)`, the block's synchronous exception (R242, R280): the failure response to the sender, and the end
of the command; it saves nothing and changes no mode or mask. -/
def State.raiseFail (s : State) (i : Instr) (st : Status) : State :=
  { s.emit (.cmdAck i.sender i.chIdx i.opcode st (failBlock i)) with seq := .idle }

/-- The success acknowledgment that ends a command (R243). -/
def State.finishOk (s : State) (i : Instr) : State :=
  { s.emit (.cmdAck i.sender i.chIdx i.opcode .ok 0) with seq := .idle }

/-- `phase <- ph` (R15), with the command's locals. -/
def State.goto (s : State) (i : Instr) (ph : Phase) (loc : Locals) : State := { s with seq := .busy i ph loc }

/-- Phase `D0` for a decoded command: its first phase, locals fresh (R241). -/
def State.enter (s : State) (i : Instr) (ph : Phase) : State := s.goto i ph {}

/-- `Fault(reason)` (R15, R49). -/
def State.raiseFault (s : State) (r : Fault) : State := { s with fault := some r }

/-- The statements after one that may fault: not executed once a fault is recorded (R15, R301). -/
def State.unlessFault (s : State) (f : State → State) : State :=
  match s.fault with
  | none => f s
  | some _ => s

/-- `critical { f }`: all interrupts disabled around `f`, one indivisible step (R88). -/
def State.critical (s : State) (f : State → State) : State :=
  { f { s with irqMask := true } with irqMask := false }

/-! ### The copy primitive, the timer, the DAC -/

/-- The block the cursor of channel `ch` is in. -/
def State.source (s : State) (ch : Nat) : Block := s.blk (s.chan ch).ptr.handle

/-- A copy of `n` bytes from the cursor would read at an offset `>= blen` (R79). -/
def State.overreads (s : State) (ch n : Nat) : Bool :=
  decide (0 < n) && decide ((s.source ch).len < (s.chan ch).ptr.off + n)

/-- What a copy of `n` bytes of block `b` to FIFO offset `dst` does to the channel: the race mark, the bytes, the cursor
(R78, R80). -/
def copyInto (cfg : Config) (b : Block) (dst n : Nat) (c : Channel) : Channel :=
  { c with
    race := c.race || raceHit cfg c dst n
    fifo := Memory.writeBytes c.fifo dst (Memory.readBytes b.bytes c.ptr.off n)
    ptr := ⟨c.ptr.handle, c.ptr.off + n⟩ }

/-- `FifoCopy(ch, dst, n)` (R78): the overread check comes first, and a faulting copy writes nothing (R79). -/
def State.fifoCopy (s : State) (ch dst n : Nat) : State :=
  if s.overreads ch n then s.raiseFault (.sourceOverread ch)
  else s.modChan ch (copyInto s.cfg (s.source ch) dst n)

/-- A timer service call goes into the trace (R48). -/
def State.logCall (s : State) (t : TimerCall) : State := { s with ctl := s.ctl ++ [t] }

/-- `TimerStart(ch, r)` (R251, R253). -/
def State.timerStart (s : State) (ch rate : Nat) : State :=
  if rate = 0 then s.raiseFault (.rateZero ch)
  else (s.modChan ch fun c => { c with timerRun := true, timerRate := rate }).logCall (.start ch rate)

/-- `TimerStop(ch)` (R252). -/
def State.timerStop (s : State) (ch : Nat) : State :=
  (s.modChan ch fun c => { c with timerRun := false }).logCall (.stop ch)

/-- `MemWrite(DACDR(ch), SB, v)`: the register and its trace (R74, R47). -/
def State.dacWrite (s : State) (ch : Nat) (v : Sample) : State :=
  s.modChan ch fun c => { c with dacDr := v, dacTrace := c.dacTrace ++ [v] }

/-! ### Oracles (R258, R259) -/

/-- The answer `Alloc` gives if asked now. -/
def State.allocAnswer (s : State) : AllocAnswer :=
  match s.allocIn with
  | a :: _ => a
  | [] => Config.freeAlloc s.asked

/-- The answer `MapBlock(handle)` gives if asked now. -/
def State.mapAnswer (s : State) (h : Word) : MapAnswer :=
  match s.mapIn with
  | a :: _ => a
  | [] => Config.freeMap s.asked h

/-- The state once `Alloc` has been asked. -/
def State.allocAsked (s : State) : State :=
  match s.allocIn with
  | _ :: rest => { s with allocIn := rest }
  | [] => { s with asked := s.asked + 1 }

/-- The state once `MapBlock` has been asked. -/
def State.mapAsked (s : State) : State :=
  match s.mapIn with
  | _ :: rest => { s with mapIn := rest }
  | [] => { s with asked := s.asked + 1 }

/-! ### The host (R240, R82, R92) -/

/-- `send(req)`: the request goes to the tail of `rq` (R240). -/
def State.send (s : State) (r : Request) : State := { s with rq := s.rq ++ [r] }

/-- The phases of a WRITE before its block is recorded (R160). -/
def beforeRecord : Phase → Bool
  | .w1 | .w2 | .w3 | .w4 | .w5 => true
  | _ => false

/-- The running command stands between an unanswered Write of handle `h` and its answer: a WRITE whose block is not recorded
yet, or a Flush or Close that has captured the block and not cancelled it yet (R160, R210, R136). -/
def Seq.holds (q : Seq) (h : Word) : Bool :=
  match q with
  | .busy (.writeCmd _ block _ _) ph _ => beforeRecord ph && block == h
  | .busy (.flushCmd _ _ _ _) .f5 loc => loc.cap == some h
  | .busy (.closeCmd _ _ _ _) .c5 loc => loc.cap == some h
  | _ => false

/-- The block that channel `ch` still names was answered in phase W11 and is cleared next, in W12 (R170). -/
def Seq.clears (q : Seq) (ch : Nat) : Bool :=
  match q with
  | .busy (.writeCmd j _ _ _) .w12 _ => j == ch
  | _ => false

/-- A channel names `h` as its block in flight, whose Write is not answered (R27, R195, R214). -/
def State.inFlight (s : State) (h : Word) : Bool :=
  (List.range s.nch).any fun ch => (s.chan ch).block == some h && !s.seq.clears ch

/-- The window of R92 for handle `h`: some Write of it is queued, running before its block is recorded, in flight, captured
by a Flush or Close, or has lost its completion. Every answer to a Write of `h` ends that Write's part of it and no other's
(log 8). -/
def State.unanswered (s : State) (h : Word) : Bool :=
  (s.rq.any fun r => r.op == 0x03 && r.w1 == h) || s.seq.holds h || s.inFlight h || s.lost.contains h

/-- A block still in flight on channel `ch` loses its completion to the Write about to be recorded (R178; log 8). -/
def State.noteLost (s : State) (ch : Nat) : State := { s with lost := s.lost ++ (s.chan ch).block.toList }

/-- The host creates or fills a block; in the window of R92 no such step exists (log 8). -/
def State.supply (s : State) (h : Word) (bytes : List Byte) : State :=
  if s.unanswered h then s else { s with blocks := putBlock (Block.ofBytes h bytes) s.blocks }

end Sys2Proof.Machine
end

