-- ==== Sys2Proof/Machine/Lifecycle.lean ====
section
/-! DEFINITION. OPEN and CLOSE (`40_open_close.md` R130 to R143). -/

namespace Sys2Proof.Machine

/-- The configuration of FIFO, timer and DMA engine in stream and wave mode (R132). -/
def State.openEngine (s : State) (ch : Nat) : State :=
  s.modChan ch fun c =>
    { c with fifoValid := true, fifo := [], timerRun := false, dmaEn := true, dmaPos := 0, htif := false, tcif := false }

/-- The refill interrupt and the stream registers (R132). -/
def State.openStream (s : State) (ch : Nat) : State :=
  s.modChan ch fun c => { c with irqEn := true, cnt := 0, half := false, block := none }

/-- The DAC enable and its wake-up delay, which has no effect a rule can see (R132, R135). -/
def State.openDac (s : State) (ch : Nat) : State := s.modChan ch fun c => { c with dacEn := true }

/-- `mode`, `rate`, `active` (R132). -/
def State.openRecord (s : State) (ch : Nat) (m : Mode) (rate : Word) : State :=
  s.modChan ch fun c => { c with mode := m, rate := rate, active := true }

/-- Phase `O1` (R132), checks in the order of R131. -/
def openO1 (ch : Nat) (mode rate p : Word) (s : State) : State :=
  let i := Instr.openCmd ch mode rate p
  if s.nch ≤ ch then s.raiseFail i .invalidParams
  else match modeOf mode with
    | none => s.raiseFail i .invalidParams
    | some m =>
      if (s.chan ch).active then s.raiseFail i .alreadyConfigured
      else
        let s := s.setClock true
        match m with
        | .level => (((s.openDac ch).dacWrite ch (zeroSample s.cfg)).openRecord ch .level rate).finishOk i
        | .stream =>
          match s.allocAnswer with
          | .outOfMemory => s.allocAsked.raiseFail i .outOfMemory
          | .ok => ((((s.allocAsked.openEngine ch).openStream ch).openDac ch).openRecord ch .stream rate).finishOk i
        | .wave =>
          match s.allocAnswer with
          | .outOfMemory => s.allocAsked.raiseFail i .outOfMemory
          | .ok => (((s.allocAsked.openEngine ch).openDac ch).openRecord ch .wave rate).finishOk i

/-- OPEN (R131, R132): `D0`, then phase `O1`. -/
def execOpen (ch : Nat) (mode rate p : Word) (s : State) : Host.Outcome State Fault Refusal :=
  match s.seq with
  | .busy _ .o1 _ => .next (openO1 ch mode rate p s)
  | _ => .next (s.enter (.openCmd ch mode rate p) .o1)

/-! ### The three steps Flush and Close share (R138, R210) -/

/-- F3, C3: "stops the trigger timer" (R212). -/
def flushStop (ch : Nat) (s : State) : State := s.timerStop ch

/-- F4, C4: the critical section detaches the block in flight (R213). The captured handle is `(s.chan ch).block`, which the
phase stores in `cap`. -/
def flushDetach (ch : Nat) (s : State) : State :=
  s.critical fun s => s.modChan ch fun c => { c with block := none }

/-- F5, C5: a captured block is cancelled to its requesting process (R214). -/
def flushCancel (ch : Nat) (cap : Option Word) (s : State) : State :=
  match cap with
  | none => s
  | some h => s.emit (.writeDone (s.chan ch).process ch .cancelled h 0)

/-! ### CLOSE -/

/-- Phase `C1`. -/
def closeC1 (i : Instr) (ch : Nat) (loc : Locals) (s : State) : State :=
  if s.nch ≤ ch then s.raiseFail i .invalidParams else s.goto i .c2 loc

/-- Phase `C2`: the flush phases run only for a stream channel. -/
def closeC2 (i : Instr) (ch : Nat) (loc : Locals) (s : State) : State :=
  if (s.chan ch).active = false then s.raiseFail i .notConfigured
  else if (s.chan ch).mode = .stream then s.goto i .c3 loc
  else s.goto i .c6 loc

/-- No channel other than `ch` is active (R140). -/
def State.othersInactive (s : State) (ch : Nat) : Bool :=
  (List.range s.nch).all fun j => j == ch || !(s.chan j).active

/-- "unregisters the handler", for a stream channel (R136). -/
def unregisterHandler (c : Channel) : Channel := { c with irqEn := if c.mode = .stream then false else c.irqEn }

/-- The DMA clock gate, the DAC channel bits, and the FIFO where `FIFO_RELEASE_ON_CLOSE` (R136, R141). -/
def releaseEngine (cfg : Config) (c : Channel) : Channel :=
  { c with dmaEn := false, dacEn := false, fifoValid := if cfg.fifoReleaseOnClose then false else c.fifoValid }

/-- The shared clock goes off when no other channel needs it (R140). -/
def State.closeClock (s : State) (ch : Nat) : State := if s.othersInactive ch then s.setClock false else s

/-- Phase `C6`, the teardown in the listed order (R136, R140, R141). -/
def closeC6 (i : Instr) (ch : Nat) (s : State) : State :=
  ((((((s.modChan ch unregisterHandler).timerStop ch).modChan ch (releaseEngine s.cfg)).closeClock ch).modChan ch
    fun c => { c with active := false })).finishOk i

/-- CLOSE (R136): `D0`, then phases `C1 .. C6`. -/
def execClose (ch : Nat) (a b p : Word) (s : State) : Host.Outcome State Fault Refusal :=
  let i := Instr.closeCmd ch a b p
  match s.seq with
  | .busy _ .c1 loc => .next (closeC1 i ch loc s)
  | .busy _ .c2 loc => .next (closeC2 i ch loc s)
  | .busy _ .c3 loc => .next ((flushStop ch s).goto i .c4 loc)
  | .busy _ .c4 loc => .next ((flushDetach ch s).goto i .c5 { loc with cap := (s.chan ch).block })
  | .busy _ .c5 loc => .next ((flushCancel ch loc.cap s).goto i .c6 loc)
  | .busy _ .c6 _ => .next (closeC6 i ch s)
  | _ => .next (s.enter i .c1)

end Sys2Proof.Machine
end

