-- ==== Sys2Proof/Machine/Flush.lean ====
section
/-! DEFINITION. FLUSH (`43_flush.md` R210 to R218); its steps F3 to F5 are the operations Close uses too. -/

namespace Sys2Proof.Machine

/-- Phase `F1` (R211). -/
def flushF1 (i : Instr) (ch : Nat) (loc : Locals) (s : State) : State :=
  if s.nch ≤ ch then s.raiseFail i .invalidParams else s.goto i .f2 loc

/-- Phase `F2` (R211). -/
def flushF2 (i : Instr) (ch : Nat) (loc : Locals) (s : State) : State :=
  if (s.chan ch).active = false then s.raiseFail i .notConfigured
  else if (s.chan ch).mode ≠ .stream then s.raiseFail i s.cfg.wrongModeStatus
  else s.goto i .f3 loc

/-- FLUSH (R210): `D0`, then phases `F1 .. F6`. -/
def execFlush (ch : Nat) (a b p : Word) (s : State) : Host.Outcome State Fault Refusal :=
  let i := Instr.flushCmd ch a b p
  match s.seq with
  | .busy _ .f1 loc => .next (flushF1 i ch loc s)
  | .busy _ .f2 loc => .next (flushF2 i ch loc s)
  | .busy _ .f3 loc => .next ((flushStop ch s).goto i .f4 loc)
  | .busy _ .f4 loc => .next ((flushDetach ch s).goto i .f5 { loc with cap := (s.chan ch).block })
  | .busy _ .f5 loc => .next ((flushCancel ch loc.cap s).goto i .f6 loc)
  | .busy _ .f6 _ => .next (s.finishOk i)
  | _ => .next (s.enter i .f1)

end Sys2Proof.Machine
end

