-- ==== Sys2Proof/Machine/LevelWave.lean ====
section
/-! DEFINITION. SETLEVEL and SETWAVE (`44_level_wave.md` R220 to R230). -/

namespace Sys2Proof.Machine

/-- Phase `L1` (R220), checks in the order of R221. -/
def levelL1 (i : Instr) (ch : Nat) (value : Word) (s : State) : State :=
  if s.nch ≤ ch then s.raiseFail i .invalidParams
  else if (s.chan ch).active = false then s.raiseFail i .notConfigured
  else if (s.chan ch).mode ≠ .level then s.raiseFail i s.cfg.wrongModeStatus
  else (s.dacWrite ch (levelSample s.cfg value)).finishOk i

/-- SETLEVEL (R220): `D0`, then phase `L1`. -/
def execSetLevel (ch : Nat) (value b p : Word) (s : State) : Host.Outcome State Fault Refusal :=
  let i := Instr.setLevel ch value b p
  match s.seq with
  | .busy _ .l1 _ => .next (levelL1 i ch value s)
  | _ => .next (s.enter i .l1)

/-- The fill of the whole FIFO with one call of `Gen` (R225, R227). -/
def State.waveFill (s : State) (ch : Nat) (waveType amp : Word) : State :=
  s.modChan ch fun c => { c with fifo := Memory.writeBytes c.fifo 0 (waveBytes s.cfg waveType amp) }

/-- Phase `V1` (R225), checks in the order of R226; amplitude 0 leaves the FIFO and the stopped timer (R229). -/
def waveV1 (i : Instr) (ch : Nat) (waveType amp : Word) (s : State) : State :=
  if s.nch ≤ ch then s.raiseFail i .invalidParams
  else if (s.chan ch).active = false then s.raiseFail i .notConfigured
  else if (s.chan ch).mode ≠ .wave then s.raiseFail i s.cfg.wrongModeStatus
  else
    let s := s.timerStop ch
    if amp = 0 then s.finishOk i
    else
      ((s.waveFill ch waveType amp).timerStart ch ((s.chan ch).rate.toNat * s.cfg.h)).unlessFault fun s => s.finishOk i

/-- SETWAVE (R225): `D0`, then phase `V1`. -/
def execSetWave (ch : Nat) (waveType amp p : Word) (s : State) : Host.Outcome State Fault Refusal :=
  let i := Instr.setWave ch waveType amp p
  match s.seq with
  | .busy _ .v1 _ => .next (waveV1 i ch waveType amp s)
  | _ => .next (s.enter i .v1)

end Sys2Proof.Machine
end

