-- ==== Sys2Proof/Machine/Write.lean ====
section
/-! DEFINITION. WRITE (`41_write.md` R160 to R180), one definition per phase that does more than move one register. Every
phase takes the command `i` itself, for the failure response and the next phase. -/

namespace Sys2Proof.Machine

/-- Phase `W1` (R161). -/
def writeW1 (i : Instr) (ch : Nat) (loc : Locals) (s : State) : State :=
  if s.nch ≤ ch then s.raiseFail i .invalidParams else s.goto i .w2 loc

/-- Phase `W2` (R161). -/
def writeW2 (i : Instr) (ch : Nat) (loc : Locals) (s : State) : State :=
  if (s.chan ch).active = false then s.raiseFail i .notConfigured
  else if (s.chan ch).mode ≠ .stream then s.raiseFail i s.cfg.wrongModeStatus
  else s.goto i .w3 loc

/-- Phase `W3`: admission (R162). -/
def writeW3 (i : Instr) (ch : Nat) (loc : Locals) (s : State) : State :=
  if 2 < (s.chan ch).cnt then s.raiseFail i .inProgress else s.goto i .w4 loc

/-- Phase `W4`: the mapping (R163). -/
def writeW4 (i : Instr) (ch : Nat) (block : Word) (loc : Locals) (s : State) : State :=
  match s.mapAnswer block with
  | .err e => s.mapAsked.raiseFail i (.mapError e)
  | .ok => (s.mapAsked.modChan ch fun c => { c with ptr := ⟨block, 0⟩ }).goto i .w5 loc

/-- Phase `W5` (R164); the earlier block it overwrites, if one is in flight, is noted (R178, log 8). -/
def writeW5 (i : Instr) (ch : Nat) (block : Word) (loc : Locals) (s : State) : State :=
  ((s.noteLost ch).modChan ch fun c => { c with block := some block }).goto i .w6 loc

/-- Phase `W6` (R164). -/
def writeW6 (i : Instr) (ch : Nat) (p : Word) (loc : Locals) (s : State) : State :=
  (s.modChan ch fun c => { c with process := p }).goto i .w7 loc

/-- Phase `W7` (R164, R165). -/
def writeW7 (i : Instr) (ch : Nat) (size : Word) (loc : Locals) (s : State) : State :=
  (s.modChan ch fun c => { c with size := size }).goto i .w8 { loc with n := unitsOf s.cfg size }

/-- Phase `W8` (R166). -/
def writeW8 (i : Instr) (ch : Nat) (loc : Locals) (s : State) : State :=
  s.goto i .w9 { loc with c := (s.chan ch).cnt }

/-- Phase `W9`: the three priming outcomes (R167, R168). -/
def writeW9 (i : Instr) (ch : Nat) (loc : Locals) (s : State) : State :=
  if loc.c = 0 ∧ 2 ≤ loc.n then
    (s.fifoCopy ch 0 (2 * hbOf s.cfg)).unlessFault fun s => s.goto i .w11 { loc with k := 2 }
  else if loc.c < 2 then s.goto i .w10 { loc with h := (s.chan ch).half }
  else s.goto i .w11 { loc with k := 0 }

/-- Phase `W10`: the one-unit copy into the half `h` does not name (R169). -/
def writeW10 (i : Instr) (ch : Nat) (loc : Locals) (s : State) : State :=
  (s.fifoCopy ch (copyDst s.cfg loc.h) (hbOf s.cfg)).unlessFault fun s => s.goto i .w11 { loc with k := 1 }

/-- Phase `W11`: immediate completion when every unit was primed (R170). -/
def writeW11 (i : Instr) (ch : Nat) (block size p : Word) (loc : Locals) (s : State) : State :=
  if (loc.n : Int) - loc.k ≤ 0 then (s.emit (.writeDone p ch .ok block size)).goto i .w12 loc
  else s.goto i .w13 loc

/-- Phase `W12` (R170, D14). -/
def writeW12 (i : Instr) (ch : Nat) (loc : Locals) (s : State) : State :=
  (s.modChan ch fun c => { c with block := none }).goto i .w13 loc

/-- Phase `W13`: the critical section of the count (R172). A sum outside the counter's range faults and is not stored. -/
def writeW13 (i : Instr) (ch : Nat) (loc : Locals) (s : State) : State :=
  let cnt := (s.chan ch).cnt
  if cntInRange s.cfg (cnt + loc.n) then
    (s.critical fun s => s.modChan ch fun c => { c with cnt := c.cnt + loc.n }).goto i .w14
      { loc with needStart := decide (cnt = 0) }
  else s.raiseFault (.cntOverflow ch)

/-- Phase `W14`: the timer start, and the end of the command with no `CmdAck` (R173). -/
def writeW14 (ch : Nat) (loc : Locals) (s : State) : State :=
  (if loc.needStart then s.timerStart ch (s.chan ch).rate.toNat else s).unlessFault fun s => { s with seq := .idle }

/-- WRITE (R160): `D0`, then phases `W1 .. W14`. -/
def execWrite (ch : Nat) (block size p : Word) (s : State) : Host.Outcome State Fault Refusal :=
  let i := Instr.writeCmd ch block size p
  match s.seq with
  | .busy _ .w1 loc => .next (writeW1 i ch loc s)
  | .busy _ .w2 loc => .next (writeW2 i ch loc s)
  | .busy _ .w3 loc => .next (writeW3 i ch loc s)
  | .busy _ .w4 loc => .next (writeW4 i ch block loc s)
  | .busy _ .w5 loc => .next (writeW5 i ch block loc s)
  | .busy _ .w6 loc => .next (writeW6 i ch p loc s)
  | .busy _ .w7 loc => .next (writeW7 i ch size loc s)
  | .busy _ .w8 loc => .next (writeW8 i ch loc s)
  | .busy _ .w9 loc => .next (writeW9 i ch loc s)
  | .busy _ .w10 loc => .next (writeW10 i ch loc s)
  | .busy _ .w11 loc => .next (writeW11 i ch block size p loc s)
  | .busy _ .w12 loc => .next (writeW12 i ch loc s)
  | .busy _ .w13 loc => .next (writeW13 i ch loc s)
  | .busy _ .w14 loc => .next (writeW14 ch loc s)
  | _ => .next (s.enter i .w1)

end Sys2Proof.Machine
end

