-- ==== Sys2Proof/Machine/Dispatch.lean ====
section
/-! DEFINITION. One sequencer phase of a command: phase `D0` for it when the sequencer is not inside it, else the phase
`seq` names. -/

namespace Sys2Proof.Machine

/-- The meaning of each command of the opcode table. -/
def exec (i : Instr) (s : State) : Host.Outcome State Fault Refusal :=
  match i with
  | .openCmd ch mode rate p => Sys2Proof.Machine.execOpen ch mode rate p s
  | .closeCmd ch a b p => Sys2Proof.Machine.execClose ch a b p s
  | .writeCmd ch block size p => Sys2Proof.Machine.execWrite ch block size p s
  | .flushCmd ch a b p => Sys2Proof.Machine.execFlush ch a b p s
  | .setLevel ch value b p => Sys2Proof.Machine.execSetLevel ch value b p s
  | .setWave ch waveType amp p => Sys2Proof.Machine.execSetWave ch waveType amp p s

end Sys2Proof.Machine
end

