-- ==== Sys2Proof/Machine/Engine.lean ====
section
/-! DEFINITION. The trigger timer's tick and the circular DMA engine (`46_environment_agents.md` R254 to R257). -/

namespace Sys2Proof.Machine

/-- `Tick(ch)` is enabled (R254). -/
def State.tickEnabled (s : State) (ch : Nat) : Bool := decide (ch < s.nch) && (s.chan ch).ticking

/-- Raising HT or TC: the overrun check, then the flag (R256, R257). -/
def raiseHt (c : Channel) : Channel := { c with overrun := c.overrun || overrunHit c, htif := true }

/-- See `raiseHt`. -/
def raiseTc (c : Channel) : Channel := { c with overrun := c.overrun || overrunHit c, tcif := true }

/-- The engine's move: one sample to the DAC, and the position (R255). -/
def moveSample (cfg : Config) (c : Channel) : Channel :=
  let v := Memory.readBytes c.fifo c.dmaPos cfg.sb
  { c with dacDr := v, dacTrace := c.dacTrace ++ [v], dmaPos := (c.dmaPos + cfg.sb) % fbOf cfg }

/-- The events of the new position: HT at `HB`, TC at 0 (R255). -/
def raiseEvents (cfg : Config) (c : Channel) : Channel :=
  let c := if c.dmaPos = hbOf cfg then raiseHt c else c
  if c.dmaPos = 0 then raiseTc c else c

/-- `Tick(ch)` (R255). -/
def State.tick (s : State) (ch : Nat) : State := s.modChan ch fun c => raiseEvents s.cfg (moveSample s.cfg c)

end Sys2Proof.Machine
end

