-- ==== Sys2Proof/Machine/Refill.lean ====
section
/-! DEFINITION. The refill interrupt (`42_refill_handler.md` R190 to R202; entry and return `60_exceptions.md` R289, R290). -/

namespace Sys2Proof.Machine

/-- `Refill(ch)` is enabled (R190). -/
def State.refillEnabled (s : State) (ch : Nat) : Bool :=
  decide (ch < s.nch) && (s.chan ch).irqEn && (s.chan ch).pending && !s.irqMask

/-- Steps 1 to 3 on the channel: both flags cleared, `half` toggled, `cnt` decremented (R191 to R193). -/
def countEvent (c : Channel) : Channel := { c with htif := false, tcif := false, half := !c.half, cnt := c.cnt - 1 }

/-- Steps 1 to 3 (R200). -/
def State.refillCount (s : State) (ch : Nat) : State := s.modChan ch countEvent

/-- The completion branch of step 4: the acknowledgment from the registers, then the clear (R195). -/
def State.refillComplete (s : State) (ch : Nat) (h : Word) : State :=
  (s.emit (.writeDone (s.chan ch).process ch .ok h (s.chan ch).size)).modChan ch fun c => { c with block := none }

/-- Step 4: the refill of the half just vacated, or the completion of the block (R194, R195). -/
def State.refillServe (s : State) (ch : Nat) : State :=
  match (s.chan ch).block with
  | none => s
  | some h =>
    if 2 ≤ (s.chan ch).cnt then s.fifoCopy ch (copyDst s.cfg (s.chan ch).half) (hbOf s.cfg)
    else s.refillComplete ch h

/-- Step 5: underflow (R196, R299). -/
def State.refillUnderflow (s : State) (ch : Nat) : State :=
  if (s.chan ch).cnt ≤ 0 then
    let s := (s.modChan ch fun c => { c with half := false }).timerStop ch
    if s.cfg.diagUnderflow then s.emit (.diag ch) else s
  else s

/-- The handler `Refill(ch)`, one indivisible step (R200). Entry saves nothing and no mask is set (R289); the return is the
end of the step, the sequencer going on with the phase in `seq` (R290). -/
def State.refill (s : State) (ch : Nat) : State :=
  ((s.refillCount ch).refillServe ch).unlessFault fun s => s.refillUnderflow ch

end Sys2Proof.Machine
end

