-- ==== Sys2Proof/Machine/Sequencer.lean ====
section
/-! DEFINITION. The request dispatcher (`45_dispatcher.md` R241, R245, R247) and the scheduling of all agents
(`46_environment_agents.md` R262): one step of the machine is one turn. -/

namespace Sys2Proof.Machine

/-- The sequencer has a phase to run (R241, R262). -/
def State.seqEnabled (s : State) : Bool :=
  match s.seq with
  | .busy _ _ _ => true
  | .idle => !s.rq.isEmpty

/-- The answer to an unknown opcode: channel and opcode echoed as received, nothing else changes (R245). -/
def State.unknownCommand (s : State) (r : Request) : State := s.emit (.cmdAck r.w3 r.ch r.op .notSupported 0)

/-- Phase `D0`: the head request leaves `rq` and is decoded (R241). -/
def dispatchRequest (r : Request) (s : State) : Host.Outcome State Fault Refusal :=
  match decode r with
  | .ok i => exec i s
  | .error _ => .next (s.unknownCommand r)

/-- The sequencer's turn: the phase `seq` names, else `D0`, else nothing (an idle sequencer waits, log 3). -/
def seqTurn (s : State) : Host.Outcome State Fault Refusal :=
  match s.seq with
  | .busy i _ _ => exec i s
  | .idle =>
    match s.rq with
    | [] => .next s
    | r :: rest => dispatchRequest r { s with rq := rest }

/-- The handler's turn (R190); a handler not enabled takes no step (log 3). -/
def irqTurn (ch : Nat) (s : State) : State := if s.refillEnabled ch then s.refill ch else s

/-- The engine's turn (R254); a tick not enabled takes no step (log 3). -/
def tickTurn (ch : Nat) (s : State) : State := if s.tickEnabled ch then s.tick ch else s

/-- One turn of the schedule (R262). The schedule's head is taken; RUN (R112) stays at the head while the sequencer has a
phase to run; with no turn left the sequencer runs. -/
def turnStep (s : State) : Host.Outcome State Fault Refusal :=
  match s.sched with
  | [] => seqTurn s
  | .phase :: ts => seqTurn { s with sched := ts }
  | .run :: ts => if s.seqEnabled then seqTurn s else .next { s with sched := ts }
  | .irq ch :: ts => .next (irqTurn ch { s with sched := ts })
  | .tick ch :: ts => .next (tickTurn ch { s with sched := ts })
  | .send r :: ts => .next (State.send { s with sched := ts } r)
  | .supply h bytes :: ts => .next (State.supply { s with sched := ts } h bytes)

/-- The request put where `D0` fetches, with the sequencer idle and its turn next (log 9). -/
def placeRequest (s : State) (r : Request) : State :=
  { s with seq := .idle, rq := r :: s.rq, sched := .phase :: s.sched, fault := none }

end Sys2Proof.Machine
end

