-- ==== Sys2Proof/Machine/Step.lean ====
section
/-! DEFINITION. The machine's step: one turn of the schedule, unless a fault is recorded. -/

namespace Sys2Proof.Machine

/-- One step (R262). After a recorded fault no further step is defined: the machine stops with that fault (R49, R301). -/
def step (s : State) : Host.Outcome State Fault Refusal :=
  match s.fault with
  | some r => .fault r
  | none => turnStep s

/-- `s` with the instruction `w` at the head of the request queue, so that the next step is phase `D0` for it (log 9). -/
def State.withFetchWord (s : State) (nbits w : Nat) : State := placeRequest s (Request.ofTableWord nbits w)

end Sys2Proof.Machine
end

