-- ==== Sys2Proof/Machine/Assembler.lean ====
section
/-! DEFINITION. The textual syntax of commands and schedules (`30_encoding.md` R111 to R113): a line of text is parsed to a
`Line`, and a line is a list of turns. What the rules leave open of the text (separators, comments, numbers too large) is
log 21. -/

namespace Sys2Proof.Machine

/-- A line of a program: a command (R111), a schedule line (R112) or the pseudo-instruction PLAY (R113). -/
inductive Line
  | cmd (i : Instr)
  | step (n : Nat)
  | run
  | tick (ch n : Nat)
  | irq (ch : Nat)
  | play (ch : Nat)
  deriving DecidableEq, Repr

/-- The turns a line stands for: a command line means that the host sends the request (R111); STEP, RUN, TICK, IRQ (R112);
`PLAY ch` is `TICK ch, H` followed by `IRQ ch` (R113). -/
def Line.turns (cfg : Config) : Line → List Turn
  | .cmd i => [.send (encode i)]
  | .step n => List.replicate n .phase
  | .run => [.run]
  | .tick ch n => List.replicate n (.tick ch)
  | .irq ch => [.irq ch]
  | .play ch => List.replicate cfg.h (.tick ch) ++ [.irq ch]

/-- A program is a schedule (R112): its lines' turns, one line after the other. -/
def programTurns (cfg : Config) (ls : List Line) : List Turn := ls.flatMap (Line.turns cfg)

/-! ### Text to lines -/

/-- A token, unless it is empty. -/
def tokenOf (cur : List Char) : List (List Char) := if cur.isEmpty then [] else [cur]

/-- Tokens between blanks and commas, up to a semicolon. -/
def tokensFrom : List Char → List Char → List (List Char)
  | [], cur => tokenOf cur
  | c :: cs, cur =>
    if c = ';' then tokenOf cur
    else if c = ' ' ∨ c = ',' then tokenOf cur ++ tokensFrom cs []
    else tokensFrom cs (cur ++ [c])

/-- The value of a digit in base 10 or 16. -/
def digitOf (base : Nat) (c : Char) : Option Nat :=
  let v :=
    if '0' ≤ c ∧ c ≤ '9' then c.toNat - '0'.toNat
    else if 'a' ≤ c ∧ c ≤ 'f' then c.toNat - 'a'.toNat + 10
    else if 'A' ≤ c ∧ c ≤ 'F' then c.toNat - 'A'.toNat + 10
    else base
  if v < base then some v else none

/-- The digits of a number, most significant first. -/
def digitsFrom (base : Nat) : List Char → Nat → Option Nat
  | [], acc => some acc
  | c :: cs, acc =>
    match digitOf base c with
    | some d => digitsFrom base cs (acc * base + d)
    | none => none

/-- A decimal or `0x` hexadecimal operand (R111). -/
def numberOf : List Char → Option Nat
  | '0' :: 'x' :: c :: cs => digitsFrom 16 (c :: cs) 0
  | c :: cs => digitsFrom 10 (c :: cs) 0
  | [] => none

/-- A parameter word; a number that does not fit 32 bits is no operand. -/
def wordOf (t : List Char) : Option Word :=
  match numberOf t with
  | some v => if v < 2 ^ 32 then some (BitVec.ofNat 32 v) else none
  | none => none

/-- The sending process `@p` (R111). -/
def senderOf : List Char → Option Word
  | '@' :: t => wordOf t
  | _ => none

/-- The mode operand: a name or a number (R111). -/
def modeWordOf (t : List Char) : Option Word :=
  if t = "LEVEL".toList then some 0
  else if t = "STREAM".toList then some 1
  else if t = "WAVE".toList then some 2
  else wordOf t

/-- A command the request format can carry. -/
def commandLine (i : Instr) : Option Line := if WellFormed i then some (.cmd i) else none

/-- A line from its tokens (R111 to R113); absent parameters are assembled as 0. -/
def lineOfTokens : List (List Char) → Option Line
  | [kw, ch, mode, rate, p] =>
    if kw = "OPEN".toList then
      do commandLine (.openCmd (← numberOf ch) (← modeWordOf mode) (← wordOf rate) (← senderOf p))
    else if kw = "WRITE".toList then
      do commandLine (.writeCmd (← numberOf ch) (← wordOf mode) (← wordOf rate) (← senderOf p))
    else if kw = "SETWAVE".toList then
      do commandLine (.setWave (← numberOf ch) (← wordOf mode) (← wordOf rate) (← senderOf p))
    else none
  | [kw, ch, value, p] =>
    if kw = "SETLEVEL".toList then
      do commandLine (.setLevel (← numberOf ch) (← wordOf value) 0 (← senderOf p))
    else none
  | [kw, ch, x] =>
    if kw = "CLOSE".toList then do commandLine (.closeCmd (← numberOf ch) 0 0 (← senderOf x))
    else if kw = "FLUSH".toList then do commandLine (.flushCmd (← numberOf ch) 0 0 (← senderOf x))
    else if kw = "TICK".toList then do some (.tick (← numberOf ch) (← numberOf x))
    else none
  | [kw, x] =>
    if kw = "STEP".toList then do some (.step (← numberOf x))
    else if kw = "IRQ".toList then do some (.irq (← numberOf x))
    else if kw = "PLAY".toList then do some (.play (← numberOf x))
    else none
  | [kw] => if kw = "RUN".toList then some .run else none
  | _ => none

/-- A line of program text. -/
def parseLine (text : List Char) : Option Line := lineOfTokens (tokensFrom text [])

end Sys2Proof.Machine
end

