-- ==== Sys2Proof/Machine/Wire.lean ====
section
/-! DEFINITION. The wire form of a response, format `RSP`, and the status numbers (`30_encoding.md` R107, R108). -/

namespace Sys2Proof.Machine

/-- The status values of R108. -/
def statusCode : Status → Byte
  | .ok => 0x00
  | .invalidParams => 0x01
  | .alreadyConfigured => 0x02
  | .notConfigured => 0x03
  | .inProgress => 0x04
  | .notSupported => 0x05
  | .outOfMemory => 0x06
  | .cancelled => 0x08
  | .mapError e => (1#1) ++ e

/-- The four words of a response (R107). -/
structure ResponseWords where
  r0 : Word
  r1 : Word
  r2 : Word
  r3 : Word
  deriving DecidableEq, Repr

/-- `r0`: status, op, ch, kind from the high bits down (R107). -/
def responseWord0 (status op : Byte) (ch : Nat) (kind : Byte) : Word := status ++ op ++ BitVec.ofNat 8 ch ++ kind

/-- A response's words; a diagnostic is addressed to `DIAG_SINK` (R107, D13). -/
def responseWords (cfg : Config) : Response → ResponseWords
  | .cmdAck dest ch op st blk => ⟨responseWord0 (statusCode st) op ch 0x01, blk, 0, dest⟩
  | .writeDone dest ch st blk size => ⟨responseWord0 (statusCode st) 0x03 ch 0x02, blk, size, dest⟩
  | .diag ch => ⟨responseWord0 0x00 0x00 ch 0x03, 0, 0, cfg.diagSink⟩

end Sys2Proof.Machine
end

