-- ==== Sys2Proof/Safety.lean ====
section
/-! DEFINITION. What counts as a finished, clean and lawful run (`46_environment_agents.md` R262 to R264, `60_exceptions.md`
R301), the lifecycle states (`10_state.md` R31), and the invariant every step keeps. -/

namespace Sys2Proof.Machine

/-- `H >= 1` and `SB >= 1` (R8, R9). -/
def ConfigOk (cfg : Config) : Prop := 1 ≤ cfg.h ∧ 1 ≤ cfg.sb

/-- `k` steps of the machine, stopping at a fault or refusal. -/
def runSteps : Nat → State → Host.Outcome State Fault Refusal
  | 0, s => .next s
  | k + 1, s =>
    match step s with
    | .next t => runSteps k t
    | .fault r => .fault r
    | .refused r => .refused r

/-- A half-transfer event of channel `ch` becomes pending. -/
def State.pendEvent (s : State) (ch : Nat) : State := s.modChan ch fun c => { c with htif := true }

/-- `n` events of channel `ch`, each serviced by a handler turn before the next one is raised (R201). -/
def State.servicedEvents (s : State) (ch : Nat) : Nat → State
  | 0 => s
  | n + 1 => irqTurn ch ((s.servicedEvents ch n).pendEvent ch)

/-- The turn listed next is a step R262 has: its agent is enabled. A schedule that lists any other turn is what R112 calls an
error in the program; the model passes that turn over (log 3). -/
def State.turnLawful (s : State) : Bool :=
  match s.sched with
  | [] => true
  | .phase :: _ => s.seqEnabled
  | .run :: _ => true
  | .irq ch :: _ => s.refillEnabled ch
  | .tick ch :: _ => s.tickEnabled ch
  | .send _ :: _ => true
  | .supply h _ :: _ => !s.unanswered h

/-- A finished run (R263); "the host sends nothing more": no `send` turn is still to come. -/
def Finished (s : State) : Prop :=
  s.fault = none ∧ s.seq = .idle ∧ s.rq = [] ∧ (∀ r, Turn.send r ∉ s.sched) ∧ ∀ ch, s.refillEnabled ch = false

/-- No fault and no hazard mark: the premise R50, R262 and R301 ask of a claim about the hardware. -/
def Clean (s : State) : Prop :=
  s.fault = none ∧ ∀ ch, ch < s.nch → (s.chan ch).race = false ∧ (s.chan ch).overrun = false

/-- The host's duties for a Write of `size` bytes of a block (R264). -/
def WriteDuty (s : State) (block size : Word) : Prop :=
  hbOf s.cfg ≤ size.toNat ∧ size.toNat ≤ (s.blk block).len

/-- The host's duty for an Open in stream or wave mode (R264). -/
def RateDuty (rate : Word) : Prop := rate ≠ 0

/-- The lifecycle states in register terms (R31): `none` is `Closed`. -/
def Channel.lifecycle (c : Channel) : Option Mode := if c.active then some c.mode else none

/-- The phases of a command, in the order they can run (R44, R132, R136, R160, R210, R220, R225). -/
def phasesOf : Instr → List Phase
  | .openCmd _ _ _ _ => [.o1]
  | .closeCmd _ _ _ _ => [.c1, .c2, .c3, .c4, .c5, .c6]
  | .writeCmd _ _ _ _ => [.w1, .w2, .w3, .w4, .w5, .w6, .w7, .w8, .w9, .w10, .w11, .w12, .w13, .w14]
  | .flushCmd _ _ _ _ => [.f1, .f2, .f3, .f4, .f5, .f6]
  | .setLevel _ _ _ _ => [.l1]
  | .setWave _ _ _ _ => [.v1]

/-- The first phase of a command (R241). -/
def firstPhase : Instr → Phase
  | .openCmd _ _ _ _ => .o1
  | .closeCmd _ _ _ _ => .c1
  | .writeCmd _ _ _ _ => .w1
  | .flushCmd _ _ _ _ => .f1
  | .setLevel _ _ _ _ => .l1
  | .setWave _ _ _ _ => .v1

/-- The place of a phase in its command, from 1. -/
def phaseRank : Phase → Nat
  | .o1 | .c1 | .w1 | .f1 | .l1 | .v1 => 1
  | .c2 | .w2 | .f2 => 2
  | .c3 | .w3 | .f3 => 3
  | .c4 | .w4 | .f4 => 4
  | .c5 | .w5 | .f5 => 5
  | .c6 | .w6 | .f6 => 6
  | .w7 => 7
  | .w8 => 8
  | .w9 => 9
  | .w10 => 10
  | .w11 => 11
  | .w12 => 12
  | .w13 => 13
  | .w14 => 14

/-- A phase that runs only after its command found the channel active (R137, R161, R211). -/
def afterActive (ph : Phase) : Bool :=
  match ph with
  | .c3 | .c4 | .c5 | .c6 | .f3 | .f4 | .f5 | .f6 => true
  | .w3 | .w4 | .w5 | .w6 | .w7 | .w8 | .w9 | .w10 | .w11 | .w12 | .w13 | .w14 => true
  | _ => false

/-- A phase that runs only after its command found the channel in stream mode. -/
def afterStream (ph : Phase) : Bool := afterActive ph && ph != .c6

/-- A phase between a Write's admission test and its count update (R162, R179). -/
def inAdmission (ph : Phase) : Bool :=
  match ph with
  | .w4 | .w5 | .w6 | .w7 | .w8 | .w9 | .w10 | .w11 | .w12 | .w13 => true
  | _ => false

/-- A phase that runs after the snapshot `c` (R166). -/
def afterSnapshot (ph : Phase) : Bool :=
  match ph with
  | .w9 | .w10 | .w11 | .w12 | .w13 => true
  | _ => false

/-- What every step keeps of one channel. -/
structure ChannelInv (cfg : Config) (c : Channel) : Prop where
  /-- The FIFO memory is canonical and lies in `0 .. FB-1` (R71). -/
  fifoWf : Memory.wf c.fifo
  fifoBound : ∀ x ∈ c.fifo, x.1 < fbOf cfg
  /-- "an integer in `[0, FB)`, multiple of `SB`" (R36). -/
  posBound : c.dmaPos < fbOf cfg
  posAligned : cfg.sb ∣ c.dmaPos
  /-- "`active[ch]` and `mode[ch] != LevelOutput` implies `fifo_valid[ch]`" (R30). -/
  fifoValid : c.active = true → c.mode ≠ .level → c.fifoValid = true
  /-- A closed channel has its enables off (R139, R142, R330). -/
  closedOff : c.active = false → c.irqEn = false ∧ c.timerRun = false ∧ c.dmaEn = false ∧ c.dacEn = false
  /-- The refill interrupt is on exactly in stream mode (R32). -/
  irqStream : c.irqEn = true → c.mode = .stream
  streamIrq : c.active = true → c.mode = .stream → c.irqEn = true
  /-- "No tick can be enabled on a level channel" (R223). -/
  levelStill : c.active = true → c.mode = .level → c.dmaEn = false ∧ c.timerRun = false
  /-- The engine is configured from Open to Close in stream and wave mode (R34). -/
  engineOn : c.active = true → c.mode ≠ .level → c.dmaEn = true
  /-- R37. -/
  dacOn : c.active = true → c.dacEn = true
  /-- Every DAC write is also in the trace (R74). -/
  traceLast : c.dacTrace.getLast? = none ∨ c.dacTrace.getLast? = some c.dacDr

/-- What every step keeps of the sequencer: the phase is one of its command's, and what the phases before it have found
still holds, no other agent having changed it (R85, R137, R161, R162, R211). -/
structure SeqInv (s : State) (i : Instr) (ph : Phase) (loc : Locals) : Prop where
  phaseOf : ph ∈ phasesOf i
  inRange : ph ≠ firstPhase i → i.chIdx < s.nch
  isActive : afterActive ph = true → (s.chan i.chIdx).active = true
  isStream : afterStream ph = true → (s.chan i.chIdx).mode = .stream
  /-- "a value `<= 2` read here is still `<= 2` at every later phase up to W13" (R162). -/
  admitted : inAdmission ph = true → (s.chan i.chIdx).cnt ≤ 2
  /-- The handler only lowers the count after the snapshot (R166, R193). -/
  snapshot : afterSnapshot ph = true → (s.chan i.chIdx).cnt ≤ loc.c ∧ loc.c ≤ 2

/-- What every step keeps of the client blocks: rising handles, no empty block listed, bytes within the length (R73). -/
structure BlocksInv (bs : List Block) : Prop where
  rising : bs.Pairwise fun x y => x.handle < y.handle
  nonempty : ∀ b ∈ bs, 0 < b.len
  bytesWf : ∀ b ∈ bs, Memory.wf b.bytes
  bytesBound : ∀ b ∈ bs, ∀ x ∈ b.bytes, x.1 < b.len

/-- The invariant of the machine. -/
structure Inv (s : State) : Prop where
  cfgOk : ConfigOk s.cfg
  /-- "every state between steps has `irq_mask = false`" (R42). -/
  unmasked : s.irqMask = false
  /-- The shared clock is on while a channel is active (R41, R140). -/
  clockOn : ∀ ch, ch < s.nch → (s.chan ch).active = true → s.clkEn = true
  channels : ∀ ch, ch < s.nch → ChannelInv s.cfg (s.chan ch)
  sequencer : ∀ i ph loc, s.seq = .busy i ph loc → SeqInv s i ph loc
  clientBlocks : BlocksInv s.blocks

end Sys2Proof.Machine
end

