-- ==== Sys2Proof/Certificates/Slice0/Obligations.lean ====
section
/-! DEFINITION. The statements for the provers. A per-phase statement gives the whole next state as a record update of the
state before, so that every register, response and memory byte not named in it is unchanged: the result and the frame are
one equation. `s.chan ch` is the record of channel `ch` before, and `s.chans.set ch c` the records with it replaced by `c`.
Statements about a phase take `s.seq = .busy i ph loc`, the state in which the sequencer runs that phase of that command
(R44); statement `StepRunsBusyPhase` says that `step` does so. -/

open Sys2Proof Sys2Proof.Machine

/-! ### Encoding -/

/-- R101 to R103: rows of the spec's table of request words decode to the commands they stand for. -/
def Obligations.TableWordsDecode : Prop :=
  decode ⟨0x00000001, 0x00000001, 0x00001F40, 0x00000007⟩ = .ok (.openCmd 0 1 8000 7)
  ∧ decode ⟨0xABCD0002, 0x11111111, 0x22222222, 0x00000005⟩ = .ok (.closeCmd 0 0x11111111 0x22222222 5)
  ∧ decode ⟨0x00000103, 0xDEADBEEF, 0x00000006, 0x00000002⟩ = .ok (.writeCmd 1 0xDEADBEEF 6 2)
  ∧ decode ⟨0x00000004, 0x00000000, 0x00000000, 0x00000005⟩ = .ok (.flushCmd 0 0 0 5)
  ∧ decode ⟨0x00000005, 0x00000063, 0x00000000, 0x00000001⟩ = .ok (.setLevel 0 99 0 1)
  ∧ decode ⟨0x00000106, 0x00000003, 0x00000009, 0x00000007⟩ = .ok (.setWave 1 3 9 7)
  ∧ decode ⟨0x0000FF00, 0x00000000, 0x00000000, 0x00000001⟩ = .error (.unknownOpcode 0)
  ∧ decodeTableWord 32 0x00000506 = some (.setWave 5 0 0 0)

/-- R101, R105: no operand bit of a well-formed command is lost by its encoding. -/
def Obligations.DecodeAfterEncode : Prop :=
  ∀ i : Instr, WellFormed i = true → decode (encode i) = .ok i

/-- R101, R109: a request that decodes is the encoding of a well-formed command, up to the ignored bits `w0[31:16]`. -/
def Obligations.EncodeAfterDecode : Prop :=
  ∀ (r : Request) (i : Instr), decode r = .ok i →
    WellFormed i = true ∧ encode i = { r with w0 := r.w0 &&& 0x0000FFFF }

/-- R102, R109: the decoder refuses exactly the opcodes outside `0x01 .. 0x06`, by name. -/
def Obligations.DecodeRefusesUnknownOpcodes : Prop :=
  ∀ r : Request,
    (decode r = .error (.unknownOpcode r.op) ↔ r.op.toNat = 0 ∨ 6 < r.op.toNat)
    ∧ ∀ e, decode r = .error e → e = .unknownOpcode r.op

/-- R107: the fields of the response words, each at its place. -/
def Obligations.ResponseWordFields : Prop :=
  (∀ (cfg : Config) (dest : Word) (ch : Nat) (op : Byte) (st : Status) (blk : Word), ch < 256 →
    let w := responseWords cfg (.cmdAck dest ch op st blk)
    w.r0.extractLsb' 0 8 = (0x01 : Byte) ∧ (w.r0.extractLsb' 8 8).toNat = ch ∧ w.r0.extractLsb' 16 8 = op
    ∧ w.r0.extractLsb' 24 8 = statusCode st ∧ w.r1 = blk ∧ w.r2 = 0 ∧ w.r3 = dest)
  ∧ (∀ (cfg : Config) (dest : Word) (ch : Nat) (st : Status) (blk size : Word), ch < 256 →
    let w := responseWords cfg (.writeDone dest ch st blk size)
    w.r0.extractLsb' 0 8 = (0x02 : Byte) ∧ (w.r0.extractLsb' 8 8).toNat = ch ∧ w.r0.extractLsb' 16 8 = (0x03 : Byte)
    ∧ w.r0.extractLsb' 24 8 = statusCode st ∧ w.r1 = blk ∧ w.r2 = size ∧ w.r3 = dest)
  ∧ ∀ (cfg : Config) (ch : Nat), ch < 256 →
    let w := responseWords cfg (.diag ch)
    w.r0.extractLsb' 0 8 = (0x03 : Byte) ∧ (w.r0.extractLsb' 8 8).toNat = ch ∧ w.r0.extractLsb' 16 8 = (0x00 : Byte)
    ∧ w.r0.extractLsb' 24 8 = (0x00 : Byte) ∧ w.r1 = 0 ∧ w.r2 = 0 ∧ w.r3 = cfg.diagSink

/-- R108: the table of status values; the numbers are distinct, and `0x07` and `0x09 .. 0x7F` are none of them. -/
def Obligations.StatusCodesDistinct : Prop :=
  statusCode .ok = 0x00 ∧ statusCode .invalidParams = 0x01 ∧ statusCode .alreadyConfigured = 0x02
  ∧ statusCode .notConfigured = 0x03 ∧ statusCode .inProgress = 0x04 ∧ statusCode .notSupported = 0x05
  ∧ statusCode .outOfMemory = 0x06 ∧ statusCode .cancelled = 0x08
  ∧ (∀ e : BitVec 7, (statusCode (.mapError e)).toNat = 0x80 + e.toNat)
  ∧ (∀ a b : Status, statusCode a = statusCode b → a = b)
  ∧ ∀ st : Status, (statusCode st).toNat ≤ 6 ∨ (statusCode st).toNat = 8 ∨ 0x80 ≤ (statusCode st).toNat

/-! ### The step: dispatch and scheduling -/

/-- R241: the next step of an idle sequencer with a request that decodes is `exec` of that command, the request having left
the queue and the turn (if one is listed) the schedule. -/
def Obligations.StepDispatchesHeadRequest : Prop :=
  ∀ (s : State) (r : Request) (rest : List Request) (i : Instr) (ts : List Turn),
    s.fault = none → s.seq = .idle → s.rq = r :: rest → decode r = .ok i →
    (s.sched = .phase :: ts → step s = exec i { s with rq := rest, sched := ts })
    ∧ (s.sched = .run :: ts → step s = exec i { s with rq := rest })
    ∧ (s.sched = [] → step s = exec i { s with rq := rest })

/-- R44, R262: the next step of a busy sequencer that has the turn is `exec` of its command. -/
def Obligations.StepRunsBusyPhase : Prop :=
  ∀ (s : State) (i : Instr) (ph : Phase) (loc : Locals) (ts : List Turn), s.fault = none → s.seq = .busy i ph loc →
    (s.sched = .phase :: ts → step s = exec i { s with sched := ts })
    ∧ (s.sched = .run :: ts → step s = exec i s)
    ∧ (s.sched = [] → step s = exec i s)

/-- R241: phase `D0` of a command only enters the command's first phase, with fresh locals. -/
def Obligations.DispatchEntersFirstPhase : Prop :=
  ∀ (s : State) (i : Instr), s.seq = .idle → exec i s = .next { s with seq := .busy i (firstPhase i) {} }

/-- R245: "For an unknown `op` nothing is checked, not even the channel index; the response echoes `ch` and `op` as
received; no other state changes." The request leaves `rq` (R241). Who has the turn, and that a `phase` turn leaves the
schedule and a `run` turn stays, is the model's (log 3). -/
def Obligations.UnknownOpcodeAnswered : Prop :=
  ∀ (s : State) (r : Request) (rest : List Request) (ts : List Turn), s.fault = none → s.seq = .idle →
    s.rq = r :: rest → (r.op.toNat = 0 ∨ 6 < r.op.toNat) →
    let t := { s with rq := rest, resp := s.resp ++ [.cmdAck r.w3 r.ch r.op .notSupported 0] }
    (s.sched = .phase :: ts → step s = .next { t with sched := ts })
    ∧ (s.sched = .run :: ts → step s = .next t)
    ∧ (s.sched = [] → step s = .next t)

/-- R190, R254, R262: an enabled handler or tick that has the turn runs; one that is not enabled takes no step (that part is
the model's, log 3). -/
def Obligations.AgentTurnsRunWhenEnabled : Prop :=
  ∀ (s : State) (ch : Nat) (ts : List Turn), s.fault = none →
    (s.sched = .irq ch :: ts →
      (ch < s.nch → (s.chan ch).irqEn = true → ((s.chan ch).htif = true ∨ (s.chan ch).tcif = true) →
        s.irqMask = false → step s = .next (({ s with sched := ts } : State).refill ch))
      ∧ (((s.chan ch).irqEn = false ∨ ((s.chan ch).htif = false ∧ (s.chan ch).tcif = false) ∨ s.irqMask = true) →
        step s = .next { s with sched := ts }))
    ∧ (s.sched = .tick ch :: ts →
      (ch < s.nch → (s.chan ch).timerRun = true → (s.chan ch).dmaEn = true →
        step s = .next (({ s with sched := ts } : State).tick ch))
      ∧ (((s.chan ch).timerRun = false ∨ (s.chan ch).dmaEn = false) → step s = .next { s with sched := ts }))

/-- R240: `send(req)` appends the request to the tail of `rq` and changes nothing else (but the schedule, which is the
model's, log 3). -/
def Obligations.HostSendAppends : Prop :=
  ∀ (s : State) (r : Request) (ts : List Turn), s.fault = none → s.sched = .send r :: ts →
    step s = .next { s with
      sched := ts, rq := s.rq ++ [r] }

/-- R49, R301: once a fault is recorded no further step is defined. -/
def Obligations.FaultStopsTheMachine : Prop :=
  ∀ (s : State) (r : Fault), s.fault = some r → step s = .fault r

/-! ### OPEN -/

/-- R131: the checks of OPEN in their order, each ending the command with no state changed but the failure response and the
sequencer. -/
def Obligations.OpenChecksInOrder : Prop :=
  ∀ (s : State) (ch : Nat) (mode rate p : Word) (loc : Locals), s.seq = .busy (.openCmd ch mode rate p) .o1 loc →
    let answer := fun st => exec (.openCmd ch mode rate p) s
      = .next { s with resp := s.resp ++ [.cmdAck p ch 0x01 st 0], seq := .idle }
    (s.nch ≤ ch → answer .invalidParams)
    ∧ (ch < s.nch → 2 < mode.toNat → answer .invalidParams)
    ∧ (ch < s.nch → mode.toNat ≤ 2 → (s.chan ch).active = true → answer .alreadyConfigured)

/-- R132 for the level mode: the whole next state of OPEN. -/
def Obligations.OpenLevelCompletes : Prop :=
  ∀ (s : State) (ch : Nat) (rate p : Word) (loc : Locals), s.seq = .busy (.openCmd ch 0 rate p) .o1 loc →
    ch < s.nch → (s.chan ch).active = false →
    exec (.openCmd ch 0 rate p) s = .next { s with
      clkEn := true
      chans := s.chans.set ch { s.chan ch with
        dacEn := true, dacDr := List.replicate s.cfg.sb (some 0)
        dacTrace := (s.chan ch).dacTrace ++ [List.replicate s.cfg.sb (some 0)]
        mode := .level, rate := rate, active := true }
      resp := s.resp ++ [.cmdAck p ch 0x01 .ok 0]
      seq := .idle }

/-- R132 for the stream mode, the allocator answering OK: the whole next state of OPEN. The drawn answer is the model's
(log 5). -/
def Obligations.OpenStreamCompletes : Prop :=
  ∀ (s : State) (ch : Nat) (rate p : Word) (loc : Locals), s.seq = .busy (.openCmd ch 1 rate p) .o1 loc →
    ch < s.nch → (s.chan ch).active = false → s.allocAnswer = .ok →
    exec (.openCmd ch 1 rate p) s = .next { s.allocAsked with
      clkEn := true
      chans := s.chans.set ch { s.chan ch with
        fifoValid := true, fifo := [], timerRun := false, dmaEn := true, dmaPos := 0, htif := false, tcif := false
        irqEn := true, cnt := 0, half := false, block := none
        dacEn := true, mode := .stream, rate := rate, active := true }
      resp := s.resp ++ [.cmdAck p ch 0x01 .ok 0]
      seq := .idle }

/-- R132 for the wave mode, the allocator answering OK: the whole next state of OPEN. The drawn answer is the model's
(log 5). -/
def Obligations.OpenWaveCompletes : Prop :=
  ∀ (s : State) (ch : Nat) (rate p : Word) (loc : Locals), s.seq = .busy (.openCmd ch 2 rate p) .o1 loc →
    ch < s.nch → (s.chan ch).active = false → s.allocAnswer = .ok →
    exec (.openCmd ch 2 rate p) s = .next { s.allocAsked with
      clkEn := true
      chans := s.chans.set ch { s.chan ch with
        fifoValid := true, fifo := [], timerRun := false, dmaEn := true, dmaPos := 0, htif := false, tcif := false
        dacEn := true, mode := .wave, rate := rate, active := true }
      resp := s.resp ++ [.cmdAck p ch 0x01 .ok 0]
      seq := .idle }

/-- R133: after an allocation failure every channel register is as before, and the clock is on. That the drawn answer leaves
`allocIn` or counts in `asked` is the model's (log 5). -/
def Obligations.OpenOutOfMemoryKeepsChannels : Prop :=
  ∀ (s : State) (ch : Nat) (mode rate p : Word) (loc : Locals), s.seq = .busy (.openCmd ch mode rate p) .o1 loc →
    ch < s.nch → (mode = 1 ∨ mode = 2) → (s.chan ch).active = false → s.allocAnswer = .outOfMemory →
    exec (.openCmd ch mode rate p) s = .next { s.allocAsked with
      clkEn := true, resp := s.resp ++ [.cmdAck p ch 0x01 .outOfMemory 0], seq := .idle }

/-! ### CLOSE -/

/-- R137: the checks C1 and C2, and the branch of C2. -/
def Obligations.CloseChecks : Prop :=
  ∀ (s : State) (ch : Nat) (a b p : Word) (loc : Locals),
    let i := Instr.closeCmd ch a b p
    let answer := fun st => exec i s
      = .next { s with resp := s.resp ++ [.cmdAck p ch 0x02 st 0], seq := .idle }
    (s.seq = .busy i .c1 loc → s.nch ≤ ch → answer .invalidParams)
    ∧ (s.seq = .busy i .c1 loc → ch < s.nch → exec i s = .next { s with seq := .busy i .c2 loc })
    ∧ (s.seq = .busy i .c2 loc → (s.chan ch).active = false → answer .notConfigured)
    ∧ (s.seq = .busy i .c2 loc → (s.chan ch).active = true → (s.chan ch).mode = .stream →
        exec i s = .next { s with seq := .busy i .c3 loc })
    ∧ (s.seq = .busy i .c2 loc → (s.chan ch).active = true → (s.chan ch).mode ≠ .stream →
        exec i s = .next { s with seq := .busy i .c6 loc })

/-- R136, R138: phases C3 to C5, the steps of a Flush. -/
def Obligations.CloseFlushesFirst : Prop :=
  ∀ (s : State) (ch : Nat) (a b p : Word) (loc : Locals),
    let i := Instr.closeCmd ch a b p
    (s.seq = .busy i .c3 loc → exec i s = .next { s with
      chans := s.chans.set ch { s.chan ch with timerRun := false }
      ctl := s.ctl ++ [.stop ch], seq := .busy i .c4 loc })
    ∧ (s.seq = .busy i .c4 loc → exec i s = .next { s with
      chans := s.chans.set ch { s.chan ch with block := none }, irqMask := false
      seq := .busy i .c5 { loc with cap := (s.chan ch).block } })
    ∧ (s.seq = .busy i .c5 loc → loc.cap = none → exec i s = .next { s with seq := .busy i .c6 loc })
    ∧ ∀ h, s.seq = .busy i .c5 loc → loc.cap = some h → exec i s = .next { s with
      resp := s.resp ++ [.writeDone (s.chan ch).process ch .cancelled h 0]
      seq := .busy i .c6 loc }

/-- R136, R140, R141: phase C6, the teardown of CLOSE, is its whole next state; the shared clock goes off exactly when no
other channel is active. -/
def Obligations.CloseTearsDown : Prop :=
  ∀ (s : State) (ch : Nat) (a b p : Word) (loc : Locals), s.seq = .busy (.closeCmd ch a b p) .c6 loc → ch < s.nch →
    ∃ clk, exec (.closeCmd ch a b p) s = .next { s with
      chans := s.chans.set ch { s.chan ch with
        irqEn := if (s.chan ch).mode = .stream then false else (s.chan ch).irqEn
        timerRun := false, dmaEn := false, dacEn := false, active := false
        fifoValid := if s.cfg.fifoReleaseOnClose then false else (s.chan ch).fifoValid }
      ctl := s.ctl ++ [.stop ch]
      clkEn := clk
      resp := s.resp ++ [.cmdAck p ch 0x02 .ok 0]
      seq := .idle }
    ∧ ((∀ j, j < s.nch → j ≠ ch → (s.chan j).active = false) → clk = false)
    ∧ ((∃ j, j < s.nch ∧ j ≠ ch ∧ (s.chan j).active = true) → clk = s.clkEn)

/-! ### WRITE -/

/-- R161, R162: the checks W1 to W3 in their order; a failure changes nothing but the response (which carries the handle,
R242) and the sequencer. -/
def Obligations.WriteChecks : Prop :=
  ∀ (s : State) (ch : Nat) (block size p : Word) (loc : Locals),
    let i := Instr.writeCmd ch block size p
    let answer := fun st => exec i s = .next { s with
      resp := s.resp ++ [.cmdAck p ch 0x03 st block], seq := .idle }
    (s.seq = .busy i .w1 loc → s.nch ≤ ch → answer .invalidParams)
    ∧ (s.seq = .busy i .w1 loc → ch < s.nch → exec i s = .next { s with seq := .busy i .w2 loc })
    ∧ (s.seq = .busy i .w2 loc → (s.chan ch).active = false → answer .notConfigured)
    ∧ (s.seq = .busy i .w2 loc → (s.chan ch).active = true → (s.chan ch).mode ≠ .stream →
        answer s.cfg.wrongModeStatus)
    ∧ (s.seq = .busy i .w2 loc → (s.chan ch).active = true → (s.chan ch).mode = .stream →
        exec i s = .next { s with seq := .busy i .w3 loc })
    ∧ (s.seq = .busy i .w3 loc → 2 < (s.chan ch).cnt → answer .inProgress)
    ∧ (s.seq = .busy i .w3 loc → (s.chan ch).cnt ≤ 2 → exec i s = .next { s with seq := .busy i .w4 loc })

/-- R163: the mapping, for either answer of the mapper; a failure's response carries the handle (R242). That the drawn answer
leaves `mapIn` or counts in `asked` is the model's (log 5). -/
def Obligations.WriteMapsBlock : Prop :=
  ∀ (s : State) (ch : Nat) (block size p : Word) (loc : Locals), s.seq = .busy (.writeCmd ch block size p) .w4 loc →
    (s.mapAnswer block = .ok → exec (.writeCmd ch block size p) s = .next { s.mapAsked with
      chans := s.chans.set ch { s.chan ch with ptr := ⟨block, 0⟩ }
      seq := .busy (.writeCmd ch block size p) .w5 loc })
    ∧ ∀ e, s.mapAnswer block = .err e → exec (.writeCmd ch block size p) s = .next { s.mapAsked with
      resp := s.resp ++ [.cmdAck p ch 0x03 (.mapError e) block], seq := .idle }

/-- R164, R165: W5, W6 and W7 record the block, the process and the size unconditionally, and W7 computes
`N = size div HB`. That W5 also notes the handle it overwrites in `lost` (R178) is the model's (log 8). -/
def Obligations.WriteRecordsInFlight : Prop :=
  ∀ (s : State) (ch : Nat) (block size p : Word) (loc : Locals),
    let i := Instr.writeCmd ch block size p
    (s.seq = .busy i .w5 loc → exec i s = .next { s with
      chans := s.chans.set ch { s.chan ch with block := some block }
      lost := s.lost ++ (s.chan ch).block.toList, seq := .busy i .w6 loc })
    ∧ (s.seq = .busy i .w6 loc → exec i s = .next { s with
      chans := s.chans.set ch { s.chan ch with process := p }, seq := .busy i .w7 loc })
    ∧ (s.seq = .busy i .w7 loc → exec i s = .next { s with
      chans := s.chans.set ch { s.chan ch with size := size }
      seq := .busy i .w8 { loc with n := size.toNat / (s.cfg.h * s.cfg.sb) } })

/-- R166 to R168: the snapshot of W8 and the branches of W9 that copy nothing. -/
def Obligations.WriteSnapshotsAndBranches : Prop :=
  ∀ (s : State) (ch : Nat) (block size p : Word) (loc : Locals),
    let i := Instr.writeCmd ch block size p
    (s.seq = .busy i .w8 loc → exec i s = .next { s with seq := .busy i .w9 { loc with c := (s.chan ch).cnt } })
    ∧ (s.seq = .busy i .w9 loc → ¬(loc.c = 0 ∧ 2 ≤ loc.n) → loc.c < 2 →
        exec i s = .next { s with seq := .busy i .w10 { loc with h := (s.chan ch).half } })
    ∧ (s.seq = .busy i .w9 loc → 2 ≤ loc.c →
        exec i s = .next { s with seq := .busy i .w11 { loc with k := 0 } })

/-- R167, R78, R80, R81 (a): the two-unit priming copy of W9 fills the FIFO from offset 0 with `2*HB` block bytes from the
cursor, every other byte position reads as before, the cursor advances, the race mark is set as R80 says, and no other
register of any channel changes. -/
def Obligations.WritePrimesTwoUnits : Prop :=
  ∀ (s : State) (ch : Nat) (block size p : Word) (loc : Locals),
    let i := Instr.writeCmd ch block size p
    let c := s.chan ch
    let n := 2 * (s.cfg.h * s.cfg.sb)
    s.seq = .busy i .w9 loc → ch < s.nch → s.fault = none → loc.c = 0 → 2 ≤ loc.n → Memory.wf c.fifo →
    c.ptr.off + n ≤ (s.blk c.ptr.handle).len →
    ∃ m, exec i s = .next { s with
        chans := s.chans.set ch { c with fifo := m, ptr := ⟨c.ptr.handle, c.ptr.off + n⟩, race := c.race || raceHit s.cfg c 0 n }
        seq := .busy i .w11 { loc with k := 2 } }
      ∧ Memory.wf m
      ∧ (∀ o, o < n → Memory.read m o = Memory.read (s.blk c.ptr.handle).bytes (c.ptr.off + o))
      ∧ ∀ o, n ≤ o → Memory.read m o = Memory.read c.fifo o

/-- R169, R78, R80, R81 (b): the one-unit priming copy of W10 writes the half that `h` does not name, every other byte
position reads as before, and the race mark is set as R80 says. -/
def Obligations.WritePrimesOneUnit : Prop :=
  ∀ (s : State) (ch : Nat) (block size p : Word) (loc : Locals),
    let i := Instr.writeCmd ch block size p
    let c := s.chan ch
    let hb := s.cfg.h * s.cfg.sb
    let dst := if loc.h then 0 else hb
    s.seq = .busy i .w10 loc → ch < s.nch → s.fault = none → Memory.wf c.fifo →
    c.ptr.off + hb ≤ (s.blk c.ptr.handle).len →
    ∃ m, exec i s = .next { s with
        chans := s.chans.set ch { c with fifo := m, ptr := ⟨c.ptr.handle, c.ptr.off + hb⟩, race := c.race || raceHit s.cfg c dst hb }
        seq := .busy i .w11 { loc with k := 1 } }
      ∧ Memory.wf m
      ∧ (∀ o, o < hb → Memory.read m (dst + o) = Memory.read (s.blk c.ptr.handle).bytes (c.ptr.off + o))
      ∧ ∀ o, (o < dst ∨ dst + hb ≤ o) → Memory.read m o = Memory.read c.fifo o

/-- R80: the race mark of a copy. It is set exactly by a copy that writes a byte of the half the engine is in while the
channel's timer runs and its engine is enabled; otherwise it keeps its value. -/
def Obligations.CopyMarksRace : Prop :=
  ∀ (s : State) (ch dst n : Nat), ch < s.nch → s.overreads ch n = false →
    let c := s.chan ch
    let hit := c.timerRun = true ∧ c.dmaEn = true
      ∧ ∃ i, i < n ∧ (dst + i) / (s.cfg.h * s.cfg.sb) = c.dmaPos / (s.cfg.h * s.cfg.sb)
    (hit → ((s.fifoCopy ch dst n).chan ch).race = true)
    ∧ (¬hit → ((s.fifoCopy ch dst n).chan ch).race = c.race)

/-- R79: a copy that would read a block byte at an offset `>= blen` records the fault `SourceOverread(ch)` and writes
nothing: WRITE phases W9 and W10, and the handler after its first three steps (R200). What the faulting phase leaves (those
three steps stay, the sequencer keeps naming W9 or W10, the rest is not executed) is the model's reading of R15 and R301
(DEDUCED, log 4). -/
def Obligations.OverreadFaultsAndWritesNothing : Prop :=
  ∀ (s : State) (ch : Nat), ch < s.nch → ConfigOk s.cfg → s.fault = none →
    let c := s.chan ch
    let hb := s.cfg.h * s.cfg.sb
    let len := (s.blk c.ptr.handle).len
    (∀ block size p loc, s.seq = .busy (.writeCmd ch block size p) .w9 loc → loc.c = 0 → 2 ≤ loc.n →
      len < c.ptr.off + 2 * hb →
      exec (.writeCmd ch block size p) s = .next { s with fault := some (.sourceOverread ch) })
    ∧ (∀ block size p loc, s.seq = .busy (.writeCmd ch block size p) .w10 loc → len < c.ptr.off + hb →
      exec (.writeCmd ch block size p) s = .next { s with fault := some (.sourceOverread ch) })
    ∧ ∀ h, c.block = some h → 3 ≤ c.cnt → len < c.ptr.off + hb →
      s.refill ch = { s with
        chans := s.chans.set ch { c with htif := false, tcif := false, half := !c.half, cnt := c.cnt - 1 }
        fault := some (.sourceOverread ch) }

/-- R170: the immediate completion of W11 (from the command's own operands), and the clear of W12. -/
def Obligations.WriteCompletesWhenPrimed : Prop :=
  ∀ (s : State) (ch : Nat) (block size p : Word) (loc : Locals),
    let i := Instr.writeCmd ch block size p
    (s.seq = .busy i .w11 loc → loc.n ≤ loc.k → exec i s = .next { s with
      resp := s.resp ++ [.writeDone p ch .ok block size], seq := .busy i .w12 loc })
    ∧ (s.seq = .busy i .w11 loc → loc.k < loc.n → exec i s = .next { s with seq := .busy i .w13 loc })
    ∧ (s.seq = .busy i .w12 loc → exec i s = .next { s with
      chans := s.chans.set ch { s.chan ch with block := none }, seq := .busy i .w13 loc })

/-- R172: the critical section of W13 adds the full `N`; a sum outside the signed `CNT_BITS` range records
`CntOverflow(ch)` and stores nothing. That the fault also leaves the local `needStart` and the phase W13 as they were is the
model's (log 4, its exception for W13). -/
def Obligations.WriteCountsUnits : Prop :=
  ∀ (s : State) (ch : Nat) (block size p : Word) (loc : Locals), s.seq = .busy (.writeCmd ch block size p) .w13 loc →
    let sum := (s.chan ch).cnt + loc.n
    let fits := -(2 : Int) ^ (s.cfg.cntBits - 1) ≤ sum ∧ sum ≤ (2 : Int) ^ (s.cfg.cntBits - 1) - 1
    (fits → exec (.writeCmd ch block size p) s = .next { s with
      chans := s.chans.set ch { s.chan ch with cnt := sum }, irqMask := false
      seq := .busy (.writeCmd ch block size p) .w14 { loc with needStart := decide ((s.chan ch).cnt = 0) } })
    ∧ (¬fits → exec (.writeCmd ch block size p) s = .next { s with fault := some (.cntOverflow ch) })

/-- R173, R251, R253: W14 starts the timer at `rate[ch]` exactly if `needStart`, and ends the command with no response; at
rate 0 the start records `RateZero(ch)`. That the faulted run keeps naming W14 is the model's (log 4). -/
def Obligations.WriteStartsTimer : Prop :=
  ∀ (s : State) (ch : Nat) (block size p : Word) (loc : Locals), s.seq = .busy (.writeCmd ch block size p) .w14 loc →
    s.fault = none →
    (loc.needStart = true → (s.chan ch).rate ≠ 0 → exec (.writeCmd ch block size p) s = .next { s with
      chans := s.chans.set ch { s.chan ch with timerRun := true, timerRate := (s.chan ch).rate.toNat }
      ctl := s.ctl ++ [.start ch (s.chan ch).rate.toNat], seq := .idle })
    ∧ (loc.needStart = true → (s.chan ch).rate = 0 →
      exec (.writeCmd ch block size p) s = .next { s with fault := some (.rateZero ch) })
    ∧ (loc.needStart = false → exec (.writeCmd ch block size p) s = .next { s with seq := .idle })

/-! ### FLUSH -/

/-- R211: the checks F1 and F2. -/
def Obligations.FlushChecks : Prop :=
  ∀ (s : State) (ch : Nat) (a b p : Word) (loc : Locals),
    let i := Instr.flushCmd ch a b p
    let answer := fun st => exec i s
      = .next { s with resp := s.resp ++ [.cmdAck p ch 0x04 st 0], seq := .idle }
    (s.seq = .busy i .f1 loc → s.nch ≤ ch → answer .invalidParams)
    ∧ (s.seq = .busy i .f1 loc → ch < s.nch → exec i s = .next { s with seq := .busy i .f2 loc })
    ∧ (s.seq = .busy i .f2 loc → (s.chan ch).active = false → answer .notConfigured)
    ∧ (s.seq = .busy i .f2 loc → (s.chan ch).active = true → (s.chan ch).mode ≠ .stream →
        answer s.cfg.wrongModeStatus)
    ∧ (s.seq = .busy i .f2 loc → (s.chan ch).active = true → (s.chan ch).mode = .stream →
        exec i s = .next { s with seq := .busy i .f3 loc })

/-- R212 to R216: phases F3 to F6 of FLUSH, each as its whole next state: the timer stop, the atomic detach, the
cancellation to the recorded process, the acknowledgment. -/
def Obligations.FlushDetachesAndCancels : Prop :=
  ∀ (s : State) (ch : Nat) (a b p : Word) (loc : Locals),
    let i := Instr.flushCmd ch a b p
    (s.seq = .busy i .f3 loc → exec i s = .next { s with
      chans := s.chans.set ch { s.chan ch with timerRun := false }
      ctl := s.ctl ++ [.stop ch], seq := .busy i .f4 loc })
    ∧ (s.seq = .busy i .f4 loc → exec i s = .next { s with
      chans := s.chans.set ch { s.chan ch with block := none }, irqMask := false
      seq := .busy i .f5 { loc with cap := (s.chan ch).block } })
    ∧ (s.seq = .busy i .f5 loc → loc.cap = none → exec i s = .next { s with seq := .busy i .f6 loc })
    ∧ (∀ h, s.seq = .busy i .f5 loc → loc.cap = some h → exec i s = .next { s with
      resp := s.resp ++ [.writeDone (s.chan ch).process ch .cancelled h 0]
      seq := .busy i .f6 loc })
    ∧ (s.seq = .busy i .f6 loc → exec i s = .next { s with
      resp := s.resp ++ [.cmdAck p ch 0x04 .ok 0], seq := .idle })

/-! ### SETLEVEL and SETWAVE -/

/-- R221, R226: the checks of SETLEVEL and SETWAVE in their order; no state changes on failure. -/
def Obligations.LevelAndWaveChecks : Prop :=
  ∀ (s : State) (i : Instr) (m : Mode) (ph : Phase) (loc : Locals),
    ((∃ ch v b p, i = .setLevel ch v b p) ∧ m = .level ∧ ph = .l1
      ∨ (∃ ch t amp p, i = .setWave ch t amp p) ∧ m = .wave ∧ ph = .v1) →
    s.seq = .busy i ph loc →
    let ch := i.chIdx
    let answer := fun st => exec i s
      = .next { s with resp := s.resp ++ [.cmdAck i.sender ch i.opcode st 0], seq := .idle }
    (s.nch ≤ ch → answer .invalidParams)
    ∧ (ch < s.nch → (s.chan ch).active = false → answer .notConfigured)
    ∧ (ch < s.nch → (s.chan ch).active = true → (s.chan ch).mode ≠ m → answer s.cfg.wrongModeStatus)

/-- R220, R222: SETLEVEL writes one sample to `DACDR(ch)` and its trace, and nothing else: the zero sample by default, the
low `SB` bytes of the value, least significant first, where `SETLEVEL_USES_VALUE` (a byte from the fifth on is free, log 17). -/
def Obligations.SetLevelWritesSample : Prop :=
  ∀ (s : State) (ch : Nat) (value b p : Word) (loc : Locals), s.seq = .busy (.setLevel ch value b p) .l1 loc →
    ch < s.nch → (s.chan ch).active = true → (s.chan ch).mode = .level →
    ∃ v : Sample, exec (.setLevel ch value b p) s = .next { s with
        chans := s.chans.set ch { s.chan ch with dacDr := v, dacTrace := (s.chan ch).dacTrace ++ [v] }
        resp := s.resp ++ [.cmdAck p ch 0x05 .ok 0]
        seq := .idle }
      ∧ v.length = s.cfg.sb
      ∧ (s.cfg.setLevelUsesValue = false → ∀ j, j < s.cfg.sb → v[j]? = some (some 0))
      ∧ (s.cfg.setLevelUsesValue = true → ∀ j, j < s.cfg.sb → j < 4 →
          v[j]? = some (some (BitVec.ofNat 8 (value.toNat / 2 ^ (8 * j)))))

/-- R225, R229: SETWAVE with amplitude 0 stops the timer, leaves the FIFO and the timer stopped, and succeeds. -/
def Obligations.SetWaveZeroStopsOnly : Prop :=
  ∀ (s : State) (ch : Nat) (waveType p : Word) (loc : Locals), s.seq = .busy (.setWave ch waveType 0 p) .v1 loc →
    ch < s.nch → (s.chan ch).active = true → (s.chan ch).mode = .wave →
    exec (.setWave ch waveType 0 p) s = .next { s with
      chans := s.chans.set ch { s.chan ch with timerRun := false }
      ctl := s.ctl ++ [.stop ch]
      resp := s.resp ++ [.cmdAck p ch 0x06 .ok 0]
      seq := .idle }

/-- R225, R227, R228: SETWAVE with a nonzero amplitude and a nonzero rate fills every byte of the FIFO with `Gen`'s samples
in order, leaves every other byte position, and restarts the timer at `rate * H`. -/
def Obligations.SetWaveFillsAndRestarts : Prop :=
  ∀ (s : State) (ch : Nat) (waveType amp p : Word) (loc : Locals), s.seq = .busy (.setWave ch waveType amp p) .v1 loc →
    ConfigOk s.cfg → s.fault = none → ch < s.nch → (s.chan ch).active = true → (s.chan ch).mode = .wave →
    amp ≠ 0 → (s.chan ch).rate ≠ 0 → Memory.wf (s.chan ch).fifo →
    ∃ m, exec (.setWave ch waveType amp p) s = .next { s with
        chans := s.chans.set ch { s.chan ch with
          fifo := m, timerRun := true, timerRate := (s.chan ch).rate.toNat * s.cfg.h }
        ctl := s.ctl ++ [.stop ch, .start ch ((s.chan ch).rate.toNat * s.cfg.h)]
        resp := s.resp ++ [.cmdAck p ch 0x06 .ok 0]
        seq := .idle }
      ∧ Memory.wf m
      ∧ (∀ i j, i < 2 * s.cfg.h → j < s.cfg.sb → Memory.read m (i * s.cfg.sb + j)
          = some (Config.genByte s.cfg.sb waveType amp (2 * s.cfg.h) i j))
      ∧ ∀ o, 2 * (s.cfg.h * s.cfg.sb) ≤ o → Memory.read m o = Memory.read (s.chan ch).fifo o

/-- R228, R253: SETWAVE with a nonzero amplitude on a channel opened at rate 0 records `RateZero(ch)` after the stop and the
fill, with no acknowledgment; the timer stays stopped. That the stop and the fill stay is the model's (log 4). -/
def Obligations.SetWaveAtRateZeroFaults : Prop :=
  ∀ (s : State) (ch : Nat) (waveType amp p : Word) (loc : Locals), s.seq = .busy (.setWave ch waveType amp p) .v1 loc →
    s.fault = none → ch < s.nch → (s.chan ch).active = true → (s.chan ch).mode = .wave →
    amp ≠ 0 → (s.chan ch).rate = 0 → Memory.wf (s.chan ch).fifo →
    ∃ m, exec (.setWave ch waveType amp p) s = .next { s with
        chans := s.chans.set ch { s.chan ch with fifo := m, timerRun := false }
        ctl := s.ctl ++ [.stop ch]
        fault := some (.rateZero ch) }
      ∧ Memory.wf m
      ∧ (∀ i j, i < 2 * s.cfg.h → j < s.cfg.sb → Memory.read m (i * s.cfg.sb + j)
          = some (Config.genByte s.cfg.sb waveType amp (2 * s.cfg.h) i j))
      ∧ ∀ o, 2 * (s.cfg.h * s.cfg.sb) ≤ o → Memory.read m o = Memory.read (s.chan ch).fifo o

/-! ### The refill handler -/

/-- R200, R191 to R194: the handler while at least two units stay owed and a block is in flight: one unit from the cursor
into the half just vacated, every other byte position as before, the race mark as R80 says, no response, the timer
untouched. -/
def Obligations.RefillCopiesOneUnit : Prop :=
  ∀ (s : State) (ch : Nat) (h : Word),
    let c := s.chan ch
    let hb := s.cfg.h * s.cfg.sb
    let dst := if c.half then hb else 0
    ch < s.nch → s.fault = none → Memory.wf c.fifo → c.block = some h → 3 ≤ c.cnt →
    c.ptr.off + hb ≤ (s.blk c.ptr.handle).len →
    ∃ m, s.refill ch = { s with
        chans := s.chans.set ch { c with
          htif := false, tcif := false, half := !c.half, cnt := c.cnt - 1
          fifo := m, ptr := ⟨c.ptr.handle, c.ptr.off + hb⟩, race := c.race || raceHit s.cfg c dst hb } }
      ∧ Memory.wf m
      ∧ (∀ o, o < hb → Memory.read m (dst + o) = Memory.read (s.blk c.ptr.handle).bytes (c.ptr.off + o))
      ∧ ∀ o, (o < dst ∨ dst + hb ≤ o) → Memory.read m o = Memory.read c.fifo o

/-- R195, R196, R283: the handler when at most one unit stays owed: a block in flight is completed from the registers and
cleared; if nothing stays owed, `half` is reset, the timer stopped and the diagnostic emitted where the parameter says so,
the count keeping its value; no FIFO byte changes. -/
def Obligations.RefillCompletesAndUnderflows : Prop :=
  ∀ (s : State) (ch : Nat),
    let c := s.chan ch
    let done : List Response := c.block.elim [] fun h => [.writeDone c.process ch .ok h c.size]
    ch < s.nch → s.fault = none → c.cnt ≤ 2 →
    s.refill ch = { s with
      chans := s.chans.set ch { c with
        htif := false, tcif := false, cnt := c.cnt - 1, block := none
        half := if c.cnt ≤ 1 then false else !c.half
        timerRun := if c.cnt ≤ 1 then false else c.timerRun }
      ctl := s.ctl ++ if c.cnt ≤ 1 then [.stop ch] else []
      resp := s.resp ++ done ++ if c.cnt ≤ 1 ∧ s.cfg.diagUnderflow = true then [.diag ch] else [] }

/-- R195, R217: an event with no block in flight and units still owed is a no-op with respect to the blocks: one toggle and
one decrement. -/
def Obligations.RefillWithoutBlockCountsOnly : Prop :=
  ∀ (s : State) (ch : Nat),
    let c := s.chan ch
    ch < s.nch → s.fault = none → c.block = none → 2 ≤ c.cnt →
    s.refill ch = { s with
      chans := s.chans.set ch { c with htif := false, tcif := false, half := !c.half, cnt := c.cnt - 1 } }

/-! ### The engine -/

/-- R255, R256, R257: a tick moves the `SB` bytes at the position, undefined bytes included, to the DAC register and its
trace, advances the position modulo `FB`, and raises HT at `HB` and TC at 0, marking the overrun of a stream channel whose
earlier event is still pending; it changes no other register, no memory and no response. -/
def Obligations.TickMovesOneSample : Prop :=
  ∀ (s : State) (ch : Nat), ConfigOk s.cfg → ch < s.nch →
    let c := s.chan ch
    let hb := s.cfg.h * s.cfg.sb
    let pos := (c.dmaPos + s.cfg.sb) % (2 * hb)
    let v := (List.range s.cfg.sb).map fun j => Memory.read c.fifo (c.dmaPos + j)
    s.tick ch = { s with chans := s.chans.set ch { c with
      dacDr := v, dacTrace := c.dacTrace ++ [v], dmaPos := pos
      htif := if pos = hb then true else c.htif
      tcif := if pos = 0 then true else c.tcif
      overrun := c.overrun || (decide (pos = hb ∨ pos = 0) && c.irqEn && (c.htif || c.tcif)) } }

/-! ### Reset and invariants -/

/-- R51, R330: what the spec gives for reset, for every instance: every channel closed with its enables off, no FIFO, no
event pending, the position 0; the clock off, no interrupt masked, an empty queue, an idle sequencer, no fault. -/
def Obligations.ResetState : Prop :=
  ∀ (cfg : Config) (nch : Nat),
    let s := State.resetOf cfg nch
    s.nch = nch ∧ s.clkEn = false ∧ s.irqMask = false ∧ s.rq = [] ∧ s.seq = .idle ∧ s.resp = [] ∧ s.ctl = []
    ∧ s.fault = none
    ∧ ∀ ch, ch < nch →
      let c := s.chan ch
      c.active = false ∧ c.fifoValid = false ∧ (∀ o, Memory.read c.fifo o = none) ∧ c.irqEn = false
      ∧ c.timerRun = false ∧ c.dmaEn = false ∧ c.dacEn = false ∧ c.htif = false ∧ c.tcif = false ∧ c.dmaPos = 0
      ∧ c.dacTrace = [] ∧ c.race = false ∧ c.overrun = false

/-- The invariant holds at reset, of every instance with `H, SB >= 1`, and of `State.reset`. -/
def Obligations.ResetMeetsInvariant : Prop :=
  (∀ (cfg : Config) (nch : Nat), ConfigOk cfg → Inv (State.resetOf cfg nch)) ∧ Inv State.reset

/-- Every step keeps the invariant: memories canonical and in range (R71), the position aligned (R36), the weak record
invariant (R30), a closed channel off (R139, R330), the refill interrupt exactly in stream mode (R32), a level channel
still (R223), the clock on while a channel is active (R41), no interrupt masked between steps (R42), the sequencer in a
phase of its command with what its checks found (R137, R161, R162, R211), the count at most 2 from W4 to W13 (R162). -/
def Obligations.StepKeepsInvariant : Prop :=
  ∀ (s t : State), Inv s → step s = .next t → Inv t

/-! ### Rules of the whole machine -/

/-- R130: only OPEN leaves `Closed` and only CLOSE returns to it; a channel changes mode only by OPEN, while closed. -/
def Obligations.OnlyOpenAndCloseChangeLifecycle : Prop :=
  ∀ (s t : State) (ch : Nat), Inv s → step s = .next t → ch < s.nch →
    (t.chan ch).lifecycle ≠ (s.chan ch).lifecycle →
    ((s.chan ch).lifecycle = none ∧ ∃ mode rate p loc, s.seq = .busy (.openCmd ch mode rate p) .o1 loc)
    ∨ ((t.chan ch).lifecycle = none ∧ ∃ a b p loc, s.seq = .busy (.closeCmd ch a b p) .c6 loc)

/-- R25, R172, R193: who writes `cnt[ch]`: OPEN in stream mode (to 0), WRITE phase W13 (plus `N`), the handler (minus 1). -/
def Obligations.CountWriters : Prop :=
  ∀ (s t : State) (ch : Nat), step s = .next t → ch < s.nch → (t.chan ch).cnt ≠ (s.chan ch).cnt →
    ((t.chan ch).cnt = 0 ∧ ∃ rate p loc, s.seq = .busy (.openCmd ch 1 rate p) .o1 loc)
    ∨ (∃ block size p loc, s.seq = .busy (.writeCmd ch block size p) .w13 loc
        ∧ (t.chan ch).cnt = (s.chan ch).cnt + loc.n)
    ∨ ((∃ ts, s.sched = .irq ch :: ts) ∧ s.refillEnabled ch = true ∧ (t.chan ch).cnt = (s.chan ch).cnt - 1)

/-- R36: the engine's position is moved only by a tick of its channel, by `SB` modulo `FB`, and set to 0 only by an OPEN
that configures the engine: no stop, no flush, no underflow and no close moves it. -/
def Obligations.PositionWriters : Prop :=
  ∀ (s t : State) (ch : Nat), step s = .next t → ch < s.nch → (t.chan ch).dmaPos ≠ (s.chan ch).dmaPos →
    ((t.chan ch).dmaPos = 0 ∧ ∃ mode rate p loc, s.seq = .busy (.openCmd ch mode rate p) .o1 loc)
    ∨ ((∃ ts, s.sched = .tick ch :: ts) ∧ s.tickEnabled ch = true
        ∧ (t.chan ch).dmaPos = ((s.chan ch).dmaPos + s.cfg.sb) % (2 * (s.cfg.h * s.cfg.sb)))

/-- R48, R50, R248: the traces only grow at their end, the hazard marks are sticky, the parameters and the number of
channels never change. -/
def Obligations.TracesGrowAndMarksStick : Prop :=
  ∀ (s t : State), step s = .next t →
    t.cfg = s.cfg ∧ t.nch = s.nch ∧ s.resp <+: t.resp ∧ s.ctl <+: t.ctl
    ∧ ∀ ch, (s.chan ch).dacTrace <+: (t.chan ch).dacTrace
      ∧ ((s.chan ch).race = true → (t.chan ch).race = true)
      ∧ ((s.chan ch).overrun = true → (t.chan ch).overrun = true)

/-- R134 (d), R286, R294: a command's phase writes registers of its own channel only, and so do the handler and the tick. -/
def Obligations.OtherChannelsUntouched : Prop :=
  ∀ (s t : State) (ch j : Nat), j ≠ ch →
    (∀ i, i.chIdx = ch → exec i s = .next t → t.chan j = s.chan j)
    ∧ (s.refill ch).chan j = s.chan j
    ∧ (s.tick ch).chan j = s.chan j

/-- R247: commands are serial. A step of a busy machine leaves the sequencer inside the same command or idle, and takes no
request from the queue. -/
def Obligations.CommandsAreSerial : Prop :=
  ∀ (s t : State) (i : Instr) (ph : Phase) (loc : Locals), step s = .next t → s.seq = .busy i ph loc →
    (t.seq = .idle ∨ ∃ ph' loc', t.seq = .busy i ph' loc') ∧ s.rq <+: t.rq

/-- R92, R73: no step changes a client block but a host turn naming it outside the window of R92. Such a turn does change it:
the block has the given bytes and their number as its length, every other block and everything else is as before; in the
window the turn changes nothing but the schedule. The host's turn is the model's (log 8), and so is the schedule (log 3). -/
def Obligations.BlocksChangeOnlyByTheHost : Prop :=
  ∀ (s : State) (h : Word), BlocksInv s.blocks →
    (∀ t, step s = .next t → t.blk h ≠ s.blk h →
      s.unanswered h = false ∧ ∃ bytes ts, s.sched = .supply h bytes :: ts)
    ∧ ∀ bytes ts, s.fault = none → s.sched = .supply h bytes :: ts →
      (s.unanswered h = true → step s = .next { s with sched := ts })
      ∧ (s.unanswered h = false → ∃ bs, step s = .next { s with sched := ts, blocks := bs }
        ∧ (({ s with blocks := bs } : State).blk h).len = bytes.length
        ∧ (∀ o, Memory.read (({ s with blocks := bs } : State).blk h).bytes o = bytes[o]?)
        ∧ ∀ j, j ≠ h → ({ s with blocks := bs } : State).blk j = s.blk j)

/-- R27: who writes `block[ch]`: OPEN in stream mode, WRITE phases W5 and W12, FLUSH phase F4 and CLOSE phase C4, and an
enabled handler whose decrement leaves the count below 2. -/
def Obligations.InFlightBlockWriters : Prop :=
  ∀ (s t : State) (ch : Nat), step s = .next t → ch < s.nch → (t.chan ch).block ≠ (s.chan ch).block →
    (∃ rate p loc, s.seq = .busy (.openCmd ch 1 rate p) .o1 loc ∧ (t.chan ch).block = none)
    ∨ (∃ block size p loc, s.seq = .busy (.writeCmd ch block size p) .w5 loc ∧ (t.chan ch).block = some block)
    ∨ (∃ block size p loc, s.seq = .busy (.writeCmd ch block size p) .w12 loc ∧ (t.chan ch).block = none)
    ∨ (∃ a b p loc, (s.seq = .busy (.flushCmd ch a b p) .f4 loc ∨ s.seq = .busy (.closeCmd ch a b p) .c4 loc)
        ∧ (t.chan ch).block = none)
    ∨ ((∃ ts, s.sched = .irq ch :: ts) ∧ s.refillEnabled ch = true ∧ (s.chan ch).cnt ≤ 2
        ∧ (t.chan ch).block = none)

/-- R246: a command always moves on: each of its phases ends the command, records a fault, or leads to a later phase of the
same command; so with the sequencer running, the command ends or faults within 14 phases. -/
def Obligations.CommandsEndWithin14Phases : Prop :=
  ∀ (s : State) (i : Instr) (ph : Phase) (loc : Locals), s.fault = none → s.sched = [] → s.seq = .busy i ph loc →
    ph ∈ phasesOf i →
    ∃ k t, k ≤ 14 ∧ runSteps k s = .next t ∧ (t.seq = .idle ∨ t.fault ≠ none)

/-! ### Whole runs -/

/-- R160, R175 (row `c = 0`, `N >= 2`): a WRITE to an idle stream channel, not preempted, run from `D0` to its end: both
halves primed, the count at `N`, the timer started; for `N = 2` the completion is immediate (14 phases), for `N > 2` the
block stays in flight (13 phases). The drawn answer of the mapper is the model's (log 5), and so is `lost` (log 8). -/
def Obligations.IdleWriteRunsToItsEnd : Prop :=
  ∀ (s : State) (r : Request) (rest : List Request) (ch : Nat) (block size p : Word),
    let c := s.chan ch
    let hb := s.cfg.h * s.cfg.sb
    let n := size.toNat / hb
    let two := n = 2
    s.fault = none → s.sched = [] → s.irqMask = false → s.seq = .idle → s.rq = r :: rest →
    decode r = .ok (.writeCmd ch block size p) →
    ConfigOk s.cfg → ch < s.nch → c.active = true → c.mode = .stream → c.cnt = 0 → c.rate ≠ 0 → 2 ≤ n →
    (n : Int) < (2 : Int) ^ (s.cfg.cntBits - 1) → s.mapAnswer block = .ok → 2 * hb ≤ (s.blk block).len →
    runSteps (if two then 14 else 13) s = .next { s.mapAsked with
      rq := rest
      chans := s.chans.set ch { c with
        ptr := ⟨block, 2 * hb⟩, process := p, size := size, block := if two then none else some block
        fifo := Memory.writeBytes c.fifo 0 (Memory.readBytes (s.blk block).bytes 0 (2 * hb))
        race := c.race || raceHit s.cfg c 0 (2 * hb)
        cnt := n, timerRun := true, timerRate := c.rate.toNat }
      lost := s.lost ++ c.block.toList
      resp := if two then s.resp ++ [.writeDone p ch .ok block size] else s.resp
      ctl := s.ctl ++ [.start ch c.rate.toNat] }

/-- R201: the counting. A block in flight with `n >= 2` units owed and enough bytes left is drained by `n` events, each
serviced before the next is raised: `n - 2` units are copied from the cursor, one after the other, into the two halves in
turn, the first into the half `half` names (so the last two of them are what the FIFO holds at the end, and a half no copy
wrote reads as before), the block is completed exactly once, the count reaches 0 and the timer stops. -/
def Obligations.EventsDrainTheBlock : Prop :=
  ∀ (s : State) (ch n : Nat) (h : Word),
    let c := s.chan ch
    let hb := s.cfg.h * s.cfg.sb
    let dst := fun i => if c.half = decide (i % 2 = 0) then hb else 0
    ch < s.nch → s.fault = none → s.irqMask = false → c.irqEn = true → c.block = some h → 2 ≤ n → c.cnt = n →
    Memory.wf c.fifo →
    c.ptr.off + (n - 2) * hb ≤ (s.blk c.ptr.handle).len →
    let t := s.servicedEvents ch n
    t.fault = none ∧ (t.chan ch).cnt = 0 ∧ (t.chan ch).block = none ∧ (t.chan ch).half = false
    ∧ (t.chan ch).timerRun = false ∧ (t.chan ch).ptr = ⟨c.ptr.handle, c.ptr.off + (n - 2) * hb⟩
    ∧ t.resp = s.resp ++ .writeDone c.process ch .ok h c.size :: (if s.cfg.diagUnderflow then [.diag ch] else [])
    ∧ t.ctl = s.ctl ++ [.stop ch]
    ∧ (∀ i o, i < n - 2 → n - 2 ≤ i + 2 → o < hb →
        Memory.read (t.chan ch).fifo (dst i + o) = Memory.read (s.blk c.ptr.handle).bytes (c.ptr.off + i * hb + o))
    ∧ ∀ o, (∀ i, i < n - 2 → o < dst i ∨ dst i + hb ≤ o) → Memory.read (t.chan ch).fifo o = Memory.read c.fifo o

/-- R210, R218: a FLUSH of an active stream channel, not preempted, run from `D0` to its end in 7 phases: exactly one
cancellation if a block was in flight and none otherwise, before the acknowledgment; nothing of the record changes but
`timer_run` and `block`. -/
def Obligations.FlushRunsToItsEnd : Prop :=
  ∀ (s : State) (r : Request) (rest : List Request) (ch : Nat) (a b p : Word),
    let c := s.chan ch
    s.fault = none → s.sched = [] → s.irqMask = false → s.seq = .idle → s.rq = r :: rest →
    decode r = .ok (.flushCmd ch a b p) → ch < s.nch → c.active = true → c.mode = .stream →
    runSteps 7 s = .next { s with
      rq := rest
      chans := s.chans.set ch { c with timerRun := false, block := none }
      ctl := s.ctl ++ [.stop ch]
      resp := s.resp ++ (c.block.elim [] fun h => [.writeDone c.process ch .cancelled h 0])
        ++ [.cmdAck p ch 0x04 .ok 0] }

/-- R143: OPEN then CLOSE of a closed channel, not preempted: the enables are off again, in stream and wave mode the flags
are clear and the position 0, and the clock is off if no other channel is active. -/
def Obligations.OpenThenCloseRestores : Prop :=
  ∀ (s : State) (r1 r2 : Request) (ch : Nat) (mode rate p a b q : Word),
    s.fault = none → s.sched = [] → s.seq = .idle → s.rq = [r1, r2] →
    decode r1 = .ok (.openCmd ch mode rate p) → decode r2 = .ok (.closeCmd ch a b q) →
    ch < s.nch → mode.toNat ≤ 2 → (mode ≠ 0 → s.allocAnswer = .ok) → ChannelInv s.cfg (s.chan ch) →
    (s.chan ch).active = false →
    ∃ t, runSteps (if mode = 1 then 9 else 6) s = .next t ∧ t.seq = .idle ∧ t.rq = [] ∧ t.fault = none
      ∧ t.resp = s.resp ++ [.cmdAck p ch 0x01 .ok 0, .cmdAck q ch 0x02 .ok 0]
      ∧ (t.chan ch).active = false ∧ (t.chan ch).irqEn = false ∧ (t.chan ch).timerRun = false
      ∧ (t.chan ch).dmaEn = false ∧ (t.chan ch).dacEn = false
      ∧ (mode ≠ 0 → (t.chan ch).htif = false ∧ (t.chan ch).tcif = false ∧ (t.chan ch).dmaPos = 0)
      ∧ ((∀ j, j < s.nch → j ≠ ch → (s.chan j).active = false) → t.clkEn = false)
      ∧ ∀ j, j ≠ ch → t.chan j = s.chan j

/-! ### Program text -/

/-- R111 to R113: the worked line assembles to its four words, and `PLAY ch` is `TICK ch, H` followed by `IRQ ch`. -/
def Obligations.LinesAssemble : Prop :=
  parseLine "WRITE 0, 1, 1024 @7".toList = some (.cmd (.writeCmd 0 1 1024 7))
  ∧ encode (.writeCmd 0 1 1024 7) = ⟨0x00000003, 0x00000001, 0x00000400, 0x00000007⟩
  ∧ ∀ (cfg : Config) (ch : Nat), (Line.play ch).turns cfg = (Line.tick ch cfg.h).turns cfg ++ (Line.irq ch).turns cfg
end

