-- ==== Sys2Proof/Laws/Memory.lean ====
section
/-! SUPPORT. The laws of byte memory: a read after a write, the canonical form kept by every operation, what a run of bytes
reads as, and the same for the list of client blocks. -/

namespace Sys2Proof.Machine

/-! ### One byte -/

@[simp] theorem read_nil (k : Nat) : Memory.read [] k = none := rfl

/-- Below every listed address nothing is read. -/
theorem read_of_lt {m : Memory} {k : Nat} (h : ∀ x ∈ m, k < x.1) : Memory.read m k = none := by
  induction m with
  | nil => rfl
  | cons x m ih =>
    have hx := h x (by simp)
    simp only [Memory.read]
    rw [if_neg (by omega)]
    exact ih fun y hy => h y (by simp [hy])

/-- What a write leaves listed: the written address, or an address listed before. -/
theorem mem_write {m : Memory} {k : Nat} {v : UByte} {x : Host.Cell} (h : x ∈ Memory.write m k v) :
    x ∈ m ∨ (x.1 = k ∧ v = some x.2) := by
  induction m with
  | nil => cases v <;> simp_all [Memory.write]
  | cons y m ih =>
    simp only [Memory.write] at h
    split at h
    · cases v <;> simp_all
      rcases h with rfl | h <;> simp_all
    · split at h
      · cases v <;> simp_all
        rcases h with rfl | h <;> simp_all
      · rcases List.mem_cons.mp h with rfl | h
        · simp
        · rcases ih h with h | h <;> simp [h]

/-- Every write keeps the canonical form. -/
theorem write_wf {m : Memory} (hm : Memory.wf m) (k : Nat) (v : UByte) : Memory.wf (Memory.write m k v) := by
  induction m with
  | nil => cases v <;> simp [Memory.write, Memory.wf]
  | cons y m ih =>
    obtain ⟨hy, hm⟩ := List.pairwise_cons.mp hm
    simp only [Memory.write]
    split
    · rename_i hk
      cases v with
      | none => exact List.pairwise_cons.mpr ⟨hy, hm⟩
      | some b =>
        refine List.pairwise_cons.mpr ⟨fun z hz => ?_, List.pairwise_cons.mpr ⟨hy, hm⟩⟩
        rcases List.mem_cons.mp hz with rfl | hz
        · exact hk
        · exact lt_trans hk (hy z hz)
    · split
      · rename_i hk
        cases v with
        | none => exact hm
        | some b => exact List.pairwise_cons.mpr ⟨fun z hz => hk ▸ hy z hz, hm⟩
      · refine List.pairwise_cons.mpr ⟨fun z hz => ?_, ih hm⟩
        rcases mem_write hz with hz | ⟨hz, -⟩
        · exact hy z hz
        · simp only [hz]; omega

/-- A read after a write: the written value at the written address, the old one elsewhere. -/
theorem read_write {m : Memory} (hm : Memory.wf m) (k : Nat) (v : UByte) (j : Nat) :
    Memory.read (Memory.write m k v) j = if j = k then v else Memory.read m j := by
  induction m with
  | nil => cases v <;> simp [Memory.write, Memory.read]
  | cons y m ih =>
    obtain ⟨hy, hm⟩ := List.pairwise_cons.mp hm
    have hnone : ∀ a, a ≤ y.1 → Memory.read m a = none := fun a ha =>
      read_of_lt fun z hz => lt_of_le_of_lt ha (hy z hz)
    simp only [Memory.write]
    split
    · rename_i hk
      cases v with
      | none =>
        by_cases hj : j = k
        · subst hj
          simp only [Memory.read, if_true]
          rw [if_neg (by omega)]; exact hnone j (by omega)
        · simp [hj]
      | some b => simp only [Memory.read]
    · split
      · rename_i hk _
        cases v with
        | none =>
          by_cases hj : j = k
          · subst hj; simp only [if_true]; exact hnone j (by omega)
          · simp only [Memory.read, if_neg hj]; rw [if_neg (by omega)]
        | some b =>
          by_cases hj : j = k
          · simp [Memory.read, hj]
          · simp only [Memory.read, if_neg hj]; rw [if_neg (by omega)]
      · rename_i hk hk'
        simp only [Memory.read, ih hm]
        by_cases hj : j = y.1
        · simp only [hj, if_true]; rw [if_neg (by omega)]
        · simp only [if_neg hj]

/-! ### Runs of bytes -/

@[simp] theorem readBytes_length (m : Memory) (a n : Nat) : (Memory.readBytes m a n).length = n := by
  simp [Memory.readBytes]

theorem readBytes_getElem (m : Memory) (a n i : Nat) (h : i < (Memory.readBytes m a n).length) :
    (Memory.readBytes m a n)[i] = Memory.read m (a + i) := by
  simp [Memory.readBytes]

theorem writeBytes_wf {m : Memory} (hm : Memory.wf m) (a : Nat) (vs : List UByte) :
    Memory.wf (Memory.writeBytes m a vs) := by
  induction vs generalizing m a with
  | nil => exact hm
  | cons v vs ih => exact ih (write_wf hm a v) (a + 1)

/-- A run of bytes written reads back byte by byte; every address outside it reads as before. -/
theorem read_writeBytes {m : Memory} (hm : Memory.wf m) (a : Nat) (vs : List UByte) (j : Nat) :
    Memory.read (Memory.writeBytes m a vs) j
      = if a ≤ j ∧ j < a + vs.length then (vs[j - a]?).getD none else Memory.read m j := by
  induction vs generalizing m a with
  | nil => simp only [Memory.writeBytes, List.length_nil]; rw [if_neg (by omega)]
  | cons v vs ih =>
    simp only [Memory.writeBytes, List.length_cons, ih (write_wf hm a v) (a + 1), read_write hm]
    by_cases hj : j = a
    · subst hj
      rw [if_neg (by omega), if_pos rfl, if_pos (by omega)]; simp
    · by_cases hin : a ≤ j ∧ j < a + (vs.length + 1)
      · rw [if_pos (by omega), if_pos hin]
        obtain ⟨d, rfl⟩ : ∃ d, j = a + 1 + d := ⟨j - (a + 1), by omega⟩
        rw [show a + 1 + d - (a + 1) = d by omega, show a + 1 + d - a = d + 1 by omega, List.getElem?_cons_succ]
      · rw [if_neg (by omega), if_neg hj, if_neg hin]

/-- What a run of writes leaves listed: an address of the run, or one listed before. -/
theorem mem_writeBytes {m : Memory} {a : Nat} {vs : List UByte} {x : Host.Cell}
    (h : x ∈ Memory.writeBytes m a vs) : x ∈ m ∨ (a ≤ x.1 ∧ x.1 < a + vs.length) := by
  induction vs generalizing m a with
  | nil => exact .inl h
  | cons v vs ih =>
    rcases ih h with h | h
    · rcases mem_write h with h | ⟨h, -⟩
      · exact .inl h
      · right; simp only [List.length_cons]; omega
    · right; simp only [List.length_cons]; omega

/-- Two canonical memories that read alike everywhere are equal. -/
theorem memory_ext {m m' : Memory} (hm : Memory.wf m) (hm' : Memory.wf m')
    (h : ∀ k, Memory.read m k = Memory.read m' k) : m = m' := by
  induction m generalizing m' with
  | nil =>
    cases m' with
    | nil => rfl
    | cons y m' => have := h y.1; simp [Memory.read] at this
  | cons x m ih =>
    obtain ⟨hx, hm⟩ := List.pairwise_cons.mp hm
    cases m' with
    | nil => have := h x.1; simp [Memory.read] at this
    | cons y m' =>
      obtain ⟨hy, hm'⟩ := List.pairwise_cons.mp hm'
      have hlow : ∀ {n : Memory} {a : Nat} {z : Host.Cell}, (∀ w ∈ n, z.1 < w.1) → a < z.1 →
          Memory.read (z :: n) a = none := fun hn ha =>
        read_of_lt fun w hw => by
          rcases List.mem_cons.mp hw with rfl | hw
          · exact ha
          · exact lt_trans ha (hn w hw)
      have hxy : x.1 = y.1 := by
        rcases lt_trichotomy x.1 y.1 with hlt | heq | hlt
        · have := h x.1; rw [hlow hy hlt] at this; simp [Memory.read] at this
        · exact heq
        · have := h y.1; rw [hlow hx hlt] at this; simp [Memory.read] at this
      have hval : x.2 = y.2 := by
        have := h x.1; simp only [Memory.read, if_true] at this
        rw [if_pos hxy] at this; exact Option.some.inj this
      have htail : m = m' := ih hm hm' fun k => by
        have hk := h k
        simp only [Memory.read] at hk
        by_cases hkx : k = x.1
        · rw [read_of_lt fun z hz => hkx ▸ hx z hz, read_of_lt fun z hz => hkx ▸ hxy ▸ hy z hz]
        · rw [if_neg hkx, if_neg (hxy ▸ hkx)] at hk; exact hk
      rw [htail, Prod.ext hxy hval]

/-! ### Client blocks -/

@[simp] theorem ofBytes_handle (h : Word) (bs : List Byte) : (Block.ofBytes h bs).handle = h := rfl
@[simp] theorem ofBytes_len (h : Word) (bs : List Byte) : (Block.ofBytes h bs).len = bs.length := rfl

/-- A block laid out by the host is canonical and lies within its length. -/
theorem ofBytes_wf (h : Word) (bs : List Byte) :
    Memory.wf (Block.ofBytes h bs).bytes ∧ ∀ x ∈ (Block.ofBytes h bs).bytes, x.1 < (Block.ofBytes h bs).len := by
  refine ⟨writeBytes_wf List.Pairwise.nil 0 _, fun x hx => ?_⟩
  rcases mem_writeBytes hx with hx | hx
  · simp at hx
  · simpa using hx.2

/-- Every byte of a block laid out by the host has its value. -/
theorem ofBytes_read (h : Word) (bs : List Byte) (k : Nat) :
    Memory.read (Block.ofBytes h bs).bytes k = bs[k]? := by
  simp only [Block.ofBytes, read_writeBytes List.Pairwise.nil, List.length_map, read_nil, Nat.zero_le, true_and,
    Nat.zero_add, Nat.sub_zero]
  by_cases hk : k < bs.length
  · simp [hk]
  · rw [if_neg hk]; simp [hk]

theorem mem_putBlock {b : Block} {bs : List Block} {x : Block} (h : x ∈ putBlock b bs) :
    x ∈ bs ∨ (x = b ∧ 0 < b.len) := by
  induction bs with
  | nil => simp only [putBlock] at h; split at h <;> simp_all; omega
  | cons y ys ih =>
    simp only [putBlock] at h
    split at h
    · split at h
      · exact .inl h
      · rcases List.mem_cons.mp h with rfl | h
        · right; exact ⟨rfl, by omega⟩
        · exact .inl h
    · split at h
      · split at h
        · left; simp [h]
        · rcases List.mem_cons.mp h with rfl | h
          · right; exact ⟨rfl, by omega⟩
          · left; simp [h]
      · rcases List.mem_cons.mp h with rfl | h
        · simp
        · rcases ih h with h | h
          · left; simp [h]
          · exact .inr h

/-- Placing a block keeps the handles rising. -/
theorem putBlock_rising {bs : List Block} (hbs : bs.Pairwise fun x y => x.handle < y.handle) (b : Block) :
    (putBlock b bs).Pairwise fun x y => x.handle < y.handle := by
  induction bs with
  | nil => simp only [putBlock]; split <;> simp
  | cons y ys ih =>
    obtain ⟨hy, hys⟩ := List.pairwise_cons.mp hbs
    simp only [putBlock]
    split
    · rename_i hlt
      split
      · exact hbs
      · refine List.pairwise_cons.mpr ⟨fun z hz => ?_, hbs⟩
        rcases List.mem_cons.mp hz with rfl | hz
        · exact hlt
        · exact BitVec.lt_trans hlt (hy z hz)
    · rename_i hlt
      split
      · rename_i heq
        split
        · exact hys
        · exact List.pairwise_cons.mpr ⟨fun z hz => heq ▸ hy z hz, hys⟩
      · rename_i hne
        refine List.pairwise_cons.mpr ⟨fun z hz => ?_, ih hys⟩
        rcases mem_putBlock hz with hz | ⟨rfl, -⟩
        · exact hy z hz
        · have h1 : ¬ z.handle.toNat < y.handle.toNat := fun h => hlt h
          have h2 : z.handle.toNat ≠ y.handle.toNat := fun h => hne (BitVec.eq_of_toNat_eq h)
          exact (show y.handle.toNat < z.handle.toNat by omega)

/-- The block of a handle after one block is put in its place: the new one under its handle, every other as before (R73). -/
theorem find_putBlock {bs : List Block} (hbs : bs.Pairwise fun x y => x.handle < y.handle) (b : Block) (h : Word) :
    (putBlock b bs).find? (fun x => x.handle = h)
      = if b.handle = h then (if b.len = 0 then none else some b) else bs.find? fun x => x.handle = h := by
  induction bs with
  | nil => simp only [putBlock]; split <;> split <;> simp_all
  | cons x xs ih =>
    obtain ⟨hx, hxs⟩ := List.pairwise_cons.1 hbs
    have hnone : ∀ k : Word, k ≤ x.handle → xs.find? (fun y => y.handle = k) = none := fun k hk => by
      simp only [List.find?_eq_none, decide_eq_true_eq]
      intro y hy he
      have := hx y hy
      bv_omega
    simp only [putBlock]
    split
    · rename_i hlt
      have hne : ¬ x.handle = b.handle := by bv_omega
      split <;> by_cases hb : b.handle = h
      · subst hb; simp [*, hnone b.handle (by bv_omega)]
      · simp [*]
      · simp [*]
      · simp [*]
    · split
      · rename_i hlt he
        have hxh : x.handle = h ↔ b.handle = h := by rw [he]
        by_cases hb : b.handle = h
        · have hxs' := hnone h (by rw [← hb, he]; exact BitVec.le_refl _)
          split <;> simp [*, hxh.2 hb]
        · have hx' : ¬ x.handle = h := fun e => hb (hxh.1 e)
          split <;> simp [hb, hx']
      · rename_i hlt hne
        by_cases hb : b.handle = h
        · have : ¬ x.handle = h := by rintro rfl; exact hne hb
          simp [this, ih hxs, hb]
        · by_cases hxh : x.handle = h <;> simp [hxh, ih hxs, hb]

end Sys2Proof.Machine
end

