-- ==== Sys2Proof/Laws/State.lean ====
section
/-! SUPPORT. One lemma per field per state update, true by unfolding the update once, so that no later proof unfolds a
record update. `rfl` lemmas first, then the updates with a case split. -/

namespace Sys2Proof.Machine

variable (s : State)

/-! ### `modChan` -/

@[simp] theorem modChan_cfg (ch : Nat) (f : Channel → Channel) : (s.modChan ch f).cfg = s.cfg := rfl
@[simp] theorem modChan_chans (ch : Nat) (f : Channel → Channel) : (s.modChan ch f).chans = s.chans.set ch (f (s.chan ch)) := rfl
@[simp] theorem modChan_clkEn (ch : Nat) (f : Channel → Channel) : (s.modChan ch f).clkEn = s.clkEn := rfl
@[simp] theorem modChan_irqMask (ch : Nat) (f : Channel → Channel) : (s.modChan ch f).irqMask = s.irqMask := rfl
@[simp] theorem modChan_rq (ch : Nat) (f : Channel → Channel) : (s.modChan ch f).rq = s.rq := rfl
@[simp] theorem modChan_seq (ch : Nat) (f : Channel → Channel) : (s.modChan ch f).seq = s.seq := rfl
@[simp] theorem modChan_resp (ch : Nat) (f : Channel → Channel) : (s.modChan ch f).resp = s.resp := rfl
@[simp] theorem modChan_ctl (ch : Nat) (f : Channel → Channel) : (s.modChan ch f).ctl = s.ctl := rfl
@[simp] theorem modChan_fault (ch : Nat) (f : Channel → Channel) : (s.modChan ch f).fault = s.fault := rfl
@[simp] theorem modChan_blocks (ch : Nat) (f : Channel → Channel) : (s.modChan ch f).blocks = s.blocks := rfl
@[simp] theorem modChan_lost (ch : Nat) (f : Channel → Channel) : (s.modChan ch f).lost = s.lost := rfl
@[simp] theorem modChan_sched (ch : Nat) (f : Channel → Channel) : (s.modChan ch f).sched = s.sched := rfl
@[simp] theorem modChan_allocIn (ch : Nat) (f : Channel → Channel) : (s.modChan ch f).allocIn = s.allocIn := rfl
@[simp] theorem modChan_mapIn (ch : Nat) (f : Channel → Channel) : (s.modChan ch f).mapIn = s.mapIn := rfl
@[simp] theorem modChan_asked (ch : Nat) (f : Channel → Channel) : (s.modChan ch f).asked = s.asked := rfl
@[simp] theorem modChan_blk (ch : Nat) (f : Channel → Channel) (h : Word) : (s.modChan ch f).blk h = s.blk h := rfl

/-! ### `setClock` -/

@[simp] theorem setClock_cfg (on : Bool) : (s.setClock on).cfg = s.cfg := rfl
@[simp] theorem setClock_chans (on : Bool) : (s.setClock on).chans = s.chans := rfl
@[simp] theorem setClock_clkEn (on : Bool) : (s.setClock on).clkEn = on := rfl
@[simp] theorem setClock_irqMask (on : Bool) : (s.setClock on).irqMask = s.irqMask := rfl
@[simp] theorem setClock_rq (on : Bool) : (s.setClock on).rq = s.rq := rfl
@[simp] theorem setClock_seq (on : Bool) : (s.setClock on).seq = s.seq := rfl
@[simp] theorem setClock_resp (on : Bool) : (s.setClock on).resp = s.resp := rfl
@[simp] theorem setClock_ctl (on : Bool) : (s.setClock on).ctl = s.ctl := rfl
@[simp] theorem setClock_fault (on : Bool) : (s.setClock on).fault = s.fault := rfl
@[simp] theorem setClock_blocks (on : Bool) : (s.setClock on).blocks = s.blocks := rfl
@[simp] theorem setClock_lost (on : Bool) : (s.setClock on).lost = s.lost := rfl
@[simp] theorem setClock_sched (on : Bool) : (s.setClock on).sched = s.sched := rfl
@[simp] theorem setClock_allocIn (on : Bool) : (s.setClock on).allocIn = s.allocIn := rfl
@[simp] theorem setClock_mapIn (on : Bool) : (s.setClock on).mapIn = s.mapIn := rfl
@[simp] theorem setClock_asked (on : Bool) : (s.setClock on).asked = s.asked := rfl
@[simp] theorem setClock_chan (on : Bool) (j : Nat) : (s.setClock on).chan j = s.chan j := rfl
@[simp] theorem setClock_nch (on : Bool) : (s.setClock on).nch = s.nch := rfl
@[simp] theorem setClock_blk (on : Bool) (h : Word) : (s.setClock on).blk h = s.blk h := rfl

/-! ### `emit` -/

@[simp] theorem emit_cfg (r : Response) : (s.emit r).cfg = s.cfg := rfl
@[simp] theorem emit_chans (r : Response) : (s.emit r).chans = s.chans := rfl
@[simp] theorem emit_clkEn (r : Response) : (s.emit r).clkEn = s.clkEn := rfl
@[simp] theorem emit_irqMask (r : Response) : (s.emit r).irqMask = s.irqMask := rfl
@[simp] theorem emit_rq (r : Response) : (s.emit r).rq = s.rq := rfl
@[simp] theorem emit_seq (r : Response) : (s.emit r).seq = s.seq := rfl
@[simp] theorem emit_resp (r : Response) : (s.emit r).resp = s.resp ++ [r] := rfl
@[simp] theorem emit_ctl (r : Response) : (s.emit r).ctl = s.ctl := rfl
@[simp] theorem emit_fault (r : Response) : (s.emit r).fault = s.fault := rfl
@[simp] theorem emit_blocks (r : Response) : (s.emit r).blocks = s.blocks := rfl
@[simp] theorem emit_lost (r : Response) : (s.emit r).lost = s.lost := rfl
@[simp] theorem emit_sched (r : Response) : (s.emit r).sched = s.sched := rfl
@[simp] theorem emit_allocIn (r : Response) : (s.emit r).allocIn = s.allocIn := rfl
@[simp] theorem emit_mapIn (r : Response) : (s.emit r).mapIn = s.mapIn := rfl
@[simp] theorem emit_asked (r : Response) : (s.emit r).asked = s.asked := rfl
@[simp] theorem emit_chan (r : Response) (j : Nat) : (s.emit r).chan j = s.chan j := rfl
@[simp] theorem emit_nch (r : Response) : (s.emit r).nch = s.nch := rfl
@[simp] theorem emit_blk (r : Response) (h : Word) : (s.emit r).blk h = s.blk h := rfl

/-! ### `goto` -/

@[simp] theorem goto_cfg (i : Instr) (ph : Phase) (loc : Locals) : (s.goto i ph loc).cfg = s.cfg := rfl
@[simp] theorem goto_chans (i : Instr) (ph : Phase) (loc : Locals) : (s.goto i ph loc).chans = s.chans := rfl
@[simp] theorem goto_clkEn (i : Instr) (ph : Phase) (loc : Locals) : (s.goto i ph loc).clkEn = s.clkEn := rfl
@[simp] theorem goto_irqMask (i : Instr) (ph : Phase) (loc : Locals) : (s.goto i ph loc).irqMask = s.irqMask := rfl
@[simp] theorem goto_rq (i : Instr) (ph : Phase) (loc : Locals) : (s.goto i ph loc).rq = s.rq := rfl
@[simp] theorem goto_seq (i : Instr) (ph : Phase) (loc : Locals) : (s.goto i ph loc).seq = .busy i ph loc := rfl
@[simp] theorem goto_resp (i : Instr) (ph : Phase) (loc : Locals) : (s.goto i ph loc).resp = s.resp := rfl
@[simp] theorem goto_ctl (i : Instr) (ph : Phase) (loc : Locals) : (s.goto i ph loc).ctl = s.ctl := rfl
@[simp] theorem goto_fault (i : Instr) (ph : Phase) (loc : Locals) : (s.goto i ph loc).fault = s.fault := rfl
@[simp] theorem goto_blocks (i : Instr) (ph : Phase) (loc : Locals) : (s.goto i ph loc).blocks = s.blocks := rfl
@[simp] theorem goto_lost (i : Instr) (ph : Phase) (loc : Locals) : (s.goto i ph loc).lost = s.lost := rfl
@[simp] theorem goto_sched (i : Instr) (ph : Phase) (loc : Locals) : (s.goto i ph loc).sched = s.sched := rfl
@[simp] theorem goto_allocIn (i : Instr) (ph : Phase) (loc : Locals) : (s.goto i ph loc).allocIn = s.allocIn := rfl
@[simp] theorem goto_mapIn (i : Instr) (ph : Phase) (loc : Locals) : (s.goto i ph loc).mapIn = s.mapIn := rfl
@[simp] theorem goto_asked (i : Instr) (ph : Phase) (loc : Locals) : (s.goto i ph loc).asked = s.asked := rfl
@[simp] theorem goto_chan (i : Instr) (ph : Phase) (loc : Locals) (j : Nat) : (s.goto i ph loc).chan j = s.chan j := rfl
@[simp] theorem goto_nch (i : Instr) (ph : Phase) (loc : Locals) : (s.goto i ph loc).nch = s.nch := rfl
@[simp] theorem goto_blk (i : Instr) (ph : Phase) (loc : Locals) (h : Word) : (s.goto i ph loc).blk h = s.blk h := rfl

/-! ### `enter` -/

@[simp] theorem enter_cfg (i : Instr) (ph : Phase) : (s.enter i ph).cfg = s.cfg := rfl
@[simp] theorem enter_chans (i : Instr) (ph : Phase) : (s.enter i ph).chans = s.chans := rfl
@[simp] theorem enter_clkEn (i : Instr) (ph : Phase) : (s.enter i ph).clkEn = s.clkEn := rfl
@[simp] theorem enter_irqMask (i : Instr) (ph : Phase) : (s.enter i ph).irqMask = s.irqMask := rfl
@[simp] theorem enter_rq (i : Instr) (ph : Phase) : (s.enter i ph).rq = s.rq := rfl
@[simp] theorem enter_seq (i : Instr) (ph : Phase) : (s.enter i ph).seq = .busy i ph {} := rfl
@[simp] theorem enter_resp (i : Instr) (ph : Phase) : (s.enter i ph).resp = s.resp := rfl
@[simp] theorem enter_ctl (i : Instr) (ph : Phase) : (s.enter i ph).ctl = s.ctl := rfl
@[simp] theorem enter_fault (i : Instr) (ph : Phase) : (s.enter i ph).fault = s.fault := rfl
@[simp] theorem enter_blocks (i : Instr) (ph : Phase) : (s.enter i ph).blocks = s.blocks := rfl
@[simp] theorem enter_lost (i : Instr) (ph : Phase) : (s.enter i ph).lost = s.lost := rfl
@[simp] theorem enter_sched (i : Instr) (ph : Phase) : (s.enter i ph).sched = s.sched := rfl
@[simp] theorem enter_allocIn (i : Instr) (ph : Phase) : (s.enter i ph).allocIn = s.allocIn := rfl
@[simp] theorem enter_mapIn (i : Instr) (ph : Phase) : (s.enter i ph).mapIn = s.mapIn := rfl
@[simp] theorem enter_asked (i : Instr) (ph : Phase) : (s.enter i ph).asked = s.asked := rfl
@[simp] theorem enter_chan (i : Instr) (ph : Phase) (j : Nat) : (s.enter i ph).chan j = s.chan j := rfl
@[simp] theorem enter_nch (i : Instr) (ph : Phase) : (s.enter i ph).nch = s.nch := rfl
@[simp] theorem enter_blk (i : Instr) (ph : Phase) (h : Word) : (s.enter i ph).blk h = s.blk h := rfl

/-! ### `raiseFail` -/

@[simp] theorem raiseFail_cfg (i : Instr) (st : Status) : (s.raiseFail i st).cfg = s.cfg := rfl
@[simp] theorem raiseFail_chans (i : Instr) (st : Status) : (s.raiseFail i st).chans = s.chans := rfl
@[simp] theorem raiseFail_clkEn (i : Instr) (st : Status) : (s.raiseFail i st).clkEn = s.clkEn := rfl
@[simp] theorem raiseFail_irqMask (i : Instr) (st : Status) : (s.raiseFail i st).irqMask = s.irqMask := rfl
@[simp] theorem raiseFail_rq (i : Instr) (st : Status) : (s.raiseFail i st).rq = s.rq := rfl
@[simp] theorem raiseFail_seq (i : Instr) (st : Status) : (s.raiseFail i st).seq = .idle := rfl
@[simp] theorem raiseFail_resp (i : Instr) (st : Status) : (s.raiseFail i st).resp = s.resp ++ [.cmdAck i.sender i.chIdx i.opcode st (failBlock i)] := rfl
@[simp] theorem raiseFail_ctl (i : Instr) (st : Status) : (s.raiseFail i st).ctl = s.ctl := rfl
@[simp] theorem raiseFail_fault (i : Instr) (st : Status) : (s.raiseFail i st).fault = s.fault := rfl
@[simp] theorem raiseFail_blocks (i : Instr) (st : Status) : (s.raiseFail i st).blocks = s.blocks := rfl
@[simp] theorem raiseFail_lost (i : Instr) (st : Status) : (s.raiseFail i st).lost = s.lost := rfl
@[simp] theorem raiseFail_sched (i : Instr) (st : Status) : (s.raiseFail i st).sched = s.sched := rfl
@[simp] theorem raiseFail_allocIn (i : Instr) (st : Status) : (s.raiseFail i st).allocIn = s.allocIn := rfl
@[simp] theorem raiseFail_mapIn (i : Instr) (st : Status) : (s.raiseFail i st).mapIn = s.mapIn := rfl
@[simp] theorem raiseFail_asked (i : Instr) (st : Status) : (s.raiseFail i st).asked = s.asked := rfl
@[simp] theorem raiseFail_chan (i : Instr) (st : Status) (j : Nat) : (s.raiseFail i st).chan j = s.chan j := rfl
@[simp] theorem raiseFail_nch (i : Instr) (st : Status) : (s.raiseFail i st).nch = s.nch := rfl
@[simp] theorem raiseFail_blk (i : Instr) (st : Status) (h : Word) : (s.raiseFail i st).blk h = s.blk h := rfl

/-! ### `finishOk` -/

@[simp] theorem finishOk_cfg (i : Instr) : (s.finishOk i).cfg = s.cfg := rfl
@[simp] theorem finishOk_chans (i : Instr) : (s.finishOk i).chans = s.chans := rfl
@[simp] theorem finishOk_clkEn (i : Instr) : (s.finishOk i).clkEn = s.clkEn := rfl
@[simp] theorem finishOk_irqMask (i : Instr) : (s.finishOk i).irqMask = s.irqMask := rfl
@[simp] theorem finishOk_rq (i : Instr) : (s.finishOk i).rq = s.rq := rfl
@[simp] theorem finishOk_seq (i : Instr) : (s.finishOk i).seq = .idle := rfl
@[simp] theorem finishOk_resp (i : Instr) : (s.finishOk i).resp = s.resp ++ [.cmdAck i.sender i.chIdx i.opcode .ok 0] := rfl
@[simp] theorem finishOk_ctl (i : Instr) : (s.finishOk i).ctl = s.ctl := rfl
@[simp] theorem finishOk_fault (i : Instr) : (s.finishOk i).fault = s.fault := rfl
@[simp] theorem finishOk_blocks (i : Instr) : (s.finishOk i).blocks = s.blocks := rfl
@[simp] theorem finishOk_lost (i : Instr) : (s.finishOk i).lost = s.lost := rfl
@[simp] theorem finishOk_sched (i : Instr) : (s.finishOk i).sched = s.sched := rfl
@[simp] theorem finishOk_allocIn (i : Instr) : (s.finishOk i).allocIn = s.allocIn := rfl
@[simp] theorem finishOk_mapIn (i : Instr) : (s.finishOk i).mapIn = s.mapIn := rfl
@[simp] theorem finishOk_asked (i : Instr) : (s.finishOk i).asked = s.asked := rfl
@[simp] theorem finishOk_chan (i : Instr) (j : Nat) : (s.finishOk i).chan j = s.chan j := rfl
@[simp] theorem finishOk_nch (i : Instr) : (s.finishOk i).nch = s.nch := rfl
@[simp] theorem finishOk_blk (i : Instr) (h : Word) : (s.finishOk i).blk h = s.blk h := rfl

/-! ### `raiseFault` -/

@[simp] theorem raiseFault_cfg (r : Fault) : (s.raiseFault r).cfg = s.cfg := rfl
@[simp] theorem raiseFault_chans (r : Fault) : (s.raiseFault r).chans = s.chans := rfl
@[simp] theorem raiseFault_clkEn (r : Fault) : (s.raiseFault r).clkEn = s.clkEn := rfl
@[simp] theorem raiseFault_irqMask (r : Fault) : (s.raiseFault r).irqMask = s.irqMask := rfl
@[simp] theorem raiseFault_rq (r : Fault) : (s.raiseFault r).rq = s.rq := rfl
@[simp] theorem raiseFault_seq (r : Fault) : (s.raiseFault r).seq = s.seq := rfl
@[simp] theorem raiseFault_resp (r : Fault) : (s.raiseFault r).resp = s.resp := rfl
@[simp] theorem raiseFault_ctl (r : Fault) : (s.raiseFault r).ctl = s.ctl := rfl
@[simp] theorem raiseFault_fault (r : Fault) : (s.raiseFault r).fault = some r := rfl
@[simp] theorem raiseFault_blocks (r : Fault) : (s.raiseFault r).blocks = s.blocks := rfl
@[simp] theorem raiseFault_lost (r : Fault) : (s.raiseFault r).lost = s.lost := rfl
@[simp] theorem raiseFault_sched (r : Fault) : (s.raiseFault r).sched = s.sched := rfl
@[simp] theorem raiseFault_allocIn (r : Fault) : (s.raiseFault r).allocIn = s.allocIn := rfl
@[simp] theorem raiseFault_mapIn (r : Fault) : (s.raiseFault r).mapIn = s.mapIn := rfl
@[simp] theorem raiseFault_asked (r : Fault) : (s.raiseFault r).asked = s.asked := rfl
@[simp] theorem raiseFault_chan (r : Fault) (j : Nat) : (s.raiseFault r).chan j = s.chan j := rfl
@[simp] theorem raiseFault_nch (r : Fault) : (s.raiseFault r).nch = s.nch := rfl
@[simp] theorem raiseFault_blk (r : Fault) (h : Word) : (s.raiseFault r).blk h = s.blk h := rfl

/-! ### `logCall` -/

@[simp] theorem logCall_cfg (t : TimerCall) : (s.logCall t).cfg = s.cfg := rfl
@[simp] theorem logCall_chans (t : TimerCall) : (s.logCall t).chans = s.chans := rfl
@[simp] theorem logCall_clkEn (t : TimerCall) : (s.logCall t).clkEn = s.clkEn := rfl
@[simp] theorem logCall_irqMask (t : TimerCall) : (s.logCall t).irqMask = s.irqMask := rfl
@[simp] theorem logCall_rq (t : TimerCall) : (s.logCall t).rq = s.rq := rfl
@[simp] theorem logCall_seq (t : TimerCall) : (s.logCall t).seq = s.seq := rfl
@[simp] theorem logCall_resp (t : TimerCall) : (s.logCall t).resp = s.resp := rfl
@[simp] theorem logCall_ctl (t : TimerCall) : (s.logCall t).ctl = s.ctl ++ [t] := rfl
@[simp] theorem logCall_fault (t : TimerCall) : (s.logCall t).fault = s.fault := rfl
@[simp] theorem logCall_blocks (t : TimerCall) : (s.logCall t).blocks = s.blocks := rfl
@[simp] theorem logCall_lost (t : TimerCall) : (s.logCall t).lost = s.lost := rfl
@[simp] theorem logCall_sched (t : TimerCall) : (s.logCall t).sched = s.sched := rfl
@[simp] theorem logCall_allocIn (t : TimerCall) : (s.logCall t).allocIn = s.allocIn := rfl
@[simp] theorem logCall_mapIn (t : TimerCall) : (s.logCall t).mapIn = s.mapIn := rfl
@[simp] theorem logCall_asked (t : TimerCall) : (s.logCall t).asked = s.asked := rfl
@[simp] theorem logCall_chan (t : TimerCall) (j : Nat) : (s.logCall t).chan j = s.chan j := rfl
@[simp] theorem logCall_nch (t : TimerCall) : (s.logCall t).nch = s.nch := rfl
@[simp] theorem logCall_blk (t : TimerCall) (h : Word) : (s.logCall t).blk h = s.blk h := rfl

/-! ### `timerStop` -/

@[simp] theorem timerStop_cfg (ch : Nat) : (s.timerStop ch).cfg = s.cfg := rfl
@[simp] theorem timerStop_clkEn (ch : Nat) : (s.timerStop ch).clkEn = s.clkEn := rfl
@[simp] theorem timerStop_irqMask (ch : Nat) : (s.timerStop ch).irqMask = s.irqMask := rfl
@[simp] theorem timerStop_rq (ch : Nat) : (s.timerStop ch).rq = s.rq := rfl
@[simp] theorem timerStop_seq (ch : Nat) : (s.timerStop ch).seq = s.seq := rfl
@[simp] theorem timerStop_resp (ch : Nat) : (s.timerStop ch).resp = s.resp := rfl
@[simp] theorem timerStop_ctl (ch : Nat) : (s.timerStop ch).ctl = s.ctl ++ [.stop ch] := rfl
@[simp] theorem timerStop_fault (ch : Nat) : (s.timerStop ch).fault = s.fault := rfl
@[simp] theorem timerStop_blocks (ch : Nat) : (s.timerStop ch).blocks = s.blocks := rfl
@[simp] theorem timerStop_lost (ch : Nat) : (s.timerStop ch).lost = s.lost := rfl
@[simp] theorem timerStop_sched (ch : Nat) : (s.timerStop ch).sched = s.sched := rfl
@[simp] theorem timerStop_allocIn (ch : Nat) : (s.timerStop ch).allocIn = s.allocIn := rfl
@[simp] theorem timerStop_mapIn (ch : Nat) : (s.timerStop ch).mapIn = s.mapIn := rfl
@[simp] theorem timerStop_asked (ch : Nat) : (s.timerStop ch).asked = s.asked := rfl
@[simp] theorem timerStop_blk (ch : Nat) (h : Word) : (s.timerStop ch).blk h = s.blk h := rfl

/-! ### `dacWrite` -/

@[simp] theorem dacWrite_cfg (ch : Nat) (v : Sample) : (s.dacWrite ch v).cfg = s.cfg := rfl
@[simp] theorem dacWrite_clkEn (ch : Nat) (v : Sample) : (s.dacWrite ch v).clkEn = s.clkEn := rfl
@[simp] theorem dacWrite_irqMask (ch : Nat) (v : Sample) : (s.dacWrite ch v).irqMask = s.irqMask := rfl
@[simp] theorem dacWrite_rq (ch : Nat) (v : Sample) : (s.dacWrite ch v).rq = s.rq := rfl
@[simp] theorem dacWrite_seq (ch : Nat) (v : Sample) : (s.dacWrite ch v).seq = s.seq := rfl
@[simp] theorem dacWrite_resp (ch : Nat) (v : Sample) : (s.dacWrite ch v).resp = s.resp := rfl
@[simp] theorem dacWrite_ctl (ch : Nat) (v : Sample) : (s.dacWrite ch v).ctl = s.ctl := rfl
@[simp] theorem dacWrite_fault (ch : Nat) (v : Sample) : (s.dacWrite ch v).fault = s.fault := rfl
@[simp] theorem dacWrite_blocks (ch : Nat) (v : Sample) : (s.dacWrite ch v).blocks = s.blocks := rfl
@[simp] theorem dacWrite_lost (ch : Nat) (v : Sample) : (s.dacWrite ch v).lost = s.lost := rfl
@[simp] theorem dacWrite_sched (ch : Nat) (v : Sample) : (s.dacWrite ch v).sched = s.sched := rfl
@[simp] theorem dacWrite_allocIn (ch : Nat) (v : Sample) : (s.dacWrite ch v).allocIn = s.allocIn := rfl
@[simp] theorem dacWrite_mapIn (ch : Nat) (v : Sample) : (s.dacWrite ch v).mapIn = s.mapIn := rfl
@[simp] theorem dacWrite_asked (ch : Nat) (v : Sample) : (s.dacWrite ch v).asked = s.asked := rfl
@[simp] theorem dacWrite_blk (ch : Nat) (v : Sample) (h : Word) : (s.dacWrite ch v).blk h = s.blk h := rfl

/-! ### `noteLost` -/

@[simp] theorem noteLost_cfg (ch : Nat) : (s.noteLost ch).cfg = s.cfg := rfl
@[simp] theorem noteLost_chans (ch : Nat) : (s.noteLost ch).chans = s.chans := rfl
@[simp] theorem noteLost_clkEn (ch : Nat) : (s.noteLost ch).clkEn = s.clkEn := rfl
@[simp] theorem noteLost_irqMask (ch : Nat) : (s.noteLost ch).irqMask = s.irqMask := rfl
@[simp] theorem noteLost_rq (ch : Nat) : (s.noteLost ch).rq = s.rq := rfl
@[simp] theorem noteLost_seq (ch : Nat) : (s.noteLost ch).seq = s.seq := rfl
@[simp] theorem noteLost_resp (ch : Nat) : (s.noteLost ch).resp = s.resp := rfl
@[simp] theorem noteLost_ctl (ch : Nat) : (s.noteLost ch).ctl = s.ctl := rfl
@[simp] theorem noteLost_fault (ch : Nat) : (s.noteLost ch).fault = s.fault := rfl
@[simp] theorem noteLost_blocks (ch : Nat) : (s.noteLost ch).blocks = s.blocks := rfl
@[simp] theorem noteLost_lost (ch : Nat) : (s.noteLost ch).lost = s.lost ++ (s.chan ch).block.toList := rfl
@[simp] theorem noteLost_sched (ch : Nat) : (s.noteLost ch).sched = s.sched := rfl
@[simp] theorem noteLost_allocIn (ch : Nat) : (s.noteLost ch).allocIn = s.allocIn := rfl
@[simp] theorem noteLost_mapIn (ch : Nat) : (s.noteLost ch).mapIn = s.mapIn := rfl
@[simp] theorem noteLost_asked (ch : Nat) : (s.noteLost ch).asked = s.asked := rfl
@[simp] theorem noteLost_chan (ch : Nat) (j : Nat) : (s.noteLost ch).chan j = s.chan j := rfl
@[simp] theorem noteLost_nch (ch : Nat) : (s.noteLost ch).nch = s.nch := rfl
@[simp] theorem noteLost_blk (ch : Nat) (h : Word) : (s.noteLost ch).blk h = s.blk h := rfl

/-! ### `send` -/

@[simp] theorem send_cfg (r : Request) : (s.send r).cfg = s.cfg := rfl
@[simp] theorem send_chans (r : Request) : (s.send r).chans = s.chans := rfl
@[simp] theorem send_clkEn (r : Request) : (s.send r).clkEn = s.clkEn := rfl
@[simp] theorem send_irqMask (r : Request) : (s.send r).irqMask = s.irqMask := rfl
@[simp] theorem send_rq (r : Request) : (s.send r).rq = s.rq ++ [r] := rfl
@[simp] theorem send_seq (r : Request) : (s.send r).seq = s.seq := rfl
@[simp] theorem send_resp (r : Request) : (s.send r).resp = s.resp := rfl
@[simp] theorem send_ctl (r : Request) : (s.send r).ctl = s.ctl := rfl
@[simp] theorem send_fault (r : Request) : (s.send r).fault = s.fault := rfl
@[simp] theorem send_blocks (r : Request) : (s.send r).blocks = s.blocks := rfl
@[simp] theorem send_lost (r : Request) : (s.send r).lost = s.lost := rfl
@[simp] theorem send_sched (r : Request) : (s.send r).sched = s.sched := rfl
@[simp] theorem send_allocIn (r : Request) : (s.send r).allocIn = s.allocIn := rfl
@[simp] theorem send_mapIn (r : Request) : (s.send r).mapIn = s.mapIn := rfl
@[simp] theorem send_asked (r : Request) : (s.send r).asked = s.asked := rfl
@[simp] theorem send_chan (r : Request) (j : Nat) : (s.send r).chan j = s.chan j := rfl
@[simp] theorem send_nch (r : Request) : (s.send r).nch = s.nch := rfl
@[simp] theorem send_blk (r : Request) (h : Word) : (s.send r).blk h = s.blk h := rfl

/-! ### `fifoCopy` -/

@[simp] theorem fifoCopy_cfg (ch dst n : Nat) : (s.fifoCopy ch dst n).cfg = s.cfg := by
  unfold State.fifoCopy; split <;> rfl
@[simp] theorem fifoCopy_clkEn (ch dst n : Nat) : (s.fifoCopy ch dst n).clkEn = s.clkEn := by
  unfold State.fifoCopy; split <;> rfl
@[simp] theorem fifoCopy_irqMask (ch dst n : Nat) : (s.fifoCopy ch dst n).irqMask = s.irqMask := by
  unfold State.fifoCopy; split <;> rfl
@[simp] theorem fifoCopy_rq (ch dst n : Nat) : (s.fifoCopy ch dst n).rq = s.rq := by
  unfold State.fifoCopy; split <;> rfl
@[simp] theorem fifoCopy_seq (ch dst n : Nat) : (s.fifoCopy ch dst n).seq = s.seq := by
  unfold State.fifoCopy; split <;> rfl
@[simp] theorem fifoCopy_resp (ch dst n : Nat) : (s.fifoCopy ch dst n).resp = s.resp := by
  unfold State.fifoCopy; split <;> rfl
@[simp] theorem fifoCopy_ctl (ch dst n : Nat) : (s.fifoCopy ch dst n).ctl = s.ctl := by
  unfold State.fifoCopy; split <;> rfl
@[simp] theorem fifoCopy_blocks (ch dst n : Nat) : (s.fifoCopy ch dst n).blocks = s.blocks := by
  unfold State.fifoCopy; split <;> rfl
@[simp] theorem fifoCopy_lost (ch dst n : Nat) : (s.fifoCopy ch dst n).lost = s.lost := by
  unfold State.fifoCopy; split <;> rfl
@[simp] theorem fifoCopy_sched (ch dst n : Nat) : (s.fifoCopy ch dst n).sched = s.sched := by
  unfold State.fifoCopy; split <;> rfl
@[simp] theorem fifoCopy_allocIn (ch dst n : Nat) : (s.fifoCopy ch dst n).allocIn = s.allocIn := by
  unfold State.fifoCopy; split <;> rfl
@[simp] theorem fifoCopy_mapIn (ch dst n : Nat) : (s.fifoCopy ch dst n).mapIn = s.mapIn := by
  unfold State.fifoCopy; split <;> rfl
@[simp] theorem fifoCopy_asked (ch dst n : Nat) : (s.fifoCopy ch dst n).asked = s.asked := by
  unfold State.fifoCopy; split <;> rfl
@[simp] theorem fifoCopy_blk (ch dst n : Nat) (h' : Word) : (s.fifoCopy ch dst n).blk h' = s.blk h' := by
  unfold State.fifoCopy; split <;> rfl

/-! ### `timerStart` -/

@[simp] theorem timerStart_cfg (ch rate : Nat) : (s.timerStart ch rate).cfg = s.cfg := by
  unfold State.timerStart; split <;> rfl
@[simp] theorem timerStart_clkEn (ch rate : Nat) : (s.timerStart ch rate).clkEn = s.clkEn := by
  unfold State.timerStart; split <;> rfl
@[simp] theorem timerStart_irqMask (ch rate : Nat) : (s.timerStart ch rate).irqMask = s.irqMask := by
  unfold State.timerStart; split <;> rfl
@[simp] theorem timerStart_rq (ch rate : Nat) : (s.timerStart ch rate).rq = s.rq := by
  unfold State.timerStart; split <;> rfl
@[simp] theorem timerStart_seq (ch rate : Nat) : (s.timerStart ch rate).seq = s.seq := by
  unfold State.timerStart; split <;> rfl
@[simp] theorem timerStart_resp (ch rate : Nat) : (s.timerStart ch rate).resp = s.resp := by
  unfold State.timerStart; split <;> rfl
@[simp] theorem timerStart_blocks (ch rate : Nat) : (s.timerStart ch rate).blocks = s.blocks := by
  unfold State.timerStart; split <;> rfl
@[simp] theorem timerStart_lost (ch rate : Nat) : (s.timerStart ch rate).lost = s.lost := by
  unfold State.timerStart; split <;> rfl
@[simp] theorem timerStart_sched (ch rate : Nat) : (s.timerStart ch rate).sched = s.sched := by
  unfold State.timerStart; split <;> rfl
@[simp] theorem timerStart_allocIn (ch rate : Nat) : (s.timerStart ch rate).allocIn = s.allocIn := by
  unfold State.timerStart; split <;> rfl
@[simp] theorem timerStart_mapIn (ch rate : Nat) : (s.timerStart ch rate).mapIn = s.mapIn := by
  unfold State.timerStart; split <;> rfl
@[simp] theorem timerStart_asked (ch rate : Nat) : (s.timerStart ch rate).asked = s.asked := by
  unfold State.timerStart; split <;> rfl
@[simp] theorem timerStart_blk (ch rate : Nat) (h' : Word) : (s.timerStart ch rate).blk h' = s.blk h' := by
  unfold State.timerStart; split <;> rfl

/-! ### `allocAsked` -/

@[simp] theorem allocAsked_cfg  : (s.allocAsked ).cfg = s.cfg := by
  unfold State.allocAsked; split <;> rfl
@[simp] theorem allocAsked_chans  : (s.allocAsked ).chans = s.chans := by
  unfold State.allocAsked; split <;> rfl
@[simp] theorem allocAsked_clkEn  : (s.allocAsked ).clkEn = s.clkEn := by
  unfold State.allocAsked; split <;> rfl
@[simp] theorem allocAsked_irqMask  : (s.allocAsked ).irqMask = s.irqMask := by
  unfold State.allocAsked; split <;> rfl
@[simp] theorem allocAsked_rq  : (s.allocAsked ).rq = s.rq := by
  unfold State.allocAsked; split <;> rfl
@[simp] theorem allocAsked_seq  : (s.allocAsked ).seq = s.seq := by
  unfold State.allocAsked; split <;> rfl
@[simp] theorem allocAsked_resp  : (s.allocAsked ).resp = s.resp := by
  unfold State.allocAsked; split <;> rfl
@[simp] theorem allocAsked_ctl  : (s.allocAsked ).ctl = s.ctl := by
  unfold State.allocAsked; split <;> rfl
@[simp] theorem allocAsked_fault  : (s.allocAsked ).fault = s.fault := by
  unfold State.allocAsked; split <;> rfl
@[simp] theorem allocAsked_blocks  : (s.allocAsked ).blocks = s.blocks := by
  unfold State.allocAsked; split <;> rfl
@[simp] theorem allocAsked_lost  : (s.allocAsked ).lost = s.lost := by
  unfold State.allocAsked; split <;> rfl
@[simp] theorem allocAsked_sched  : (s.allocAsked ).sched = s.sched := by
  unfold State.allocAsked; split <;> rfl
@[simp] theorem allocAsked_mapIn  : (s.allocAsked ).mapIn = s.mapIn := by
  unfold State.allocAsked; split <;> rfl
@[simp] theorem allocAsked_chan  (j : Nat) : (s.allocAsked ).chan j = s.chan j := by
  unfold State.allocAsked; split <;> rfl
@[simp] theorem allocAsked_nch  : (s.allocAsked ).nch = s.nch := by
  unfold State.allocAsked; split <;> rfl
@[simp] theorem allocAsked_blk  (h' : Word) : (s.allocAsked ).blk h' = s.blk h' := by
  unfold State.allocAsked; split <;> rfl

/-! ### `mapAsked` -/

@[simp] theorem mapAsked_cfg  : (s.mapAsked ).cfg = s.cfg := by
  unfold State.mapAsked; split <;> rfl
@[simp] theorem mapAsked_chans  : (s.mapAsked ).chans = s.chans := by
  unfold State.mapAsked; split <;> rfl
@[simp] theorem mapAsked_clkEn  : (s.mapAsked ).clkEn = s.clkEn := by
  unfold State.mapAsked; split <;> rfl
@[simp] theorem mapAsked_irqMask  : (s.mapAsked ).irqMask = s.irqMask := by
  unfold State.mapAsked; split <;> rfl
@[simp] theorem mapAsked_rq  : (s.mapAsked ).rq = s.rq := by
  unfold State.mapAsked; split <;> rfl
@[simp] theorem mapAsked_seq  : (s.mapAsked ).seq = s.seq := by
  unfold State.mapAsked; split <;> rfl
@[simp] theorem mapAsked_resp  : (s.mapAsked ).resp = s.resp := by
  unfold State.mapAsked; split <;> rfl
@[simp] theorem mapAsked_ctl  : (s.mapAsked ).ctl = s.ctl := by
  unfold State.mapAsked; split <;> rfl
@[simp] theorem mapAsked_fault  : (s.mapAsked ).fault = s.fault := by
  unfold State.mapAsked; split <;> rfl
@[simp] theorem mapAsked_blocks  : (s.mapAsked ).blocks = s.blocks := by
  unfold State.mapAsked; split <;> rfl
@[simp] theorem mapAsked_lost  : (s.mapAsked ).lost = s.lost := by
  unfold State.mapAsked; split <;> rfl
@[simp] theorem mapAsked_sched  : (s.mapAsked ).sched = s.sched := by
  unfold State.mapAsked; split <;> rfl
@[simp] theorem mapAsked_allocIn  : (s.mapAsked ).allocIn = s.allocIn := by
  unfold State.mapAsked; split <;> rfl
@[simp] theorem mapAsked_chan  (j : Nat) : (s.mapAsked ).chan j = s.chan j := by
  unfold State.mapAsked; split <;> rfl
@[simp] theorem mapAsked_nch  : (s.mapAsked ).nch = s.nch := by
  unfold State.mapAsked; split <;> rfl
@[simp] theorem mapAsked_blk  (h' : Word) : (s.mapAsked ).blk h' = s.blk h' := by
  unfold State.mapAsked; split <;> rfl

/-! ### `supply` -/

@[simp] theorem supply_cfg (h : Word) (bytes : List Byte) : (s.supply h bytes).cfg = s.cfg := by
  unfold State.supply; split <;> rfl
@[simp] theorem supply_chans (h : Word) (bytes : List Byte) : (s.supply h bytes).chans = s.chans := by
  unfold State.supply; split <;> rfl
@[simp] theorem supply_clkEn (h : Word) (bytes : List Byte) : (s.supply h bytes).clkEn = s.clkEn := by
  unfold State.supply; split <;> rfl
@[simp] theorem supply_irqMask (h : Word) (bytes : List Byte) : (s.supply h bytes).irqMask = s.irqMask := by
  unfold State.supply; split <;> rfl
@[simp] theorem supply_rq (h : Word) (bytes : List Byte) : (s.supply h bytes).rq = s.rq := by
  unfold State.supply; split <;> rfl
@[simp] theorem supply_seq (h : Word) (bytes : List Byte) : (s.supply h bytes).seq = s.seq := by
  unfold State.supply; split <;> rfl
@[simp] theorem supply_resp (h : Word) (bytes : List Byte) : (s.supply h bytes).resp = s.resp := by
  unfold State.supply; split <;> rfl
@[simp] theorem supply_ctl (h : Word) (bytes : List Byte) : (s.supply h bytes).ctl = s.ctl := by
  unfold State.supply; split <;> rfl
@[simp] theorem supply_fault (h : Word) (bytes : List Byte) : (s.supply h bytes).fault = s.fault := by
  unfold State.supply; split <;> rfl
@[simp] theorem supply_lost (h : Word) (bytes : List Byte) : (s.supply h bytes).lost = s.lost := by
  unfold State.supply; split <;> rfl
@[simp] theorem supply_sched (h : Word) (bytes : List Byte) : (s.supply h bytes).sched = s.sched := by
  unfold State.supply; split <;> rfl
@[simp] theorem supply_allocIn (h : Word) (bytes : List Byte) : (s.supply h bytes).allocIn = s.allocIn := by
  unfold State.supply; split <;> rfl
@[simp] theorem supply_mapIn (h : Word) (bytes : List Byte) : (s.supply h bytes).mapIn = s.mapIn := by
  unfold State.supply; split <;> rfl
@[simp] theorem supply_asked (h : Word) (bytes : List Byte) : (s.supply h bytes).asked = s.asked := by
  unfold State.supply; split <;> rfl
@[simp] theorem supply_chan (h : Word) (bytes : List Byte) (j : Nat) : (s.supply h bytes).chan j = s.chan j := by
  unfold State.supply; split <;> rfl
@[simp] theorem supply_nch (h : Word) (bytes : List Byte) : (s.supply h bytes).nch = s.nch := by
  unfold State.supply; split <;> rfl

end Sys2Proof.Machine
end

