-- ==== Sys2Proof/Laws/Ops.lean ====
section
/-! SUPPORT. The shared operations, each with the one lemma that says what it does to a channel record, and the inversion of
a step: what a step that answers a next state can have done. -/

namespace Sys2Proof.Machine

variable {s t : State}

/-! ### Channel records -/

@[simp] theorem modChan_nch (s : State) (ch : Nat) (f : Channel → Channel) : (s.modChan ch f).nch = s.nch := by
  simp [State.nch]

theorem modChan_chan_self {ch : Nat} (h : ch < s.nch) (f : Channel → Channel) :
    (s.modChan ch f).chan ch = f (s.chan ch) := by
  unfold State.nch at h
  simp [State.chan, State.modChan, h]

theorem modChan_chan_ne {ch j : Nat} (h : j ≠ ch) (f : Channel → Channel) : (s.modChan ch f).chan j = s.chan j := by
  simp [State.chan, State.modChan, List.getElem?_set_ne (Ne.symm h)]

/-- The record of any channel after an update of one. -/
theorem modChan_chan (s : State) (ch j : Nat) (f : Channel → Channel) :
    (s.modChan ch f).chan j = if j = ch ∧ ch < s.nch then f (s.chan ch) else s.chan j := by
  by_cases hj : j = ch
  · subst hj
    by_cases h : j < s.nch
    · simp [modChan_chan_self h, h]
    · simp only [h, and_false, if_false]
      unfold State.nch at h
      simp [State.chan, State.modChan, List.set_eq_of_length_le (Nat.le_of_not_lt h)]
  · simp [modChan_chan_ne hj, hj]

/-- Two updates of one channel are one. -/
theorem modChan_modChan {ch : Nat} (h : ch < s.nch) (f g : Channel → Channel) :
    (s.modChan ch f).modChan ch g = s.modChan ch fun c => g (f c) := by
  have hc := modChan_chan_self h f
  unfold State.modChan at hc ⊢
  rw [hc]
  simp

@[simp] theorem timerStop_nch (s : State) (ch : Nat) : (s.timerStop ch).nch = s.nch := by simp [State.timerStop]
@[simp] theorem dacWrite_nch (s : State) (ch : Nat) (v : Sample) : (s.dacWrite ch v).nch = s.nch := by
  simp [State.dacWrite]
@[simp] theorem fifoCopy_nch (s : State) (ch dst n : Nat) : (s.fifoCopy ch dst n).nch = s.nch := by
  unfold State.fifoCopy; split <;> simp
@[simp] theorem timerStart_nch (s : State) (ch r : Nat) : (s.timerStart ch r).nch = s.nch := by
  unfold State.timerStart; split <;> simp

/-! ### The copy primitive -/

/-- A copy either overreads, which records the fault and changes nothing else, or is one update of the channel (R78, R79). -/
theorem fifoCopy_cases (s : State) (ch dst n : Nat) :
    (s.overreads ch n = true ∧ s.fifoCopy ch dst n = s.raiseFault (.sourceOverread ch))
    ∨ (s.overreads ch n = false
      ∧ s.fifoCopy ch dst n = s.modChan ch (copyInto s.cfg (s.source ch) dst n)) := by
  unfold State.fifoCopy
  cases h : s.overreads ch n <;> simp

/-- The bytes after a copy: the block's from the cursor in the written range, the old ones elsewhere (R78). -/
theorem copyInto_read {c : Channel} (hc : Memory.wf c.fifo) (cfg : Config) (b : Block) (dst n o : Nat) :
    Memory.read (copyInto cfg b dst n c).fifo o
      = if dst ≤ o ∧ o < dst + n then Memory.read b.bytes (c.ptr.off + (o - dst)) else Memory.read c.fifo o := by
  simp only [copyInto, read_writeBytes hc, readBytes_length]
  by_cases ho : dst ≤ o ∧ o < dst + n
  · rw [if_pos ho, if_pos ho]
    have : o - dst < n := by omega
    simp [Memory.readBytes, this]
  · rw [if_neg ho, if_neg ho]

theorem copyInto_wf {c : Channel} (hc : Memory.wf c.fifo) (cfg : Config) (b : Block) (dst n : Nat) :
    Memory.wf (copyInto cfg b dst n c).fifo :=
  writeBytes_wf hc dst _

theorem unlessFault_of_none {f : State → State} (h : s.fault = none) : s.unlessFault f = f s := by
  simp [State.unlessFault, h]

theorem unlessFault_of_some {f : State → State} {r : Fault} (h : s.fault = some r) : s.unlessFault f = s := by
  simp [State.unlessFault, h]

/-! ### The teardown of CLOSE -/

/-- No other channel is active: the test of C6 as a proposition (R140). -/
theorem othersInactive_iff (s : State) (ch : Nat) :
    s.othersInactive ch = true ↔ ∀ j, j < s.nch → j ≠ ch → (s.chan j).active = false := by
  simp only [State.othersInactive, List.all_eq_true, List.mem_range, Bool.or_eq_true, beq_iff_eq, Bool.not_eq_true']
  exact forall_congr' fun j => forall_congr' fun _ => by tauto

/-- The test of C6 reads only the activity of the other channels. -/
theorem othersInactive_congr {ch : Nat} (hn : t.nch = s.nch)
    (h : ∀ j, j ≠ ch → (t.chan j).active = (s.chan j).active) : t.othersInactive ch = s.othersInactive ch := by
  rw [Bool.eq_iff_iff, othersInactive_iff, othersInactive_iff, hn]
  exact forall_congr' fun j => forall_congr' fun _ => forall_congr' fun hj => by rw [h j hj]

/-- The teardown of C6 as one update of the channel, one timer call and one clock write (R136). -/
theorem closeC6_eq {ch : Nat} (h : ch < s.nch) (i : Instr) :
    closeC6 i ch s
      = (((s.modChan ch fun c =>
          { releaseEngine s.cfg { unregisterHandler c with timerRun := false } with active := false }).logCall
            (.stop ch)).setClock (if s.othersInactive ch then false else s.clkEn)).finishOk i := by
  simp only [closeC6, State.closeClock]
  rw [othersInactive_congr (s := s) (by simp) fun j hj => by simp [State.timerStop, modChan_chan_ne hj]]
  unfold State.nch at h
  split <;> rename_i ho <;>
    simp [State.timerStop, State.logCall, State.modChan, State.setClock, State.finishOk, State.emit, State.chan, h]

/-! ### The refill handler -/

/-- The record a handler of `ch` serves in step 4: counted once (R191 to R193). -/
theorem refillCount_chan {ch : Nat} (h : ch < s.nch) : (s.refillCount ch).chan ch = countEvent (s.chan ch) :=
  modChan_chan_self h countEvent

theorem refillServe_none {ch : Nat} (hb : (s.chan ch).block = none) : s.refillServe ch = s := by
  simp [State.refillServe, hb]

theorem refillServe_copy {ch : Nat} {h : Word} (hb : (s.chan ch).block = some h) (hc : 2 ≤ (s.chan ch).cnt) :
    s.refillServe ch = s.fifoCopy ch (copyDst s.cfg (s.chan ch).half) (hbOf s.cfg) := by
  simp [State.refillServe, hb, hc]

theorem refillServe_complete {ch : Nat} {h : Word} (hb : (s.chan ch).block = some h) (hc : (s.chan ch).cnt < 2) :
    s.refillServe ch = s.refillComplete ch h := by
  simp [State.refillServe, hb, Int.not_le.mpr hc]

/-- Above the underflow threshold step 5 does nothing (R196). -/
theorem refillUnderflow_of_pos {ch : Nat} (hc : 0 < (s.chan ch).cnt) : s.refillUnderflow ch = s := by
  simp [State.refillUnderflow, Int.not_le.mpr hc]

/-! ### Waveform samples -/

theorem waveBytes_length (cfg : Config) (t a : Word) : (waveBytes cfg t a).length = fbOf cfg := by
  simp [waveBytes, List.length_flatMap, fbOf, hbOf, Nat.mul_assoc]

/-- Element `j` of part `i` of a list of parts of one length. -/
theorem flatMap_range_getElem {α : Type} (f : Nat → List α) (k : Nat) (hf : ∀ i, (f i).length = k) (n i j : Nat)
    (hi : i < n) (hj : j < k) : ((List.range n).flatMap f)[i * k + j]? = (f i)[j]? := by
  have hlen : ∀ m, ((List.range m).flatMap f).length = m * k := fun m => by
    simp [List.length_flatMap, hf]
  induction n with
  | zero => omega
  | succ n ih =>
    rw [List.range_succ, List.flatMap_append]
    by_cases h : i < n
    · rw [List.getElem?_append_left, ih h]
      rw [hlen]
      calc i * k + j < i * k + k := by omega
        _ = (i + 1) * k := by ring
        _ ≤ n * k := Nat.mul_le_mul_right _ h
    · obtain rfl : i = n := by omega
      rw [List.getElem?_append_right (by rw [hlen]; omega), hlen]
      simp [show i * k + j - i * k = j by omega]

/-- Byte `j` of sample `i` of the fill (R227). -/
theorem waveBytes_getElem (cfg : Config) (t a : Word) {i j : Nat} (hi : i < 2 * cfg.h) (hj : j < cfg.sb) :
    (waveBytes cfg t a)[i * cfg.sb + j]? = some (some (Config.genByte cfg.sb t a (2 * cfg.h) i j)) := by
  unfold waveBytes
  rw [flatMap_range_getElem _ cfg.sb (by simp) (2 * cfg.h) i j hi hj]
  simp [hj]

/-! ### The host's blocks -/

/-- The client block of any handle after a host turn outside the window of R92. -/
theorem blk_putBlock {s : State} (hs : BlocksInv s.blocks) (h k : Word) (bytes : List Byte) :
    ({ s with blocks := putBlock (Block.ofBytes h bytes) s.blocks } : State).blk k
      = if h = k then Block.ofBytes h bytes else s.blk k := by
  simp only [State.blk, find_putBlock hs.rising, ofBytes_handle, ofBytes_len]
  by_cases hk : h = k
  · subst hk
    cases bytes <;> simp [Block.absent, Block.ofBytes, Memory.writeBytes]
  · simp [hk]
/-- The window of R92 does not depend on the schedule. -/
@[simp] theorem unanswered_sched (ts : List Turn) (h : Word) :
    ({ s with sched := ts } : State).unanswered h = s.unanswered h := rfl

/-- In the window of R92 the host's turn does nothing. -/
theorem supply_of_unanswered {h : Word} (hu : s.unanswered h = true) (bytes : List Byte) : s.supply h bytes = s := by
  simp [State.supply, hu]

/-- Outside it the turn puts the block. -/
theorem supply_of_answered {h : Word} (hu : s.unanswered h = false) (bytes : List Byte) :
    s.supply h bytes = { s with blocks := putBlock (Block.ofBytes h bytes) s.blocks } := by
  simp [State.supply, hu]

/-! ### The commands' phases -/

/-- An idle sequencer enters the first phase (R241). -/
theorem exec_idle {i : Instr} (h : s.seq = .idle) : exec i s = .next (s.enter i (firstPhase i)) := by
  cases i <;> simp [exec, execOpen, execClose, execWrite, execFlush, execSetLevel, execSetWave, h, firstPhase]

/-- A phase that is none of the command's is answered like an idle sequencer (log 11). -/
theorem exec_other {i j : Instr} {ph : Phase} {loc : Locals} (h : s.seq = .busy j ph loc) (hp : ph ∉ phasesOf i) :
    exec i s = .next (s.enter i (firstPhase i)) := by
  cases i <;> cases ph <;>
    first
    | (simp [phasesOf] at hp; done)
    | simp [exec, execOpen, execClose, execWrite, execFlush, execSetLevel, execSetWave, h, firstPhase]

/-- Every command answers a next state in every state. -/
theorem exec_next (i : Instr) (s : State) : ∃ t, exec i s = .next t := by
  cases hs : s.seq with
  | idle => exact ⟨_, exec_idle hs⟩
  | busy j ph loc =>
    by_cases hp : ph ∈ phasesOf i
    · cases i <;> cases ph <;>
        first
        | (simp [phasesOf] at hp; done)
        | exact ⟨_, by simp only [exec, execOpen, execClose, execWrite, execFlush, execSetLevel, execSetWave, hs]; rfl⟩
    · exact ⟨_, exec_other hs hp⟩

/-! ### What a step can have done -/

/-- With no fault recorded a step is one turn (R262). -/
theorem step_of_running (hf : s.fault = none) : step s = turnStep s := by
  simp [step, hf]

/-- With no turn listed the sequencer has the turn (log 3). -/
theorem step_of_unscheduled (hf : s.fault = none) (hs : s.sched = []) : step s = seqTurn s := by
  simp [step, hf, turnStep, hs]

/-- The step of a busy sequencer that has the turn (R44). -/
theorem step_busy {i : Instr} {ph : Phase} {loc : Locals} (hf : s.fault = none) (hs : s.sched = [])
    (hb : s.seq = .busy i ph loc) : step s = exec i s := by
  simp [step_of_unscheduled hf hs, seqTurn, hb]

/-- The inversion of a step (R262): no fault is recorded, and for the schedule `ts` left over, the step was one of: nothing
(a turn whose agent is not enabled), a phase of the running command, `D0` for a request that decodes, `D0` for one that
does not, the handler, a tick, a send, a host block. -/
theorem step_cases (h : step s = .next t) :
    s.fault = none ∧ ∃ ts,
      (t = { s with sched := ts })
      ∨ (∃ i ph loc, s.seq = .busy i ph loc ∧ exec i { s with sched := ts } = .next t)
      ∨ (∃ r rest i, s.seq = .idle ∧ s.rq = r :: rest ∧ decode r = .ok i
          ∧ t = ({ s with sched := ts, rq := rest } : State).enter i (firstPhase i))
      ∨ (∃ r rest, s.seq = .idle ∧ s.rq = r :: rest ∧ (∃ e, decode r = .error e)
          ∧ t = ({ s with sched := ts, rq := rest } : State).unknownCommand r)
      ∨ (∃ ch, s.sched = .irq ch :: ts ∧ s.refillEnabled ch = true ∧ t = ({ s with sched := ts } : State).refill ch)
      ∨ (∃ ch, s.sched = .tick ch :: ts ∧ s.tickEnabled ch = true ∧ t = ({ s with sched := ts } : State).tick ch)
      ∨ (∃ r, s.sched = .send r :: ts ∧ t = ({ s with sched := ts } : State).send r)
      ∨ (∃ w bytes, s.sched = .supply w bytes :: ts ∧ t = ({ s with sched := ts } : State).supply w bytes) := by
  have hseq : ∀ ts, seqTurn { s with sched := ts } = .next t →
      (t = { s with sched := ts })
      ∨ (∃ i ph loc, s.seq = .busy i ph loc ∧ exec i { s with sched := ts } = .next t)
      ∨ (∃ r rest i, s.seq = .idle ∧ s.rq = r :: rest ∧ decode r = .ok i
          ∧ t = ({ s with sched := ts, rq := rest } : State).enter i (firstPhase i))
      ∨ (∃ r rest, s.seq = .idle ∧ s.rq = r :: rest ∧ (∃ e, decode r = .error e)
          ∧ t = ({ s with sched := ts, rq := rest } : State).unknownCommand r) := by
    intro ts hs
    simp only [seqTurn] at hs
    split at hs
    · rename_i i ph loc hb
      exact .inr (.inl ⟨i, ph, loc, hb, hs⟩)
    · rename_i hi
      split at hs
      · left; simpa using hs.symm
      · rename_i r rest hr
        simp only [dispatchRequest] at hs
        split at hs
        · rename_i i hd
          rw [exec_idle (by simpa using hi)] at hs
          exact .inr (.inr (.inl ⟨r, rest, i, hi, hr, hd, by simpa using hs.symm⟩))
        · rename_i e hd
          exact .inr (.inr (.inr ⟨r, rest, hi, hr, ⟨e, hd⟩, by simpa using hs.symm⟩))
  simp only [step] at h
  split at h
  · cases h
  · rename_i hf
    refine ⟨hf, ?_⟩
    simp only [turnStep] at h
    split at h
    · rename_i hsch
      refine ⟨s.sched, ?_⟩
      rcases hseq s.sched h with h | h | h | h
      exacts [.inl h, .inr (.inl h), .inr (.inr (.inl h)), .inr (.inr (.inr (.inl h)))]
    · rename_i ts hsch
      refine ⟨ts, ?_⟩
      rcases hseq ts h with h | h | h | h
      exacts [.inl h, .inr (.inl h), .inr (.inr (.inl h)), .inr (.inr (.inr (.inl h)))]
    · rename_i ts hsch
      split at h
      · refine ⟨s.sched, ?_⟩
        rcases hseq s.sched h with h | h | h | h
        exacts [.inl h, .inr (.inl h), .inr (.inr (.inl h)), .inr (.inr (.inr (.inl h)))]
      · exact ⟨ts, .inl (by simpa using h.symm)⟩
    · rename_i ch ts hsch
      refine ⟨ts, ?_⟩
      simp only [irqTurn, Host.Outcome.next.injEq] at h
      split at h
      · rename_i he
        exact .inr (.inr (.inr (.inr (.inl ⟨ch, hsch, he, h.symm⟩))))
      · exact .inl h.symm
    · rename_i ch ts hsch
      refine ⟨ts, ?_⟩
      simp only [tickTurn, Host.Outcome.next.injEq] at h
      split at h
      · rename_i he
        exact .inr (.inr (.inr (.inr (.inr (.inl ⟨ch, hsch, he, h.symm⟩)))))
      · exact .inl h.symm
    · rename_i r ts hsch
      exact ⟨ts, .inr (.inr (.inr (.inr (.inr (.inr (.inl ⟨r, hsch, by simpa using h.symm⟩))))))⟩
    · rename_i w bytes ts hsch
      exact ⟨ts, .inr (.inr (.inr (.inr (.inr (.inr (.inr ⟨w, bytes, hsch, by simpa using h.symm⟩))))))⟩

end Sys2Proof.Machine
end

