-- ==== Sys2Proof/Laws/Invariant.lean ====
section
/-! SUPPORT. The invariant, operation by operation. `BaseInv` is `Inv` without its clause on the sequencer; every named
operation keeps it. `Quiet s t` says that what the sequencer's clause reads has not grown from `s` to `t`. -/

namespace Sys2Proof.Machine

variable {s t u : State}

/-- `Inv` without the sequencer's clause. -/
structure BaseInv (s : State) : Prop where
  cfgOk : ConfigOk s.cfg
  unmasked : s.irqMask = false
  clockOn : ∀ ch, ch < s.nch → (s.chan ch).active = true → s.clkEn = true
  channels : ∀ ch, ch < s.nch → ChannelInv s.cfg (s.chan ch)
  clientBlocks : BlocksInv s.blocks

theorem Inv.base (h : Inv s) : BaseInv s := ⟨h.cfgOk, h.unmasked, h.clockOn, h.channels, h.clientBlocks⟩

theorem inv_of_base (hb : BaseInv s) (hq : ∀ i ph loc, s.seq = .busy i ph loc → SeqInv s i ph loc) : Inv s :=
  ⟨hb.cfgOk, hb.unmasked, hb.clockOn, hb.channels, hq, hb.clientBlocks⟩

theorem inv_of_idle (hb : BaseInv s) (hq : s.seq = .idle) : Inv s := inv_of_base hb (by simp [hq])

theorem inv_of_busy {i : Instr} {ph : Phase} {loc : Locals} (hb : BaseInv s) (hq : s.seq = .busy i ph loc)
    (h : SeqInv s i ph loc) : Inv s :=
  inv_of_base hb fun i' ph' loc' h' => by rw [hq] at h'; cases h'; exact h

/-- `HB` bytes are at least one (R8, R9). -/
theorem hbOf_pos {cfg : Config} (h : ConfigOk cfg) : 0 < hbOf cfg := Nat.mul_pos h.1 h.2

theorem fbOf_pos {cfg : Config} (h : ConfigOk cfg) : 0 < fbOf cfg := by
  have := hbOf_pos h
  unfold fbOf
  omega

/-! ### One channel -/

/-- A channel whose memory, position, mode, enables and trace are as before, the timer as before or stopped. -/
theorem channelInv_of_same {cfg : Config} {c d : Channel} (h : ChannelInv cfg c) (hfifo : d.fifo = c.fifo)
    (hpos : d.dmaPos = c.dmaPos) (hact : d.active = c.active) (hmode : d.mode = c.mode)
    (hvalid : d.fifoValid = c.fifoValid) (hirq : d.irqEn = c.irqEn) (htimer : d.timerRun = c.timerRun ∨ d.timerRun = false)
    (hdma : d.dmaEn = c.dmaEn) (hdac : d.dacEn = c.dacEn) (htrace : d.dacTrace = c.dacTrace) (hdr : d.dacDr = c.dacDr) :
    ChannelInv cfg d := by
  obtain ⟨a1, a2, a3, a4, a5, a6, a7, a8, a9, a10, a11, a12⟩ := h
  constructor <;> simp only [hfifo, hpos, hact, hmode, hvalid, hirq, hdma, hdac, htrace, hdr] <;> try assumption
  · intro h
    obtain ⟨i1, i2, i3, i4⟩ := a6 h
    exact ⟨i1, htimer.elim (fun e => e.trans i2) id, i3, i4⟩
  · intro h h'
    obtain ⟨i1, i2⟩ := a9 h h'
    exact ⟨i1, htimer.elim (fun e => e.trans i2) id⟩

/-- The engine's move and its events (R255). -/
theorem channelInv_tick {cfg : Config} {c : Channel} (hcfg : ConfigOk cfg) (h : ChannelInv cfg c) :
    ChannelInv cfg (raiseEvents cfg (moveSample cfg c)) := by
  obtain ⟨a1, a2, a3, a4, a5, a6, a7, a8, a9, a10, a11, a12⟩ := h
  have hmove : ChannelInv cfg (moveSample cfg c) := by
    refine ⟨a1, a2, Nat.mod_lt _ (fbOf_pos hcfg), ?_, a5, a6, a7, a8, a9, a10, a11, .inr (by simp [moveSample])⟩
    have hdvd : cfg.sb ∣ fbOf cfg := ⟨2 * cfg.h, by unfold fbOf hbOf; ring⟩
    exact (Nat.dvd_mod_iff hdvd).mpr (Dvd.dvd.add a4 (Nat.dvd_refl _))
  unfold raiseEvents
  split <;> dsimp only <;> split <;> exact channelInv_of_same hmove rfl rfl rfl rfl rfl rfl (.inl rfl) rfl rfl rfl rfl

/-! ### The operations -/

theorem base_modChan (h : BaseInv s) (ch : Nat) (f : Channel → Channel)
    (hf : ch < s.nch → ChannelInv s.cfg (f (s.chan ch)))
    (ha : ch < s.nch → (f (s.chan ch)).active = true → s.clkEn = true) : BaseInv (s.modChan ch f) := by
  refine ⟨h.cfgOk, h.unmasked, ?_, ?_, h.clientBlocks⟩
  · intro j hj
    rw [modChan_chan]
    split
    · rename_i e; exact ha e.2
    · exact h.clockOn j (by simpa using hj)
  · intro j hj
    rw [modChan_chan]
    split
    · rename_i e; exact hf e.2
    · exact h.channels j (by simpa using hj)

/-- An update of registers no clause of `ChannelInv` reads. -/
theorem base_modChan_same (h : BaseInv s) (ch : Nat) (f : Channel → Channel)
    (hs : ∀ c, (f c).fifo = c.fifo ∧ (f c).dmaPos = c.dmaPos ∧ (f c).active = c.active ∧ (f c).mode = c.mode
      ∧ (f c).fifoValid = c.fifoValid ∧ (f c).irqEn = c.irqEn ∧ (f c).timerRun = c.timerRun ∧ (f c).dmaEn = c.dmaEn
      ∧ (f c).dacEn = c.dacEn ∧ (f c).dacTrace = c.dacTrace ∧ (f c).dacDr = c.dacDr) : BaseInv (s.modChan ch f) := by
  obtain ⟨e1, e2, e3, e4, e5, e6, e7, e8, e9, e10, e11⟩ := hs (s.chan ch)
  exact base_modChan h ch f
    (fun hc => channelInv_of_same (h.channels ch hc) e1 e2 e3 e4 e5 e6 (.inl e7) e8 e9 e10 e11)
    (fun hc ha => h.clockOn ch hc (e3 ▸ ha))

theorem base_timerStop (h : BaseInv s) (ch : Nat) : BaseInv (s.timerStop ch) := by
  have := base_modChan h ch (fun c => { c with timerRun := false })
    (fun hc => channelInv_of_same (h.channels ch hc) rfl rfl rfl rfl rfl rfl (.inr rfl) rfl rfl rfl rfl)
    (fun hc ha => h.clockOn ch hc ha)
  exact ⟨this.1, this.2, this.3, this.4, this.5⟩

/-- A timer start, on a channel active in stream or wave mode. -/
theorem base_timerStart (h : BaseInv s) {ch rate : Nat}
    (ha : ch < s.nch → (s.chan ch).active = true ∧ (s.chan ch).mode ≠ .level) : BaseInv (s.timerStart ch rate) := by
  unfold State.timerStart
  split
  · exact ⟨h.1, h.2, h.3, h.4, h.5⟩
  · have := base_modChan h ch (fun c => { c with timerRun := true, timerRate := rate }) (fun hc => by
      obtain ⟨a1, a2, a3, a4, a5, a6, a7, a8, a9, a10, a11, a12⟩ := h.channels ch hc
      obtain ⟨b1, b2⟩ := ha hc
      exact ⟨a1, a2, a3, a4, a5, fun hh => by simp [b1] at hh, a7, a8, fun _ hh => absurd hh b2, a10, a11, a12⟩)
      (fun hc ha => h.clockOn ch hc ha)
    exact ⟨this.1, this.2, this.3, this.4, this.5⟩

theorem base_emit (h : BaseInv s) (r : Response) : BaseInv (s.emit r) := ⟨h.1, h.2, h.3, h.4, h.5⟩
theorem base_noteLost (h : BaseInv s) (ch : Nat) : BaseInv (s.noteLost ch) := ⟨h.1, h.2, h.3, h.4, h.5⟩
theorem base_goto (h : BaseInv s) (i : Instr) (ph : Phase) (loc : Locals) : BaseInv (s.goto i ph loc) :=
  ⟨h.1, h.2, h.3, h.4, h.5⟩
theorem base_raiseFail (h : BaseInv s) (i : Instr) (st : Status) : BaseInv (s.raiseFail i st) :=
  ⟨h.1, h.2, h.3, h.4, h.5⟩
theorem base_finishOk (h : BaseInv s) (i : Instr) : BaseInv (s.finishOk i) := ⟨h.1, h.2, h.3, h.4, h.5⟩
theorem base_raiseFault (h : BaseInv s) (r : Fault) : BaseInv (s.raiseFault r) := ⟨h.1, h.2, h.3, h.4, h.5⟩
theorem base_clockOn (h : BaseInv s) : BaseInv (s.setClock true) := ⟨h.1, h.2, fun _ _ _ => rfl, h.4, h.5⟩

theorem base_allocAsked (h : BaseInv s) : BaseInv s.allocAsked := by
  unfold State.allocAsked
  split <;> exact ⟨h.1, h.2, h.3, h.4, h.5⟩

theorem base_mapAsked (h : BaseInv s) : BaseInv s.mapAsked := by
  unfold State.mapAsked
  split <;> exact ⟨h.1, h.2, h.3, h.4, h.5⟩

/-- A critical section ends unmasked (R88). -/
theorem base_critical (ch : Nat) (f : Channel → Channel) (h : BaseInv (s.modChan ch f)) :
    BaseInv (s.critical fun s => s.modChan ch f) := ⟨h.1, rfl, h.3, h.4, h.5⟩

/-- A copy that stays inside the FIFO (R78). -/
theorem base_fifoCopy (h : BaseInv s) (ch dst n : Nat) (hd : dst + n ≤ fbOf s.cfg) : BaseInv (s.fifoCopy ch dst n) := by
  rcases fifoCopy_cases s ch dst n with ⟨-, e⟩ | ⟨-, e⟩ <;> rw [e]
  · exact base_raiseFault h _
  · refine base_modChan h ch _ (fun hc => ?_) fun hc ha => h.clockOn ch hc ha
    obtain ⟨a1, a2, a3, a4, a5, a6, a7, a8, a9, a10, a11, a12⟩ := h.channels ch hc
    refine ⟨copyInto_wf a1 _ _ _ _, fun x hx => ?_, a3, a4, a5, a6, a7, a8, a9, a10, a11, a12⟩
    rcases mem_writeBytes hx with hx | hx
    · exact a2 x hx
    · simp at hx; omega

/-- A one-unit copy stays inside the FIFO (R81). -/
theorem copyDst_le (cfg : Config) (hv : Bool) : copyDst cfg hv + hbOf cfg ≤ fbOf cfg := by
  unfold copyDst fbOf
  split <;> omega

theorem base_waveFill (h : BaseInv s) (ch : Nat) (t a : Word) : BaseInv (s.waveFill ch t a) := by
  refine base_modChan h ch _ (fun hc => ?_) fun hc ha => h.clockOn ch hc ha
  obtain ⟨a1, a2, a3, a4, a5, a6, a7, a8, a9, a10, a11, a12⟩ := h.channels ch hc
  refine ⟨writeBytes_wf a1 _ _, fun x hx => ?_, a3, a4, a5, a6, a7, a8, a9, a10, a11, a12⟩
  rcases mem_writeBytes hx with hx | hx
  · exact a2 x hx
  · rw [waveBytes_length] at hx; simpa using hx.2

theorem base_dacWrite (h : BaseInv s) (ch : Nat) (v : Sample) : BaseInv (s.dacWrite ch v) := by
  refine base_modChan h ch _ (fun hc => ?_) fun hc ha => h.clockOn ch hc ha
  obtain ⟨a1, a2, a3, a4, a5, a6, a7, a8, a9, a10, a11, a12⟩ := h.channels ch hc
  exact ⟨a1, a2, a3, a4, a5, a6, a7, a8, a9, a10, a11, .inr (by simp)⟩

theorem base_tick (h : BaseInv s) (ch : Nat) : BaseInv (s.tick ch) := by
  refine base_modChan h ch _ (fun hc => channelInv_tick h.cfgOk (h.channels ch hc)) fun hc ha => h.clockOn ch hc ?_
  unfold raiseEvents at ha
  dsimp only at ha
  split at ha <;> split at ha <;> exact ha

/-- The client blocks after the host has put one in its place (R73). -/
theorem blocksInv_put {bs : List Block} (h : BlocksInv bs) (w : Word) (bytes : List Byte) :
    BlocksInv (putBlock (Block.ofBytes w bytes) bs) := by
  refine ⟨putBlock_rising h.rising _, fun b hb => ?_, fun b hb => ?_, fun b hb => ?_⟩ <;>
    rcases mem_putBlock hb with hb | ⟨rfl, hlen⟩
  exacts [h.nonempty b hb, hlen, h.bytesWf b hb, (ofBytes_wf w bytes).1, h.bytesBound b hb, (ofBytes_wf w bytes).2]

theorem base_supply (h : BaseInv s) (w : Word) (bytes : List Byte) : BaseInv (s.supply w bytes) := by
  unfold State.supply
  split
  · exact h
  · exact ⟨h.1, h.2, h.3, h.4, blocksInv_put h.5 w bytes⟩

/-! ### What the sequencer's clause reads -/

/-- No channel's activity or mode differs, and no count has grown. -/
structure Quiet (s t : State) : Prop where
  nch : t.nch = s.nch
  chan : ∀ j, (t.chan j).active = (s.chan j).active ∧ (t.chan j).mode = (s.chan j).mode
    ∧ (t.chan j).cnt ≤ (s.chan j).cnt

theorem Quiet.refl (s : State) : Quiet s s := ⟨rfl, fun _ => ⟨rfl, rfl, le_refl _⟩⟩

theorem Quiet.trans (h : Quiet s t) (h' : Quiet t u) : Quiet s u :=
  ⟨h'.nch.trans h.nch, fun j => ⟨(h'.chan j).1.trans (h.chan j).1, (h'.chan j).2.1.trans (h.chan j).2.1,
    le_trans (h'.chan j).2.2 (h.chan j).2.2⟩⟩

/-- A quiet change keeps the sequencer's clause of any phase (R162, R166). -/
theorem seqInv_of_quiet {i : Instr} {ph : Phase} {loc : Locals} (h : SeqInv s i ph loc) (hq : Quiet s t) :
    SeqInv t i ph loc := by
  obtain ⟨e1, e2, e3⟩ := hq.chan i.chIdx
  exact ⟨h.phaseOf, hq.nch ▸ h.inRange, fun h' => e1 ▸ h.isActive h', fun h' => e2 ▸ h.isStream h',
    fun h' => le_trans e3 (h.admitted h'), fun h' => ⟨le_trans e3 (h.snapshot h').1, (h.snapshot h').2⟩⟩

theorem quiet_modChan (s : State) (ch : Nat) (f : Channel → Channel)
    (hf : ∀ c, (f c).active = c.active ∧ (f c).mode = c.mode ∧ (f c).cnt ≤ c.cnt) : Quiet s (s.modChan ch f) := by
  refine ⟨by simp, fun j => ?_⟩
  rw [modChan_chan]
  split
  · rename_i e; rw [e.1]; exact hf _
  · exact ⟨rfl, rfl, le_refl _⟩

theorem quiet_noteLost (s : State) (ch : Nat) : Quiet s (s.noteLost ch) := ⟨rfl, fun _ => ⟨rfl, rfl, le_refl _⟩⟩
theorem quiet_emit (s : State) (r : Response) : Quiet s (s.emit r) := ⟨rfl, fun _ => ⟨rfl, rfl, le_refl _⟩⟩

theorem quiet_timerStop (s : State) (ch : Nat) : Quiet s (s.timerStop ch) :=
  have h := quiet_modChan s ch (fun c => { c with timerRun := false }) fun _ => ⟨rfl, rfl, le_refl _⟩
  ⟨h.nch, h.chan⟩

theorem quiet_timerStart (s : State) (ch rate : Nat) : Quiet s (s.timerStart ch rate) := by
  unfold State.timerStart
  split
  · exact ⟨rfl, fun _ => ⟨rfl, rfl, le_refl _⟩⟩
  · have h := quiet_modChan s ch (fun c => { c with timerRun := true, timerRate := rate }) fun _ => ⟨rfl, rfl, le_refl _⟩
    exact ⟨h.nch, h.chan⟩

theorem quiet_fifoCopy (s : State) (ch dst n : Nat) : Quiet s (s.fifoCopy ch dst n) := by
  rcases fifoCopy_cases s ch dst n with ⟨-, e⟩ | ⟨-, e⟩ <;> rw [e]
  · exact ⟨rfl, fun _ => ⟨rfl, rfl, le_refl _⟩⟩
  · exact quiet_modChan s ch _ fun _ => ⟨rfl, rfl, le_refl _⟩

theorem quiet_tick (s : State) (ch : Nat) : Quiet s (s.tick ch) := by
  refine quiet_modChan s ch _ fun c => ?_
  unfold raiseEvents
  dsimp only
  split <;> split <;> exact ⟨rfl, rfl, le_refl _⟩

/-! ### The handler -/

theorem refillServe_quiet (h : BaseInv s) (ch : Nat) : BaseInv (s.refillServe ch) ∧ Quiet s (s.refillServe ch) := by
  unfold State.refillServe State.refillComplete
  split
  · exact ⟨h, .refl s⟩
  · split
    · exact ⟨base_fifoCopy h _ _ _ (copyDst_le _ _), quiet_fifoCopy _ _ _ _⟩
    · exact ⟨base_modChan_same (base_emit h _) ch (fun c => { c with block := none })
          fun _ => ⟨rfl, rfl, rfl, rfl, rfl, rfl, rfl, rfl, rfl, rfl, rfl⟩,
        (quiet_emit s _).trans (quiet_modChan _ ch _ fun _ => ⟨rfl, rfl, le_refl _⟩)⟩

theorem refillUnderflow_quiet (h : BaseInv s) (ch : Nat) :
    BaseInv (s.refillUnderflow ch) ∧ Quiet s (s.refillUnderflow ch) := by
  unfold State.refillUnderflow
  split
  · have h1 : BaseInv ((s.modChan ch fun c => { c with half := false }).timerStop ch) :=
      base_timerStop (base_modChan_same h ch (fun c => { c with half := false })
        fun _ => ⟨rfl, rfl, rfl, rfl, rfl, rfl, rfl, rfl, rfl, rfl, rfl⟩) ch
    have h2 : Quiet s ((s.modChan ch fun c => { c with half := false }).timerStop ch) :=
      (quiet_modChan s ch (fun c => { c with half := false }) fun _ => ⟨rfl, rfl, le_refl _⟩).trans (quiet_timerStop _ _)
    dsimp only
    split
    · exact ⟨base_emit h1 _, h2.trans (quiet_emit _ _)⟩
    · exact ⟨h1, h2⟩
  · exact ⟨h, .refl s⟩

theorem refill_quiet (h : BaseInv s) (ch : Nat) : BaseInv (s.refill ch) ∧ Quiet s (s.refill ch) := by
  have h1 : BaseInv (s.refillCount ch) := base_modChan_same h ch countEvent
    fun _ => ⟨rfl, rfl, rfl, rfl, rfl, rfl, rfl, rfl, rfl, rfl, rfl⟩
  have q1 : Quiet s (s.refillCount ch) := quiet_modChan s ch countEvent fun _ => ⟨rfl, rfl, by simp [countEvent]⟩
  obtain ⟨h2, q2⟩ := refillServe_quiet h1 ch
  unfold State.refill
  cases hf : ((s.refillCount ch).refillServe ch).fault with
  | none =>
    rw [unlessFault_of_none hf]
    obtain ⟨h3, q3⟩ := refillUnderflow_quiet h2 ch
    exact ⟨h3, (q1.trans q2).trans q3⟩
  | some r => rw [unlessFault_of_some hf]; exact ⟨h2, q1.trans q2⟩

/-- The handler leaves the sequencer where it is (R289). -/
@[simp] theorem refill_seq (s : State) (ch : Nat) : (s.refill ch).seq = s.seq := by
  have h1 : ((s.refillCount ch).refillServe ch).seq = s.seq := by
    unfold State.refillServe State.refillComplete
    split
    · rfl
    · split <;> simp [State.refillCount]
  unfold State.refill
  cases hf : ((s.refillCount ch).refillServe ch).fault with
  | none =>
    rw [unlessFault_of_none hf, ← h1]
    unfold State.refillUnderflow
    split
    · dsimp only; split <;> simp
    · rfl
  | some r => rw [unlessFault_of_some hf, h1]

end Sys2Proof.Machine
end

