-- ==== Sys2Proof/Laws/PerInstr.lean ====
section
/-! SUPPORT. The family `EncodeFields`: where the encoder puts each field of a command (`30_encoding.md` R101 to R103, R111),
one lemma per constructor. -/

namespace Sys2Proof.Laws

/-- The opcode byte of an encoded word (R101). -/
theorem encodeWord0_op (op : Byte) (ch : Nat) : (encodeWord0 op ch).extractLsb' 0 8 = op := by
  unfold encodeWord0
  apply BitVec.eq_of_getLsbD_eq
  intro i hi
  simp [hi]
  intro h
  omega

/-- The channel byte of an encoded word (R101). -/
theorem encodeWord0_ch (op : Byte) (ch : Nat) : (encodeWord0 op ch).extractLsb' 8 8 = BitVec.ofNat 8 ch := by
  unfold encodeWord0
  apply BitVec.eq_of_getLsbD_eq
  intro i hi
  simp [hi, show ¬ 8 + i < 8 by omega, show 8 + i < 32 by omega]

/-- The reserved bits of an encoded word are sent as zero (R101). -/
theorem encodeWord0_rsv (op : Byte) (ch : Nat) : (encodeWord0 op ch).extractLsb' 16 16 = 0 := by
  unfold encodeWord0
  apply BitVec.eq_of_getLsbD_eq
  intro i hi
  simp only [BitVec.getLsbD_extractLsb', hi, decide_true, Bool.true_and, BitVec.getLsbD_or, BitVec.getLsbD_shiftLeft,
    BitVec.truncate_eq_setWidth, BitVec.getLsbD_setWidth, BitVec.ofNat_eq_ofNat, BitVec.getLsbD_zero]
  rw [BitVec.getLsbD_of_ge _ _ (by omega), BitVec.getLsbD_of_ge _ _ (by omega)]
  simp

/-- The fields of the request a well-formed command is encoded as. -/
def EncodeFields.Statement (i : Instr) : Prop :=
  WellFormed i = true →
    (encode i).op = i.opcode ∧ (encode i).ch = i.chIdx ∧ (encode i).w0.extractLsb' 16 16 = 0
    ∧ (encode i).w1 = i.paramA ∧ (encode i).w2 = i.paramB ∧ (encode i).w3 = i.sender

/-- The same for any command; the lemmas below are its cases. -/
theorem encodeFields_of_wellFormed (i : Instr) : EncodeFields.Statement i := by
  intro h
  have hch : i.chIdx < 256 := by simpa [WellFormed] using h
  refine ⟨encodeWord0_op _ _, ?_, encodeWord0_rsv _ _, rfl, rfl, rfl⟩
  show ((encodeWord0 i.opcode i.chIdx).extractLsb' 8 8).toNat = i.chIdx
  rw [encodeWord0_ch, BitVec.toNat_ofNat]
  exact Nat.mod_eq_of_lt hch

theorem EncodeFields.openCmd (ch : Nat) (mode rate p : Word) : EncodeFields.Statement (.openCmd ch mode rate p) :=
  encodeFields_of_wellFormed _

theorem EncodeFields.closeCmd (ch : Nat) (a b p : Word) : EncodeFields.Statement (.closeCmd ch a b p) :=
  encodeFields_of_wellFormed _

theorem EncodeFields.writeCmd (ch : Nat) (block size p : Word) : EncodeFields.Statement (.writeCmd ch block size p) :=
  encodeFields_of_wellFormed _

theorem EncodeFields.flushCmd (ch : Nat) (a b p : Word) : EncodeFields.Statement (.flushCmd ch a b p) :=
  encodeFields_of_wellFormed _

theorem EncodeFields.setLevel (ch : Nat) (value b p : Word) : EncodeFields.Statement (.setLevel ch value b p) :=
  encodeFields_of_wellFormed _

theorem EncodeFields.setWave (ch : Nat) (waveType amp p : Word) : EncodeFields.Statement (.setWave ch waveType amp p) :=
  encodeFields_of_wellFormed _

end Sys2Proof.Laws
end

