-- ==== Sys2Proof/Tests/Slice0.lean ====
section
/-! SUPPORT. The model's own tests. Expected results are those of `95_test_vectors.md` (the vector's name stands in the
test's comment) or are carried out by hand from the rule named. Then one witness per obligation that has hypotheses. -/

namespace Sys2Proof.Tests

open Sys2Proof Sys2Proof.Machine

/-! ### Well-formedness (R264) -/

theorem test_wellFormed_255 : WellFormed (.openCmd 255 1 8000 7) = true := by decide
/-- An index that does not fit 8 bits is refused, of every command. -/
theorem test_illFormed_256 :
    WellFormed (.openCmd 256 1 8000 7) = false ∧ WellFormed (.closeCmd 256 0 0 1) = false
    ∧ WellFormed (.writeCmd 256 1 4 7) = false ∧ WellFormed (.flushCmd 256 0 0 1) = false
    ∧ WellFormed (.setLevel 256 9 0 1) = false ∧ WellFormed (.setWave 256 3 9 7) = false := by decide

/-! ### Decoding: the words of `95_test_vectors.md` section 2.1 -/

theorem test_decode_open : decode ⟨0x00000101, 0x00000002, 0x00000064, 0x00000007⟩ = .ok (.openCmd 1 2 100 7) := by decide
theorem test_decode_close : decode ⟨0x00000002, 0, 0, 0x00000005⟩ = .ok (.closeCmd 0 0 0 5) := by decide
theorem test_decode_write :
    decode ⟨0x00000103, 0xDEADBEEF, 0x00000006, 0x00000002⟩ = .ok (.writeCmd 1 0xDEADBEEF 6 2) := by decide
theorem test_decode_flush : decode ⟨0x00000004, 0, 0, 0x00000005⟩ = .ok (.flushCmd 0 0 0 5) := by decide
theorem test_decode_setLevel : decode ⟨0x00000005, 0x00000063, 0, 0x00000001⟩ = .ok (.setLevel 0 99 0 1) := by decide
theorem test_decode_setWave :
    decode ⟨0x00000106, 0x00000003, 0x00000009, 0x00000007⟩ = .ok (.setWave 1 3 9 7) := by decide
/-- "`CLOSE 0 @5` with reserved bits set": `w0[31:16]` and the unused words do not matter. -/
theorem test_decode_reserved :
    decode ⟨0xABCD0002, 0x11111111, 0x22222222, 0x00000005⟩ = .ok (.closeCmd 0 0x11111111 0x22222222 5) := by decide
theorem test_decode_unknown : decode ⟨0x00000009, 0, 0, 1⟩ = .error (.unknownOpcode 9) := by decide
/-- The largest channel index the word can carry, and the neighbours of the opcode range. -/
theorem test_decode_bounds :
    decode ⟨0x0000FF06, 0, 0, 0⟩ = .ok (.setWave 255 0 0 0) ∧ decode ⟨0x0000FF07, 0, 0, 0⟩ = .error (.unknownOpcode 7)
    ∧ decode ⟨0x0000FF00, 0, 0, 0⟩ = .error (.unknownOpcode 0) := by decide
/-- A table word numbers the bits of `w1`, `w2`, `w3` after those of `w0`. -/
theorem test_decodeTableWord :
    decodeTableWord 128 0x00000007000004000000000100000003 = some (.writeCmd 0 1 1024 7)
    ∧ decodeTableWord 32 0x00000102 = some (.closeCmd 1 0 0 0) ∧ decodeTableWord 8 0x04 = some (.flushCmd 0 0 0 0)
    ∧ decodeTableWord 32 0x07 = none := by decide
theorem test_encode_write :
    encode (.writeCmd 1 0xDEADBEEF 6 2) = ⟨0x00000103, 0xDEADBEEF, 0x00000006, 0x00000002⟩ := by decide

/-! ### Response words (section 2.1) -/

theorem test_words_cmdAck :
    responseWords vectorConfig (.cmdAck 1 2 0x01 .invalidParams 0) = ⟨0x01010201, 0, 0, 1⟩
    ∧ responseWords vectorConfig (.cmdAck 3 0 0x03 .inProgress 5) = ⟨0x04030001, 5, 0, 3⟩
    ∧ responseWords vectorConfig (.cmdAck 7 0 0x03 (.mapError 0x05) 1) = ⟨0x85030001, 1, 0, 7⟩
    ∧ responseWords vectorConfig (.cmdAck 1 255 0x00 .notSupported 0) = ⟨0x0500FF01, 0, 0, 1⟩ := by decide
theorem test_words_writeDone :
    responseWords vectorConfig (.writeDone 7 0 .ok 1 4) = ⟨0x00030002, 1, 4, 7⟩
    ∧ responseWords vectorConfig (.writeDone 1 0 .cancelled 6 0) = ⟨0x08030002, 6, 0, 1⟩
    ∧ responseWords vectorConfig (.diag 1) = ⟨0x00000103, 0, 0, 0⟩ := by decide

/-! ### Small states -/

/-- The next state of an outcome. -/
def nextOf : Host.Outcome State Fault Refusal → Option State
  | .next s => some s
  | .fault _ => none
  | .refused _ => none

/-- A closed channel. -/
def closedChan : Channel := Channel.reset vectorConfig

/-- Channel 0 of vector V-O1: a fresh stream channel at rate 8000. -/
def streamChan : Channel :=
  { closedChan with
    active := true, mode := .stream, fifoValid := true, irqEn := true, dmaEn := true, dacEn := true, rate := 8000 }

/-- Channel 1 of vector V-O2: a fresh wave channel at rate 100. -/
def waveChan : Channel :=
  { closedChan with active := true, mode := .wave, fifoValid := true, dmaEn := true, dacEn := true, rate := 100 }

/-- Channel 0 of vector V-O3: a level channel. -/
def levelChan : Channel := { closedChan with active := true, mode := .level, dacEn := true, dacTrace := [[some 0]] }

/-- Blocks 1 (`A0 A1 A2 A3`), 2 (`10 .. 15`) and 14 (`99`). -/
def testBlocks : List Block :=
  [Block.ofBytes 1 [0xA0, 0xA1, 0xA2, 0xA3], Block.ofBytes 2 [0x10, 0x11, 0x12, 0x13, 0x14, 0x15], Block.ofBytes 14 [0x99]]

/-- Two channels, both oracles answering once with success. -/
def twoChans (c0 c1 : Channel) : State :=
  { State.reset with chans := [c0, c1], clkEn := true, blocks := testBlocks, allocIn := [.ok], mapIn := [.ok] }

/-- The sequencer about to run a phase. -/
def atPhase (s : State) (i : Instr) (ph : Phase) (loc : Locals := {}) : State := { s with seq := .busy i ph loc }

/-! ### One step per command, at most two -/

/-- V-O1: OPEN in stream mode. -/
theorem test_open_stream :
    (nextOf (exec (.openCmd 0 1 8000 7) (atPhase { State.reset with allocIn := [.ok] } (.openCmd 0 1 8000 7) .o1))).map
      (fun t => (t.chan 0, t.clkEn, t.resp))
      = some (streamChan, true, [.cmdAck 7 0 0x01 .ok 0]) := by decide

/-- V-O4: the allocation fails; the clock stays on, the channel stays closed. -/
theorem test_open_outOfMemory :
    (nextOf (exec (.openCmd 0 1 8000 7) (atPhase { State.reset with allocIn := [.outOfMemory] } (.openCmd 0 1 8000 7) .o1))).map
      (fun t => (t.chan 0, t.clkEn, t.resp))
      = some (closedChan, true, [.cmdAck 7 0 0x01 .outOfMemory 0]) := by decide

/-- V-C4: closing channel 0 keeps the clock for channel 1. -/
theorem test_close_keeps_clock :
    (nextOf (exec (.closeCmd 0 0 0 1) (atPhase (twoChans streamChan waveChan) (.closeCmd 0 0 0 1) .c6))).map
      (fun t => ((t.chan 0).active, (t.chan 0).irqEn, (t.chan 0).fifoValid, t.clkEn, t.ctl))
      = some (false, false, true, true, [.stop 0]) := by decide

/-- V-C3: the last Close turns the clock off. -/
theorem test_close_last :
    (nextOf (exec (.closeCmd 0 0 0 1) (atPhase (twoChans levelChan closedChan) (.closeCmd 0 0 0 1) .c6))).map
      (fun t => ((t.chan 0).active, t.clkEn, t.resp)) = some (false, false, [.cmdAck 1 0 0x02 .ok 0]) := by decide

/-- V-W1, phase W9: the two-unit priming copy. -/
theorem test_write_primes :
    (nextOf (exec (.writeCmd 0 1 4 7)
      (atPhase (twoChans { streamChan with ptr := ⟨1, 0⟩ } closedChan) (.writeCmd 0 1 4 7) .w9 { n := 2 }))).map
      (fun t => ((t.chan 0).fifo, (t.chan 0).ptr, (t.chan 0).race))
      = some ([(0, 0xA0), (1, 0xA1), (2, 0xA2), (3, 0xA3)], ⟨1, 4⟩, false) := by decide

/-- V-W4, phase W10: `N = 0` on a one-byte block reads beyond it. -/
theorem test_write_overread :
    (nextOf (exec (.writeCmd 0 14 1 1)
      (atPhase (twoChans { streamChan with ptr := ⟨14, 0⟩ } closedChan) (.writeCmd 0 14 1 1) .w10))).map
      (fun t => (t.fault, (t.chan 0).fifo)) = some (some (.sourceOverread 0), []) := by decide

/-- V-F1, phases F4 and F5: detach, then cancel to the recorded process. -/
theorem test_flush_detach :
    (nextOf (exec (.flushCmd 0 0 0 5)
      (atPhase (twoChans { streamChan with block := some 6, process := 1, cnt := 3 } closedChan) (.flushCmd 0 0 0 5) .f4))).map
      (fun t => ((t.chan 0).block, (t.chan 0).cnt, t.seq))
      = some (none, 3, .busy (.flushCmd 0 0 0 5) .f5 { cap := some 6 }) := by decide

theorem test_flush_cancel :
    (nextOf (exec (.flushCmd 0 0 0 5) (atPhase (twoChans { streamChan with process := 1, cnt := 3 } closedChan)
      (.flushCmd 0 0 0 5) .f5 { cap := some 6 }))).map (fun t => t.resp) = some [.writeDone 1 0 .cancelled 6 0] := by decide

/-- V-L1: the value is ignored by default. -/
theorem test_setLevel_default :
    (nextOf (exec (.setLevel 0 99 0 1) (atPhase (twoChans levelChan closedChan) (.setLevel 0 99 0 1) .l1))).map
      (fun t => ((t.chan 0).dacTrace, t.resp)) = some ([[some 0], [some 0]], [.cmdAck 1 0 0x05 .ok 0]) := by decide

/-- V-L2 with `SB = 2`: sample bytes `34 12`. -/
theorem test_setLevel_value :
    levelSample { vectorConfig with sb := 2, setLevelUsesValue := true } 0x1234 = [some 0x34, some 0x12] := by decide

/-- V-V1: amplitude 0 stops the timer only. -/
theorem test_setWave_zero :
    (nextOf (exec (.setWave 1 3 0 7) (atPhase (twoChans closedChan waveChan) (.setWave 1 3 0 7) .v1))).map
      (fun t => ((t.chan 1).fifo, (t.chan 1).timerRun, t.ctl, t.resp))
      = some ([], false, [.stop 1], [.cmdAck 7 1 0x06 .ok 0]) := by decide

/-- V-V2: the timer restarts at `rate * H`. -/
theorem test_setWave_rate :
    (nextOf (exec (.setWave 1 3 9 7) (atPhase (twoChans closedChan waveChan) (.setWave 1 3 9 7) .v1))).map
      (fun t => ((t.chan 1).timerRun, (t.chan 1).timerRate, t.ctl))
      = some (true, 200, [.stop 1, .start 1 200]) := by decide

/-! ### The handler and the engine -/

/-- V-H5: one run completes the block and underflows, in that order. -/
theorem test_refill_both :
    let s := (twoChans { streamChan with cnt := 1, half := true, block := some 7, size := 4, process := 3, tcif := true
                                         timerRun := true } closedChan).refill 0
    ((s.chan 0).cnt, (s.chan 0).half, (s.chan 0).block, (s.chan 0).timerRun, s.resp)
      = (0, false, none, false, [.writeDone 3 0 .ok 7 4, .diag 0]) := by decide

/-- V-H1: a refill copy into the half just vacated. -/
theorem test_refill_copy :
    let s := (twoChans { streamChan with cnt := 5, block := some 2, ptr := ⟨2, 4⟩, htif := true
                                         fifo := [(0, 0x10), (1, 0x11), (2, 0x12), (3, 0x13)] } closedChan).refill 0
    ((s.chan 0).cnt, (s.chan 0).half, (s.chan 0).fifo, (s.chan 0).ptr, s.resp)
      = (4, true, [(0, 0x14), (1, 0x15), (2, 0x12), (3, 0x13)], ⟨2, 6⟩, []) := by decide

/-- V-OV: the tick that raises TC over an unserviced HT marks the overrun. -/
theorem test_tick_overrun :
    let s := (twoChans { streamChan with timerRun := true, dmaPos := 3, htif := true } closedChan).tick 0
    ((s.chan 0).dmaPos, (s.chan 0).htif, (s.chan 0).tcif, (s.chan 0).overrun, (s.chan 0).dacDr)
      = (0, true, true, true, [none]) := by decide

/-- R343: from W5 a pending event completes the block that is not counted yet. -/
theorem test_refill_premature :
    let s := (atPhase (twoChans { streamChan with cnt := 2, block := some 2, size := 4, process := 7, htif := true
                                                  timerRun := true } closedChan) (.writeCmd 0 2 6 8) .w6).refill 0
    ((s.chan 0).block, s.resp, s.seq) = (none, [.writeDone 7 0 .ok 2 4], .busy (.writeCmd 0 2 6 8) .w6 {}) := by decide

/-! ### The step, reset, program text -/

/-- V-D1: an unknown opcode is answered in one step. -/
theorem test_step_unknown :
    (nextOf (step { State.reset with rq := [⟨9, 0, 0, 1⟩] })).map (fun t => (t.rq, t.seq, t.resp))
      = some ([], .idle, [.cmdAck 1 0 0x09 .notSupported 0]) := by decide

/-- The first step after reset runs the placed instruction's phase D0. -/
theorem test_withFetchWord :
    (nextOf (step (State.reset.withFetchWord 128 0x00000007000004000000000100000003))).map
      (fun t => (t.seq, t.rq, t.unanswered 1)) = some (.busy (.writeCmd 0 1 1024 7) .w1 {}, [], true) := by decide

/-- A disabled handler takes no step (log 3). -/
theorem test_step_disabled_irq :
    nextOf (step { State.reset with sched := [.irq 0] }) = some State.reset := by decide

/-- A host turn does not touch the block of an unanswered Write: queued here (R92). -/
theorem test_supply_in_window :
    nextOf (step { twoChans streamChan closedChan with rq := [⟨3, 1, 4, 7⟩], sched := [.supply 1 [0x55]] })
      = some { twoChans streamChan closedChan with rq := [⟨3, 1, 4, 7⟩] } := by decide

/-- Answered at W11, the block not cleared yet: the window of that Write is over, that of a second Write of the same block,
queued behind it, is not, also when the handler answers the first Write once more (R92, R170). -/
theorem test_window_answered_twice :
    let s := atPhase (twoChans { streamChan with block := some 1, cnt := 2, htif := true } closedChan) (.writeCmd 0 1 4 7) .w12
    let q := { s with rq := [⟨3, 1, 4, 8⟩] }
    s.unanswered 1 = false ∧ q.unanswered 1 = true ∧ (q.refill 0).resp = [.writeDone 0 0 .ok 1 0]
    ∧ (q.refill 0).unanswered 1 = true := by decide

theorem test_reset_values :
    State.reset.nch = 2 ∧ (State.reset.chan 1).active = false ∧ State.reset.irqMask = false ∧ State.reset.seq = .idle := by
  decide

/-- Every command line of R111 and every schedule line of R112 and R113. -/
theorem test_parse :
    parseLine "OPEN 0, STREAM, 8000 @7".toList = some (.cmd (.openCmd 0 1 8000 7))
    ∧ parseLine "CLOSE    0 @5 ; a comment".toList = some (.cmd (.closeCmd 0 0 0 5))
    ∧ parseLine "WRITE 1, 0xDEADBEEF, 6 @2".toList = some (.cmd (.writeCmd 1 0xDEADBEEF 6 2))
    ∧ parseLine "FLUSH 0 @5".toList = some (.cmd (.flushCmd 0 0 0 5))
    ∧ parseLine "SETLEVEL 0, 99 @1".toList = some (.cmd (.setLevel 0 99 0 1))
    ∧ parseLine "SETWAVE 1, 3, 9 @7".toList = some (.cmd (.setWave 1 3 9 7)) := by decide

theorem test_parse_schedule :
    parseLine "STEP 14".toList = some (.step 14) ∧ parseLine "RUN".toList = some .run
    ∧ parseLine "TICK 0, 4".toList = some (.tick 0 4) ∧ parseLine "IRQ 0".toList = some (.irq 0)
    ∧ parseLine "PLAY 0".toList = some (.play 0) ∧ parseLine "OPEN 256, 0, 0 @1".toList = none := by decide

/-! ### Witnesses: concrete inputs that meet the hypotheses of each obligation, clause by clause -/

theorem witness_DecodeAfterEncode : WellFormed (.writeCmd 255 1 4 7) = true ∧ WellFormed (.openCmd 0 1 8000 7) = true := by
  decide

theorem witness_EncodeAfterDecode : decode ⟨0xABCDFF06, 3, 9, 7⟩ = .ok (.setWave 255 3 9 7) := by decide

theorem witness_DecodeRefusesUnknownOpcodes : decode ⟨0x000000FF, 0, 0, 0⟩ = .error (.unknownOpcode 0xFF) := by decide

theorem witness_ResponseWordFields : 0 < 256 ∧ 255 < 256 := by decide

theorem witness_StatusCodesDistinct : statusCode (.mapError 0x7F) = statusCode (.mapError 0x7F) := by decide

/-- A request for `WRITE 0, 1, 4 @7`, and the words of `CLOSE 0 @5`. -/
def writeReq : Request := ⟨0x00000003, 1, 4, 7⟩
def closeReq : Request := ⟨0x00000002, 0, 0, 5⟩

theorem witness_StepDispatchesHeadRequest :
    let s := { twoChans streamChan closedChan with rq := [writeReq, closeReq] }
    (s.fault = none ∧ s.seq = .idle ∧ s.rq = writeReq :: [closeReq] ∧ decode writeReq = .ok (.writeCmd 0 1 4 7))
    ∧ ({ s with sched := [.phase, .irq 0] } : State).sched = .phase :: [.irq 0]
    ∧ ({ s with sched := [.run, .irq 0] } : State).sched = .run :: [.irq 0] ∧ s.sched = [] := by decide

theorem witness_StepRunsBusyPhase :
    let s := atPhase (twoChans streamChan closedChan) (.writeCmd 0 1 4 7) .w14
    (s.fault = none ∧ s.seq = .busy (.writeCmd 0 1 4 7) .w14 {}) ∧ s.sched = []
    ∧ ({ s with sched := [.phase] } : State).sched = .phase :: [] ∧ ({ s with sched := [.run] } : State).sched = .run :: [] := by
  decide

theorem witness_DispatchEntersFirstPhase : State.reset.seq = .idle := by decide

/-- Both ends of the unknown opcodes: 0 and 7. -/
theorem witness_UnknownOpcodeAnswered :
    let s := { State.reset with rq := [⟨0x0000FF00, 0, 0, 1⟩, ⟨0x00000007, 0, 0, 1⟩] }
    s.fault = none ∧ s.sched = [] ∧ s.seq = .idle ∧ s.rq = ⟨0x0000FF00, 0, 0, 1⟩ :: [⟨0x00000007, 0, 0, 1⟩]
    ∧ ({ s with sched := [.phase] } : State).sched = .phase :: [] ∧ ({ s with sched := [.run] } : State).sched = .run :: []
    ∧ (⟨0x0000FF00, 0, 0, 1⟩ : Request).op.toNat = 0 ∧ 6 < (⟨0x00000007, 0, 0, 1⟩ : Request).op.toNat := by decide

/-- Channel 1 of 2 enabled by each flag; disabled by the enable bit, by no flag, by the mask; ticking and not. -/
theorem witness_AgentTurnsRunWhenEnabled :
    let on := { streamChan with htif := true, timerRun := true }
    let s := { twoChans streamChan on with sched := [.irq 1] }
    let s' := { twoChans closedChan { streamChan with tcif := true } with sched := [.irq 1] }
    (s.fault = none ∧ s.sched = .irq 1 :: [] ∧ 1 < s.nch ∧ (s.chan 1).irqEn = true ∧ (s.chan 1).htif = true
      ∧ s.irqMask = false ∧ (s'.chan 1).irqEn = true ∧ (s'.chan 1).tcif = true)
    ∧ ((s'.chan 0).irqEn = false ∧ (s.chan 0).htif = false ∧ (s.chan 0).tcif = false
      ∧ ({ s with irqMask := true } : State).irqMask = true)
    ∧ (({ s with sched := [.tick 1] } : State).sched = .tick 1 :: [] ∧ (s.chan 1).timerRun = true ∧ (s.chan 1).dmaEn = true)
    ∧ ((s.chan 0).timerRun = false ∧ (s'.chan 0).dmaEn = false) := by decide

theorem witness_HostSendAppends :
    let s := { State.reset with sched := [.send writeReq] }
    s.fault = none ∧ s.sched = .send writeReq :: [] := by decide

theorem witness_FaultStopsTheMachine :
    ({ State.reset with fault := some (.rateZero 1) } : State).fault = some (.rateZero 1) := by decide

/-- The first index out of range, the first word that is no mode, and an active channel with the last mode. -/
theorem witness_OpenChecksInOrder :
    let s := twoChans streamChan closedChan
    (s.nch ≤ 2) ∧ (1 < s.nch ∧ 2 < (3 : Word).toNat)
    ∧ (0 < s.nch ∧ (2 : Word).toNat ≤ 2 ∧ (s.chan 0).active = true)
    ∧ (atPhase s (.openCmd 0 2 8000 7) .o1).seq = .busy (.openCmd 0 2 8000 7) .o1 {} := by decide

theorem witness_OpenLevelCompletes :
    let s := atPhase State.reset (.openCmd 1 0 0 7) .o1
    s.seq = .busy (.openCmd 1 0 0 7) .o1 {} ∧ 1 < s.nch ∧ (s.chan 1).active = false := by decide

theorem witness_OpenStreamCompletes :
    let s := atPhase (twoChans closedChan waveChan) (.openCmd 0 1 8000 7) .o1
    s.seq = .busy (.openCmd 0 1 8000 7) .o1 {} ∧ 0 < s.nch ∧ (s.chan 0).active = false ∧ s.allocAnswer = .ok := by decide

theorem witness_OpenWaveCompletes :
    let s := atPhase (twoChans streamChan closedChan) (.openCmd 1 2 100 7) .o1
    s.seq = .busy (.openCmd 1 2 100 7) .o1 {} ∧ 1 < s.nch ∧ (s.chan 1).active = false ∧ s.allocAnswer = .ok := by decide

theorem witness_OpenOutOfMemoryKeepsChannels :
    let s := atPhase { twoChans streamChan closedChan with allocIn := [.outOfMemory] } (.openCmd 1 2 100 7) .o1
    s.seq = .busy (.openCmd 1 2 100 7) .o1 {} ∧ 1 < s.nch ∧ ((2 : Word) = 1 ∨ (2 : Word) = 2) ∧ (s.chan 1).active = false
    ∧ s.allocAnswer = .outOfMemory := by decide

theorem witness_CloseChecks :
    let s := twoChans streamChan closedChan
    let s' := twoChans waveChan closedChan
    let i := Instr.closeCmd 0 0 0 5
    ((atPhase s i .c1).seq = .busy i .c1 {} ∧ (atPhase s i .c2).seq = .busy i .c2 {})
    ∧ s.nch ≤ 2 ∧ 1 < s.nch ∧ (s.chan 1).active = false ∧ ((s.chan 0).active = true ∧ (s.chan 0).mode = .stream)
    ∧ ((s'.chan 0).active = true ∧ (s'.chan 0).mode ≠ .stream) := by decide

theorem witness_CloseFlushesFirst :
    let s := twoChans { streamChan with block := some 1 } closedChan
    let i := Instr.closeCmd 0 0 0 5
    (atPhase s i .c3).seq = .busy i .c3 {} ∧ (atPhase s i .c4).seq = .busy i .c4 {}
    ∧ ((atPhase s i .c5).seq = .busy i .c5 {} ∧ ({} : Locals).cap = none)
    ∧ ((atPhase s i .c5 { cap := some 1 }).seq = .busy i .c5 { cap := some 1 } ∧ ({ cap := some 1 } : Locals).cap = some 1) := by
  decide

/-- With the other channel closed, and with the other channel active. -/
theorem witness_CloseTearsDown :
    let i := Instr.closeCmd 0 0 0 5
    let s := atPhase (twoChans streamChan closedChan) i .c6
    let s' := atPhase (twoChans streamChan waveChan) i .c6
    (s.seq = .busy i .c6 {} ∧ 0 < s.nch ∧ ∀ j, j < s.nch → j ≠ 0 → (s.chan j).active = false)
    ∧ (s'.seq = .busy i .c6 {} ∧ ∃ j, j < s'.nch ∧ j ≠ 0 ∧ (s'.chan j).active = true) :=
  ⟨by decide, by decide, 1, by decide⟩

/-- At the counts 2 (admitted) and 3 (rejected). -/
theorem witness_WriteChecks :
    let s := twoChans { streamChan with cnt := 2 } closedChan
    let s' := twoChans { streamChan with cnt := 3 } levelChan
    let i := Instr.writeCmd 0 1 4 7
    ((atPhase s i .w1).seq = .busy i .w1 {} ∧ (atPhase s i .w2).seq = .busy i .w2 {} ∧ (atPhase s i .w3).seq = .busy i .w3 {})
    ∧ (s.nch ≤ 2 ∧ 1 < s.nch) ∧ (s.chan 1).active = false
    ∧ ((s'.chan 1).active = true ∧ (s'.chan 1).mode ≠ .stream) ∧ ((s.chan 0).active = true ∧ (s.chan 0).mode = .stream)
    ∧ (2 < (s'.chan 0).cnt ∧ (s.chan 0).cnt ≤ 2) := by decide

theorem witness_WriteMapsBlock :
    let i := Instr.writeCmd 0 1 4 7
    let s := atPhase (twoChans streamChan closedChan) i .w4
    let s' := { s with mapIn := [.err 0x05] }
    (s.seq = .busy i .w4 {} ∧ s.mapAnswer 1 = .ok) ∧ (s'.seq = .busy i .w4 {} ∧ s'.mapAnswer 1 = .err 0x05) := by decide

theorem witness_WriteRecordsInFlight :
    let s := twoChans streamChan closedChan
    let i := Instr.writeCmd 0 1 4 7
    (atPhase s i .w5).seq = .busy i .w5 {} ∧ (atPhase s i .w6).seq = .busy i .w6 {} ∧ (atPhase s i .w7).seq = .busy i .w7 {} := by
  decide

/-- The branches at their edges: `c = 0, N = 1`; `c = 1`; `c = 2`. -/
theorem witness_WriteSnapshotsAndBranches :
    let s := twoChans streamChan closedChan
    let i := Instr.writeCmd 0 1 4 7
    (atPhase s i .w8).seq = .busy i .w8 {}
    ∧ ((atPhase s i .w9 { n := 1 }).seq = .busy i .w9 { n := 1 } ∧ ¬((0 : Int) = 0 ∧ 2 ≤ 1) ∧ (0 : Int) < 2)
    ∧ ((atPhase s i .w9 { n := 2, c := 1 }).seq = .busy i .w9 { n := 2, c := 1 } ∧ ¬((1 : Int) = 0 ∧ 2 ≤ 2) ∧ (1 : Int) < 2)
    ∧ ((atPhase s i .w9 { n := 2, c := 2 }).seq = .busy i .w9 { n := 2, c := 2 } ∧ (2 : Int) ≤ 2) := by decide

/-- A block of exactly two units. -/
theorem witness_WritePrimesTwoUnits :
    let i := Instr.writeCmd 0 1 4 7
    let s := atPhase (twoChans { streamChan with ptr := ⟨1, 0⟩ } closedChan) i .w9 { n := 2 }
    s.seq = .busy i .w9 { n := 2 } ∧ 0 < s.nch ∧ s.fault = none ∧ ({ n := 2 } : Locals).c = 0 ∧ 2 ≤ ({ n := 2 } : Locals).n
    ∧ Memory.wf (s.chan 0).fifo
    ∧ (s.chan 0).ptr.off + 2 * (s.cfg.h * s.cfg.sb) ≤ (s.blk (s.chan 0).ptr.handle).len := by decide

/-- The last unit of a block, for both values of `h`. -/
theorem witness_WritePrimesOneUnit :
    let i := Instr.writeCmd 0 1 4 7
    let s := fun hv => atPhase (twoChans { streamChan with ptr := ⟨1, 2⟩, fifo := [(0, 7)] } closedChan) i .w10 { h := hv }
    (∀ hv, (s hv).seq = .busy i .w10 { h := hv }) ∧ 0 < (s true).nch ∧ (s true).fault = none
    ∧ Memory.wf ((s true).chan 0).fifo
    ∧ ((s true).chan 0).ptr.off + (s true).cfg.h * (s true).cfg.sb ≤ ((s true).blk ((s true).chan 0).ptr.handle).len :=
  ⟨fun _ => rfl, by decide⟩

/-- A copy to half 0 with the running engine in half 0 (offset 1), and one with the engine in half 1 (offset 2). -/
theorem witness_CopyMarksRace :
    let s := twoChans { streamChan with ptr := ⟨1, 0⟩, timerRun := true, dmaPos := 1 } closedChan
    let s' := twoChans { streamChan with ptr := ⟨1, 0⟩, timerRun := true, dmaPos := 2 } closedChan
    (0 < s.nch ∧ s.overreads 0 2 = false ∧ (s.chan 0).timerRun = true ∧ (s.chan 0).dmaEn = true
      ∧ (0 + 1) / (s.cfg.h * s.cfg.sb) = (s.chan 0).dmaPos / (s.cfg.h * s.cfg.sb))
    ∧ (s'.overreads 0 2 = false
      ∧ ∀ i, i < 2 → (0 + i) / (s'.cfg.h * s'.cfg.sb) ≠ (s'.chan 0).dmaPos / (s'.cfg.h * s'.cfg.sb)) := by decide

/-- A block one byte short, for each copy. -/
theorem witness_OverreadFaultsAndWritesNothing :
    let i := Instr.writeCmd 0 1 4 7
    let s := twoChans { streamChan with ptr := ⟨1, 1⟩ } closedChan
    let s' := twoChans { streamChan with ptr := ⟨1, 3⟩, block := some 1, cnt := 3 } closedChan
    (0 < s.nch ∧ (1 ≤ s.cfg.h ∧ 1 ≤ s.cfg.sb) ∧ s.fault = none)
    ∧ ((atPhase s i .w9 { n := 2 }).seq = .busy i .w9 { n := 2 }
      ∧ (s.blk (s.chan 0).ptr.handle).len < (s.chan 0).ptr.off + 2 * (s.cfg.h * s.cfg.sb))
    ∧ ((atPhase s' i .w10).seq = .busy i .w10 {}
      ∧ (s'.blk (s'.chan 0).ptr.handle).len < (s'.chan 0).ptr.off + s'.cfg.h * s'.cfg.sb)
    ∧ ((s'.chan 0).block = some 1 ∧ 3 ≤ (s'.chan 0).cnt) := by decide

/-- `N = k`, and `N = k + 1`. -/
theorem witness_WriteCompletesWhenPrimed :
    let s := twoChans streamChan closedChan
    let i := Instr.writeCmd 0 1 4 7
    ((atPhase s i .w11 { n := 2, k := 2 }).seq = .busy i .w11 { n := 2, k := 2 } ∧ 2 ≤ 2)
    ∧ ((atPhase s i .w11 { n := 3, k := 2 }).seq = .busy i .w11 { n := 3, k := 2 } ∧ 2 < 3)
    ∧ (atPhase s i .w12).seq = .busy i .w12 {} := by decide

/-- The largest sum the counter holds, and the one above it. -/
theorem witness_WriteCountsUnits :
    let i := Instr.writeCmd 0 1 0xFFFFFFFF 7
    let s := fun n => atPhase (twoChans { streamChan with cnt := 2 } closedChan) i .w13 { n := n }
    (∀ n, (s n).seq = .busy i .w13 { n := n })
    ∧ (-(2 : Int) ^ (32 - 1) ≤ 2 + (2147483645 : Nat) ∧ (2 : Int) + (2147483645 : Nat) ≤ (2 : Int) ^ (32 - 1) - 1)
    ∧ ¬((2 : Int) + (2147483646 : Nat) ≤ (2 : Int) ^ (32 - 1) - 1) :=
  ⟨fun _ => rfl, by norm_num, by norm_num⟩

theorem witness_WriteStartsTimer :
    let i := Instr.writeCmd 0 1 4 7
    let s := twoChans streamChan { streamChan with rate := 0 }
    ((atPhase s i .w14 { needStart := true }).seq = .busy i .w14 { needStart := true } ∧ s.fault = none)
    ∧ (s.chan 0).rate ≠ 0 ∧ (s.chan 1).rate = 0 ∧ ({} : Locals).needStart = false := by decide

theorem witness_FlushChecks :
    let s := twoChans streamChan closedChan
    let s' := twoChans waveChan closedChan
    let i := Instr.flushCmd 0 0 0 5
    ((atPhase s i .f1).seq = .busy i .f1 {} ∧ (atPhase s i .f2).seq = .busy i .f2 {})
    ∧ (s.nch ≤ 2 ∧ 1 < s.nch) ∧ (s.chan 1).active = false ∧ ((s.chan 0).active = true ∧ (s.chan 0).mode = .stream)
    ∧ ((s'.chan 0).active = true ∧ (s'.chan 0).mode ≠ .stream) := by decide

theorem witness_FlushDetachesAndCancels :
    let s := twoChans { streamChan with block := some 1 } closedChan
    let i := Instr.flushCmd 0 0 0 5
    (atPhase s i .f3).seq = .busy i .f3 {} ∧ (atPhase s i .f4).seq = .busy i .f4 {}
    ∧ ((atPhase s i .f5).seq = .busy i .f5 {} ∧ ({} : Locals).cap = none)
    ∧ ((atPhase s i .f5 { cap := some 1 }).seq = .busy i .f5 { cap := some 1 } ∧ ({ cap := some 1 } : Locals).cap = some 1)
    ∧ (atPhase s i .f6).seq = .busy i .f6 {} := by decide

/-- For either command: an index out of range, a closed channel, a channel of another mode. -/
theorem witness_LevelAndWaveChecks :
    let s := twoChans streamChan closedChan
    let i := Instr.setLevel 0 9 0 1
    let j := Instr.setWave 0 3 9 7
    (∃ ch v b p, i = .setLevel ch v b p) ∧ (∃ ch t a p, j = .setWave ch t a p)
    ∧ (atPhase s i .l1).seq = .busy i .l1 {} ∧ (atPhase s j .v1).seq = .busy j .v1 {}
    ∧ s.nch ≤ 2 ∧ (1 < s.nch ∧ (s.chan 1).active = false)
    ∧ (0 < s.nch ∧ (s.chan 0).active = true ∧ (s.chan 0).mode ≠ .level ∧ (s.chan 0).mode ≠ .wave) :=
  ⟨⟨_, _, _, _, rfl⟩, ⟨_, _, _, _, rfl⟩, by decide⟩

theorem witness_SetLevelWritesSample :
    let i := Instr.setLevel 0 0x1234 0 1
    let s := atPhase (twoChans levelChan closedChan) i .l1
    s.seq = .busy i .l1 {} ∧ 0 < s.nch ∧ (s.chan 0).active = true ∧ (s.chan 0).mode = .level
    ∧ s.cfg.setLevelUsesValue = false ∧ ({ s.cfg with setLevelUsesValue := true } : Config).setLevelUsesValue = true := by
  decide

theorem witness_SetWaveZeroStopsOnly :
    let s := atPhase (twoChans closedChan waveChan) (.setWave 1 3 0 7) .v1
    s.seq = .busy (.setWave 1 3 0 7) .v1 {} ∧ 1 < s.nch ∧ (s.chan 1).active = true ∧ (s.chan 1).mode = .wave := by decide

theorem witness_SetWaveFillsAndRestarts :
    let s := atPhase (twoChans closedChan waveChan) (.setWave 1 3 9 7) .v1
    s.seq = .busy (.setWave 1 3 9 7) .v1 {} ∧ (1 ≤ s.cfg.h ∧ 1 ≤ s.cfg.sb) ∧ s.fault = none ∧ 1 < s.nch
    ∧ (s.chan 1).active = true ∧ (s.chan 1).mode = .wave ∧ (9 : Word) ≠ 0 ∧ (s.chan 1).rate ≠ 0
    ∧ Memory.wf (s.chan 1).fifo := by decide

/-- V-V6: a wave channel opened at rate 0. -/
theorem witness_SetWaveAtRateZeroFaults :
    let s := atPhase (twoChans closedChan { waveChan with rate := 0 }) (.setWave 1 3 9 7) .v1
    s.seq = .busy (.setWave 1 3 9 7) .v1 {} ∧ s.fault = none ∧ 1 < s.nch ∧ (s.chan 1).active = true
    ∧ (s.chan 1).mode = .wave ∧ (9 : Word) ≠ 0 ∧ (s.chan 1).rate = 0 ∧ Memory.wf (s.chan 1).fifo := by decide

/-- The least count that still copies, on the block's last unit. -/
theorem witness_RefillCopiesOneUnit :
    let s := twoChans { streamChan with cnt := 3, block := some 2, ptr := ⟨2, 4⟩, htif := true } closedChan
    0 < s.nch ∧ s.fault = none ∧ Memory.wf (s.chan 0).fifo ∧ (s.chan 0).block = some 2 ∧ 3 ≤ (s.chan 0).cnt
    ∧ (s.chan 0).ptr.off + s.cfg.h * s.cfg.sb ≤ (s.blk (s.chan 0).ptr.handle).len := by decide

/-- The greatest count that completes, and the greatest that underflows. -/
theorem witness_RefillCompletesAndUnderflows :
    let s := twoChans { streamChan with cnt := 2, block := some 2 } { streamChan with cnt := 1 }
    0 < s.nch ∧ s.fault = none ∧ (s.chan 0).cnt ≤ 2 ∧ 1 < s.nch ∧ (s.chan 1).cnt ≤ 2 := by decide

theorem witness_RefillWithoutBlockCountsOnly :
    let s := twoChans { streamChan with cnt := 2 } closedChan
    0 < s.nch ∧ s.fault = none ∧ (s.chan 0).block = none ∧ 2 ≤ (s.chan 0).cnt := by decide

/-- A tick to `HB` (position 1), one to 0 (position 3), and one to neither (position 0). -/
theorem witness_TickMovesOneSample :
    let s := twoChans { streamChan with dmaPos := 1 } { streamChan with dmaPos := 3 }
    (1 ≤ s.cfg.h ∧ 1 ≤ s.cfg.sb) ∧ 0 < s.nch ∧ 1 < s.nch
    ∧ ((s.chan 0).dmaPos + s.cfg.sb) % (2 * (s.cfg.h * s.cfg.sb)) = s.cfg.h * s.cfg.sb
    ∧ ((s.chan 1).dmaPos + s.cfg.sb) % (2 * (s.cfg.h * s.cfg.sb)) = 0
    ∧ ((closedChan).dmaPos + s.cfg.sb) % (2 * (s.cfg.h * s.cfg.sb)) = 1 := by decide

theorem witness_ResetState : 0 < 2 ∧ 1 < 2 := by decide

theorem witness_ResetMeetsInvariant : ConfigOk vectorConfig ∧ ConfigOk { h := 1, sb := 1 } := by
  simp [ConfigOk, vectorConfig]

/-- The invariant holds of a machine in the middle of a Write, with a running stream channel and a wave channel. -/
theorem midWrite_inv :
    Inv (atPhase (twoChans { streamChan with cnt := 2, timerRun := true, dmaPos := 3, fifo := [(1, 9)] } waveChan)
      (.writeCmd 0 1 4 7) .w9 { n := 2, c := 2 }) := by
  refine ⟨⟨by decide, by decide⟩, rfl, fun _ _ _ => rfl, fun ch hch => ?_, fun i ph loc h => ?_, ?_⟩
  · have : ch = 0 ∨ ch = 1 := by
      have : ch < 2 := hch
      omega
    rcases this with rfl | rfl <;> constructor <;> decide
  · cases h
    exact ⟨by decide, by decide, by decide, by decide, by decide, by decide⟩
  · constructor <;> decide

theorem witness_StepKeepsInvariant :
    let s := atPhase (twoChans { streamChan with cnt := 2, timerRun := true, dmaPos := 3, fifo := [(1, 9)] } waveChan)
      (.writeCmd 0 1 4 7) .w9 { n := 2, c := 2 }
    Inv s ∧ step s = .next (s.goto (.writeCmd 0 1 4 7) .w11 { n := 2, c := 2, k := 0 }) := ⟨midWrite_inv, rfl⟩

/-- A closed channel about to be opened and an open one about to be closed, each in a state that meets the invariant. -/
theorem witness_OnlyOpenAndCloseChangeLifecycle :
    let s := atPhase State.reset (.openCmd 1 0 0 7) .o1
    let s' := atPhase (twoChans levelChan closedChan) (.closeCmd 0 0 0 5) .c6
    (Inv s ∧ 1 < s.nch ∧ ∃ t, step s = .next t ∧ (t.chan 1).lifecycle ≠ (s.chan 1).lifecycle)
    ∧ (Inv s' ∧ 0 < s'.nch ∧ ∃ t, step s' = .next t ∧ (t.chan 0).lifecycle ≠ (s'.chan 0).lifecycle) := by
  refine ⟨⟨?_, by decide, _, rfl, by decide⟩, ?_, by decide, _, rfl, by decide⟩
  · refine ⟨⟨by decide, by decide⟩, rfl, fun ch hch h => ?_, fun ch hch => ?_, fun i ph loc h => ?_, ?_⟩
    · have : ch = 0 ∨ ch = 1 := by
        have : ch < 2 := hch
        omega
      rcases this with rfl | rfl <;> cases h
    · have : ch = 0 ∨ ch = 1 := by
        have : ch < 2 := hch
        omega
      rcases this with rfl | rfl <;> constructor <;> decide
    · cases h
      exact ⟨by decide, by decide, by decide, by decide, by decide, by decide⟩
    · constructor <;> decide
  · refine ⟨⟨by decide, by decide⟩, rfl, fun _ _ _ => rfl, fun ch hch => ?_, fun i ph loc h => ?_, ?_⟩
    · have : ch = 0 ∨ ch = 1 := by
        have : ch < 2 := hch
        omega
      rcases this with rfl | rfl <;> constructor <;> decide
    · cases h
      exact ⟨by decide, by decide, by decide, by decide, by decide, by decide⟩
    · constructor <;> decide

/-- One step of each writer of the count. -/
theorem witness_CountWriters :
    let s := atPhase (twoChans { streamChan with active := false, cnt := 5 } closedChan) (.openCmd 0 1 8000 7) .o1
    let s' := atPhase (twoChans streamChan closedChan) (.writeCmd 0 1 4 7) .w13 { n := 2 }
    let s'' := { twoChans { streamChan with cnt := 4, htif := true } closedChan with sched := [.irq 0] }
    (0 < s.nch ∧ ∃ t, step s = .next t ∧ (t.chan 0).cnt ≠ (s.chan 0).cnt)
    ∧ (∃ t, step s' = .next t ∧ (t.chan 0).cnt ≠ (s'.chan 0).cnt)
    ∧ ∃ t, step s'' = .next t ∧ (t.chan 0).cnt ≠ (s''.chan 0).cnt :=
  ⟨⟨by decide, _, rfl, by decide⟩, ⟨_, rfl, by decide⟩, _, rfl, by decide⟩

/-- An Open that resets the position, and a tick that wraps it. -/
theorem witness_PositionWriters :
    let s := atPhase (twoChans { closedChan with dmaPos := 2 } closedChan) (.openCmd 0 1 8000 7) .o1
    let s' := { twoChans { streamChan with timerRun := true, dmaPos := 3 } closedChan with sched := [.tick 0] }
    (0 < s.nch ∧ ∃ t, step s = .next t ∧ (t.chan 0).dmaPos ≠ (s.chan 0).dmaPos)
    ∧ ∃ t, step s' = .next t ∧ (t.chan 0).dmaPos ≠ (s'.chan 0).dmaPos :=
  ⟨⟨by decide, _, rfl, by decide⟩, _, rfl, by decide⟩

theorem witness_TracesGrowAndMarksStick :
    let s := { twoChans { streamChan with timerRun := true, race := true, overrun := true } closedChan with sched := [.tick 0] }
    (∃ t, step s = .next t) ∧ (s.chan 0).race = true ∧ (s.chan 0).overrun = true := ⟨⟨_, rfl⟩, by decide⟩

theorem witness_OtherChannelsUntouched :
    let i := Instr.closeCmd 0 0 0 5
    (1 : Nat) ≠ 0 ∧ i.chIdx = 0 ∧ ∃ t, exec i (atPhase (twoChans streamChan waveChan) i .c6) = .next t :=
  ⟨by decide, rfl, _, rfl⟩

theorem witness_CommandsAreSerial :
    let s := atPhase { twoChans streamChan closedChan with rq := [closeReq] } (.writeCmd 0 1 4 7) .w8
    (∃ t, step s = .next t) ∧ s.seq = .busy (.writeCmd 0 1 4 7) .w8 {} := ⟨⟨_, rfl⟩, rfl⟩

theorem witness_BlocksChangeOnlyByTheHost :
    let s := { twoChans streamChan closedChan with sched := [.supply 1 [0x55]] }
    let q := { s with rq := [writeReq] }
    BlocksInv s.blocks ∧ (∃ t, step s = .next t ∧ t.blk 1 ≠ s.blk 1) ∧ s.fault = none
    ∧ s.sched = .supply 1 [0x55] :: [] ∧ s.unanswered 1 = false ∧ q.unanswered 1 = true := by
  refine ⟨?_, ⟨_, rfl, by decide⟩, by decide⟩
  constructor <;> decide

/-- One step of each writer of the block in flight. -/
theorem witness_InFlightBlockWriters :
    let s1 := atPhase (twoChans { closedChan with block := some 1 } closedChan) (.openCmd 0 1 8000 7) .o1
    let s2 := atPhase (twoChans streamChan closedChan) (.writeCmd 0 1 4 7) .w5
    let s3 := atPhase (twoChans { streamChan with block := some 1 } closedChan) (.writeCmd 0 1 4 7) .w12
    let s4 := atPhase (twoChans { streamChan with block := some 1 } closedChan) (.flushCmd 0 0 0 5) .f4
    let s5 := atPhase (twoChans { streamChan with block := some 1 } closedChan) (.closeCmd 0 0 0 5) .c4
    let s6 := { twoChans { streamChan with block := some 1, cnt := 2, htif := true } closedChan with sched := [.irq 0] }
    (0 < s1.nch ∧ ∃ t, step s1 = .next t ∧ (t.chan 0).block ≠ (s1.chan 0).block)
    ∧ (∃ t, step s2 = .next t ∧ (t.chan 0).block ≠ (s2.chan 0).block)
    ∧ (∃ t, step s3 = .next t ∧ (t.chan 0).block ≠ (s3.chan 0).block)
    ∧ (∃ t, step s4 = .next t ∧ (t.chan 0).block ≠ (s4.chan 0).block)
    ∧ (∃ t, step s5 = .next t ∧ (t.chan 0).block ≠ (s5.chan 0).block)
    ∧ ∃ t, step s6 = .next t ∧ (t.chan 0).block ≠ (s6.chan 0).block :=
  ⟨⟨by decide, _, rfl, by decide⟩, ⟨_, rfl, by decide⟩, ⟨_, rfl, by decide⟩, ⟨_, rfl, by decide⟩, ⟨_, rfl, by decide⟩,
    _, rfl, by decide⟩

theorem witness_CommandsEndWithin14Phases :
    let s := atPhase (twoChans streamChan closedChan) (.writeCmd 0 1 4 7) .w1
    s.fault = none ∧ s.sched = [] ∧ s.seq = .busy (.writeCmd 0 1 4 7) .w1 {} ∧ .w1 ∈ phasesOf (.writeCmd 0 1 4 7) := by decide

/-- `N = 2` (4 bytes) and `N = 3` (6 bytes). -/
theorem witness_IdleWriteRunsToItsEnd :
    let s := { twoChans streamChan closedChan with rq := [writeReq] }
    (s.fault = none ∧ s.sched = [] ∧ s.irqMask = false ∧ s.seq = .idle ∧ s.rq = writeReq :: []
      ∧ decode writeReq = .ok (.writeCmd 0 1 4 7) ∧ (1 ≤ s.cfg.h ∧ 1 ≤ s.cfg.sb))
    ∧ (0 < s.nch ∧ (s.chan 0).active = true ∧ (s.chan 0).mode = .stream ∧ (s.chan 0).cnt = 0 ∧ (s.chan 0).rate ≠ 0)
    ∧ (2 ≤ (4 : Word).toNat / (s.cfg.h * s.cfg.sb) ∧ (6 : Word).toNat / (s.cfg.h * s.cfg.sb) = 3
      ∧ ((3 : Nat) : Int) < (2 : Int) ^ (s.cfg.cntBits - 1) ∧ s.mapAnswer 1 = .ok
      ∧ 2 * (s.cfg.h * s.cfg.sb) ≤ (s.blk 1).len) := by decide

/-- The least number of units, and one more with the last unit of the block. -/
theorem witness_EventsDrainTheBlock :
    let s := twoChans { streamChan with block := some 2, cnt := 2, ptr := ⟨2, 6⟩ } { streamChan with block := some 2, cnt := 4, ptr := ⟨2, 2⟩ }
    (0 < s.nch ∧ s.fault = none ∧ s.irqMask = false ∧ (s.chan 0).irqEn = true ∧ (s.chan 0).block = some 2 ∧ 2 ≤ 2
      ∧ Memory.wf (s.chan 0).fifo ∧ Memory.wf (s.chan 1).fifo
      ∧ (s.chan 0).cnt = (2 : Nat) ∧ (s.chan 0).ptr.off + (2 - 2) * (s.cfg.h * s.cfg.sb) ≤ (s.blk (s.chan 0).ptr.handle).len)
    ∧ ((s.chan 1).cnt = (4 : Nat)
      ∧ (s.chan 1).ptr.off + (4 - 2) * (s.cfg.h * s.cfg.sb) ≤ (s.blk (s.chan 1).ptr.handle).len) := by decide

theorem witness_FlushRunsToItsEnd :
    let s := { twoChans { streamChan with block := some 1 } closedChan with rq := [⟨0x00000004, 0, 0, 5⟩] }
    (s.fault = none ∧ s.sched = [] ∧ s.irqMask = false ∧ s.seq = .idle ∧ s.rq = ⟨0x00000004, 0, 0, 5⟩ :: [])
    ∧ decode ⟨0x00000004, 0, 0, 5⟩ = .ok (.flushCmd 0 0 0 5) ∧ 0 < s.nch ∧ (s.chan 0).active = true
    ∧ (s.chan 0).mode = .stream := by decide

/-- In level and in stream mode. -/
theorem witness_OpenThenCloseRestores :
    let s := { State.reset with rq := [⟨0x00000001, 0, 0, 1⟩, closeReq], allocIn := [.ok] }
    let s' := { State.reset with rq := [⟨0x00000001, 1, 0x1F40, 7⟩, closeReq], allocIn := [.ok] }
    (s.fault = none ∧ s.sched = [] ∧ s.seq = .idle ∧ s.rq = [⟨0x00000001, 0, 0, 1⟩, closeReq]
      ∧ s'.rq = [⟨0x00000001, 1, 0x1F40, 7⟩, closeReq])
    ∧ (decode ⟨0x00000001, 0, 0, 1⟩ = .ok (.openCmd 0 0 0 1) ∧ decode ⟨0x00000001, 1, 0x1F40, 7⟩ = .ok (.openCmd 0 1 8000 7)
      ∧ decode closeReq = .ok (.closeCmd 0 0 0 5))
    ∧ (0 < s.nch ∧ (0 : Word).toNat ≤ 2 ∧ (1 : Word).toNat ≤ 2 ∧ s'.allocAnswer = .ok ∧ (s.chan 0).active = false)
    ∧ ChannelInv s.cfg (s.chan 0) := by
  refine ⟨by decide, by decide, by decide, ?_⟩
  constructor <;> decide

end Sys2Proof.Tests
end

/-! ## Proofs about the state: reset, the invariant, and who writes which register

`PhaseRun` says once which next state each phase of each command has. What a step keeps (`Extends`, `regs`, `Inv`) is then
shown operation by operation, lifted to the phases by cases on `PhaseRun`, and to the step by `step_cases`. -/

namespace Sys2Proof.Machine

variable {s t u : State}

/-! ### Reset -/

/-- Every record right after reset is the reset record, also one out of range. -/
@[simp] theorem resetOf_chan (cfg : Config) (nch ch : Nat) : (State.resetOf cfg nch).chan ch = Channel.reset cfg := by
  simp only [State.chan, State.resetOf, List.getD_eq_getElem?_getD, List.getElem?_replicate]
  split <;> rfl

@[simp] theorem resetOf_nch (cfg : Config) (nch : Nat) : (State.resetOf cfg nch).nch = nch := by
  simp [State.nch, State.resetOf]

/-- Settles O44: the fields of `State.resetOf` and of `Channel.reset`. -/
theorem resetState : Obligations.ResetState := by
  intro cfg nch
  refine ⟨resetOf_nch cfg nch, rfl, rfl, rfl, rfl, rfl, rfl, rfl, fun ch _ => ?_⟩
  rw [resetOf_chan]
  exact ⟨rfl, rfl, read_nil, rfl, rfl, rfl, rfl, rfl, rfl, rfl, rfl, rfl, rfl⟩

/-- A channel after reset is closed and off, with an empty FIFO memory (R51). -/
theorem channelInv_reset {cfg : Config} (h : ConfigOk cfg) : ChannelInv cfg (Channel.reset cfg) := by
  constructor <;> simp [Channel.reset, Memory.wf, fbOf_pos h]

theorem inv_resetOf {cfg : Config} (h : ConfigOk cfg) (nch : Nat) : Inv (State.resetOf cfg nch) := by
  refine inv_of_idle ⟨h, rfl, fun ch _ ha => ?_, fun ch _ => ?_, ?_⟩ rfl
  · simp [Channel.reset] at ha
  · rw [resetOf_chan]; exact channelInv_reset h
  · constructor <;> simp [State.resetOf]

/-- Settles O45; `State.reset` is the case of `vectorConfig` and two channels. -/
theorem resetMeetsInvariant : Obligations.ResetMeetsInvariant :=
  ⟨fun _ nch h => inv_resetOf h nch, inv_resetOf ⟨by decide, by decide⟩ 2⟩

/-! ### The turn of a busy sequencer, and the stop -/

/-- Settles O8: whichever of the three ways the sequencer holds the turn, `seqTurn` runs the command `seq` names. -/
theorem stepRunsBusyPhase : Obligations.StepRunsBusyPhase := by
  intro s i ph loc ts hf hb
  refine ⟨fun hs => ?_, fun hs => ?_, fun hs => step_busy hf hs hb⟩
  · simp [step_of_running hf, turnStep, hs, seqTurn, hb]
  · simp [step_of_running hf, turnStep, hs, State.seqEnabled, seqTurn, hb]

/-- Settles O13. -/
theorem faultStopsTheMachine : Obligations.FaultStopsTheMachine := by
  intro s r h
  simp [step, h]

/-! ### Which next state a phase has -/

/-- The next state of `exec i` for a sequencer in phase `ph` with the locals `loc`: one constructor per phase, and one for a
phase that is none of the command's (log 11). -/
inductive PhaseRun (s : State) : Instr → Phase → Locals → State → Prop
  | o1 (ch mode rate p loc) : PhaseRun s (.openCmd ch mode rate p) .o1 loc (openO1 ch mode rate p s)
  | c1 (ch a b p loc) : PhaseRun s (.closeCmd ch a b p) .c1 loc (closeC1 (.closeCmd ch a b p) ch loc s)
  | c2 (ch a b p loc) : PhaseRun s (.closeCmd ch a b p) .c2 loc (closeC2 (.closeCmd ch a b p) ch loc s)
  | c3 (ch a b p loc) : PhaseRun s (.closeCmd ch a b p) .c3 loc ((flushStop ch s).goto (.closeCmd ch a b p) .c4 loc)
  | c4 (ch a b p loc) : PhaseRun s (.closeCmd ch a b p) .c4 loc
      ((flushDetach ch s).goto (.closeCmd ch a b p) .c5 { loc with cap := (s.chan ch).block })
  | c5 (ch a b p loc) : PhaseRun s (.closeCmd ch a b p) .c5 loc
      ((flushCancel ch loc.cap s).goto (.closeCmd ch a b p) .c6 loc)
  | c6 (ch a b p loc) : PhaseRun s (.closeCmd ch a b p) .c6 loc (closeC6 (.closeCmd ch a b p) ch s)
  | f1 (ch a b p loc) : PhaseRun s (.flushCmd ch a b p) .f1 loc (flushF1 (.flushCmd ch a b p) ch loc s)
  | f2 (ch a b p loc) : PhaseRun s (.flushCmd ch a b p) .f2 loc (flushF2 (.flushCmd ch a b p) ch loc s)
  | f3 (ch a b p loc) : PhaseRun s (.flushCmd ch a b p) .f3 loc ((flushStop ch s).goto (.flushCmd ch a b p) .f4 loc)
  | f4 (ch a b p loc) : PhaseRun s (.flushCmd ch a b p) .f4 loc
      ((flushDetach ch s).goto (.flushCmd ch a b p) .f5 { loc with cap := (s.chan ch).block })
  | f5 (ch a b p loc) : PhaseRun s (.flushCmd ch a b p) .f5 loc
      ((flushCancel ch loc.cap s).goto (.flushCmd ch a b p) .f6 loc)
  | f6 (ch a b p loc) : PhaseRun s (.flushCmd ch a b p) .f6 loc (s.finishOk (.flushCmd ch a b p))
  | l1 (ch v b p loc) : PhaseRun s (.setLevel ch v b p) .l1 loc (levelL1 (.setLevel ch v b p) ch v s)
  | v1 (ch w a p loc) : PhaseRun s (.setWave ch w a p) .v1 loc (waveV1 (.setWave ch w a p) ch w a s)
  | w1 (ch bl sz p loc) : PhaseRun s (.writeCmd ch bl sz p) .w1 loc (writeW1 (.writeCmd ch bl sz p) ch loc s)
  | w2 (ch bl sz p loc) : PhaseRun s (.writeCmd ch bl sz p) .w2 loc (writeW2 (.writeCmd ch bl sz p) ch loc s)
  | w3 (ch bl sz p loc) : PhaseRun s (.writeCmd ch bl sz p) .w3 loc (writeW3 (.writeCmd ch bl sz p) ch loc s)
  | w4 (ch bl sz p loc) : PhaseRun s (.writeCmd ch bl sz p) .w4 loc (writeW4 (.writeCmd ch bl sz p) ch bl loc s)
  | w5 (ch bl sz p loc) : PhaseRun s (.writeCmd ch bl sz p) .w5 loc (writeW5 (.writeCmd ch bl sz p) ch bl loc s)
  | w6 (ch bl sz p loc) : PhaseRun s (.writeCmd ch bl sz p) .w6 loc (writeW6 (.writeCmd ch bl sz p) ch p loc s)
  | w7 (ch bl sz p loc) : PhaseRun s (.writeCmd ch bl sz p) .w7 loc (writeW7 (.writeCmd ch bl sz p) ch sz loc s)
  | w8 (ch bl sz p loc) : PhaseRun s (.writeCmd ch bl sz p) .w8 loc (writeW8 (.writeCmd ch bl sz p) ch loc s)
  | w9 (ch bl sz p loc) : PhaseRun s (.writeCmd ch bl sz p) .w9 loc (writeW9 (.writeCmd ch bl sz p) ch loc s)
  | w10 (ch bl sz p loc) : PhaseRun s (.writeCmd ch bl sz p) .w10 loc (writeW10 (.writeCmd ch bl sz p) ch loc s)
  | w11 (ch bl sz p loc) : PhaseRun s (.writeCmd ch bl sz p) .w11 loc (writeW11 (.writeCmd ch bl sz p) ch bl sz p loc s)
  | w12 (ch bl sz p loc) : PhaseRun s (.writeCmd ch bl sz p) .w12 loc (writeW12 (.writeCmd ch bl sz p) ch loc s)
  | w13 (ch bl sz p loc) : PhaseRun s (.writeCmd ch bl sz p) .w13 loc (writeW13 (.writeCmd ch bl sz p) ch loc s)
  | w14 (ch bl sz p loc) : PhaseRun s (.writeCmd ch bl sz p) .w14 loc (writeW14 ch loc s)
  | stray (i ph loc) : ph ∉ phasesOf i → PhaseRun s i ph loc (s.enter i (firstPhase i))

/-- The inversion of a phase (R44, R160, R136, R210): `exec` of the running command has the next state its phase gives. -/
theorem phaseRun_of_exec {i : Instr} {ph : Phase} {loc : Locals} (hb : s.seq = .busy i ph loc)
    (h : exec i s = .next t) : PhaseRun s i ph loc t := by
  by_cases hp : ph ∈ phasesOf i
  · cases i
    all_goals
      simp only [exec, execOpen, execClose, execWrite, execFlush, execSetLevel, execSetWave, hb] at h
      simp only [phasesOf, List.mem_cons, List.not_mem_nil, or_false] at hp
      rcases hp with rfl | rfl | rfl | rfl | rfl | rfl | rfl | rfl | rfl | rfl | rfl | rfl | rfl | rfl
      all_goals
        cases h
        constructor
  · rw [exec_other hb hp] at h
    cases h
    exact .stray i ph loc hp

/-! ### What every step extends -/

/-- The DAC trace of a channel only grows at its end, and its marks stick (R47, R50). -/
structure ChanExtends (c d : Channel) : Prop where
  trace : c.dacTrace <+: d.dacTrace
  race : c.race = true → d.race = true
  overrun : c.overrun = true → d.overrun = true

theorem ChanExtends.refl (c : Channel) : ChanExtends c c := ⟨List.prefix_rfl, id, id⟩

theorem ChanExtends.trans {c d e : Channel} (h : ChanExtends c d) (h' : ChanExtends d e) : ChanExtends c e :=
  ⟨h.trace.trans h'.trace, h'.race ∘ h.race, h'.overrun ∘ h.overrun⟩

/-- What holds from `s` to `t` while the sequencer runs command `i`: the parameters and the queue are the same, the traces
have grown at their ends, the marks stick, and the sequencer is where it was, idle, or in another phase of `i`. -/
structure Extends (i : Instr) (s t : State) : Prop where
  cfg : t.cfg = s.cfg
  nch : t.nch = s.nch
  rq : t.rq = s.rq
  seq : t.seq = s.seq ∨ t.seq = .idle ∨ ∃ ph loc, t.seq = .busy i ph loc
  resp : s.resp <+: t.resp
  ctl : s.ctl <+: t.ctl
  chan : ∀ ch, ChanExtends (s.chan ch) (t.chan ch)

namespace Extends

variable {i : Instr}

theorem refl (s : State) : Extends i s s :=
  ⟨rfl, rfl, rfl, .inl rfl, List.prefix_rfl, List.prefix_rfl, fun _ => .refl _⟩

theorem trans (h : Extends i s t) (h' : Extends i t u) : Extends i s u where
  cfg := h'.cfg.trans h.cfg
  nch := h'.nch.trans h.nch
  rq := h'.rq.trans h.rq
  seq := by
    rcases h'.seq with e | e
    · rw [e]; exact h.seq
    · exact .inr e
  resp := h.resp.trans h'.resp
  ctl := h.ctl.trans h'.ctl
  chan ch := (h.chan ch).trans (h'.chan ch)

/-- A change of none of the fields `Extends` speaks of. -/
theorem same (h : Extends i s t) (hcfg : u.cfg = t.cfg := by rfl) (hchans : u.chans = t.chans := by rfl)
    (hrq : u.rq = t.rq := by rfl) (hseq : u.seq = t.seq := by rfl) (hresp : u.resp = t.resp := by rfl)
    (hctl : u.ctl = t.ctl := by rfl) : Extends i s u :=
  h.trans ⟨hcfg, by simp [State.nch, hchans], hrq, .inl hseq, hresp ▸ List.prefix_rfl, hctl ▸ List.prefix_rfl,
    fun ch => by rw [State.chan, State.chan, hchans, hcfg]; exact .refl _⟩

theorem modChan (h : Extends i s t) {ch : Nat} {f : Channel → Channel} (hf : ∀ c, ChanExtends c (f c)) :
    Extends i s (t.modChan ch f) := by
  refine h.trans ⟨rfl, by simp, rfl, .inl rfl, List.prefix_rfl, List.prefix_rfl, fun j => ?_⟩
  rw [modChan_chan]
  split
  · rename_i e; rw [e.1]; exact hf _
  · exact .refl _

/-- An update of registers `ChanExtends` does not speak of. -/
theorem modRegs (h : Extends i s t) {ch : Nat} {f : Channel → Channel}
    (hf : ∀ c, (f c).dacTrace = c.dacTrace ∧ (f c).race = c.race ∧ (f c).overrun = c.overrun := by
      exact fun _ => ⟨rfl, rfl, rfl⟩) : Extends i s (t.modChan ch f) :=
  h.modChan fun c => by
    obtain ⟨htrace, hrace, hover⟩ := hf c
    exact ⟨htrace ▸ List.prefix_rfl, hrace ▸ id, hover ▸ id⟩

theorem emit (h : Extends i s t) {r : Response} : Extends i s (t.emit r) :=
  { h with resp := h.resp.trans (List.prefix_append _ _) }

theorem logCall (h : Extends i s t) {c : TimerCall} : Extends i s (t.logCall c) :=
  { h with ctl := h.ctl.trans (List.prefix_append _ _) }

theorem endCommand (h : Extends i s t) : Extends i s { t with seq := .idle } :=
  { h with seq := .inr (.inl rfl) }

theorem goto (h : Extends i s t) {ph : Phase} {loc : Locals} : Extends i s (t.goto i ph loc) :=
  { h with seq := .inr (.inr ⟨ph, loc, rfl⟩) }

theorem raiseFail (h : Extends i s t) {st : Status} : Extends i s (t.raiseFail i st) := h.emit.endCommand

theorem finishOk (h : Extends i s t) : Extends i s (t.finishOk i) := h.emit.endCommand

theorem allocAsked (h : Extends i s t) : Extends i s t.allocAsked := by
  unfold State.allocAsked
  split <;> exact h.same

theorem mapAsked (h : Extends i s t) : Extends i s t.mapAsked := by
  unfold State.mapAsked
  split <;> exact h.same

/-- A critical section around an update of one channel (R88). -/
theorem critical (h : Extends i s t) {ch : Nat} {f : Channel → Channel}
    (hf : ∀ c, (f c).dacTrace = c.dacTrace ∧ (f c).race = c.race ∧ (f c).overrun = c.overrun := by
      exact fun _ => ⟨rfl, rfl, rfl⟩) : Extends i s (t.critical fun s => s.modChan ch f) :=
  (h.modRegs (ch := ch) hf).same

theorem unlessFault (h : Extends i s t) {f : State → State} (hf : Extends i s (f t)) :
    Extends i s (t.unlessFault f) := by
  unfold State.unlessFault
  split
  · exact hf
  · exact h

theorem timerStop (h : Extends i s t) {ch : Nat} : Extends i s (t.timerStop ch) := .logCall h.modRegs

theorem timerStart (h : Extends i s t) {ch rate : Nat} : Extends i s (t.timerStart ch rate) := by
  unfold State.timerStart
  split
  · exact h.same
  · exact .logCall h.modRegs

theorem fifoCopy (h : Extends i s t) {ch dst n : Nat} : Extends i s (t.fifoCopy ch dst n) := by
  rcases fifoCopy_cases t ch dst n with ⟨-, e⟩ | ⟨-, e⟩ <;> rw [e]
  · exact h.same
  · exact h.modChan fun c => ⟨List.prefix_rfl, fun hr => by simp [copyInto, hr], id⟩

theorem dacWrite (h : Extends i s t) {ch : Nat} {v : Sample} : Extends i s (t.dacWrite ch v) :=
  h.modChan fun _ => ⟨List.prefix_append _ _, id, id⟩

theorem flushCancel (h : Extends i s t) {ch : Nat} {cap : Option Word} : Extends i s (flushCancel ch cap t) := by
  cases cap with
  | none => exact h
  | some _ => exact h.emit

theorem closeClock (h : Extends i s t) {ch : Nat} : Extends i s (t.closeClock ch) := by
  unfold State.closeClock
  split
  · exact h.same
  · exact h

theorem tick (h : Extends i s t) {ch : Nat} : Extends i s (t.tick ch) := by
  refine h.modChan fun c => ?_
  have hmove : ChanExtends c (moveSample t.cfg c) := ⟨List.prefix_append _ _, id, id⟩
  refine hmove.trans ?_
  unfold raiseEvents
  dsimp only
  split <;> split <;> exact ⟨List.prefix_rfl, id, fun ho => by simp [raiseHt, raiseTc, ho]⟩

theorem refillServe (h : Extends i s t) {ch : Nat} : Extends i s (t.refillServe ch) := by
  unfold State.refillServe State.refillComplete
  split
  · exact h
  · split
    · exact h.fifoCopy
    · exact .modRegs h.emit

theorem refillUnderflow (h : Extends i s t) {ch : Nat} : Extends i s (t.refillUnderflow ch) := by
  unfold State.refillUnderflow
  have hstop : Extends i s ((t.modChan ch fun c => { c with half := false }).timerStop ch) := .timerStop h.modRegs
  split
  · dsimp only
    split
    · exact hstop.emit
    · exact hstop
  · exact h

theorem refill (h : Extends i s t) {ch : Nat} : Extends i s (t.refill ch) :=
  have hserve : Extends i s ((t.refillCount ch).refillServe ch) := .refillServe h.modRegs
  hserve.unlessFault hserve.refillUnderflow

theorem supply (h : Extends i s t) {w : Word} {bytes : List Byte} : Extends i s (t.supply w bytes) := by
  unfold State.supply
  split
  · exact h
  · exact h.same

end Extends

/-! ### The whole phase of OPEN -/

/-- The record an OPEN that passes its checks leaves (R132). -/
def openedRecord (cfg : Config) (m : Mode) (rate : Word) (c : Channel) : Channel :=
  match m with
  | .level =>
    { c with dacEn := true, dacDr := zeroSample cfg, dacTrace := c.dacTrace ++ [zeroSample cfg]
             mode := .level, rate := rate, active := true }
  | .stream =>
    { c with fifoValid := true, fifo := [], timerRun := false, dmaEn := true, dmaPos := 0, htif := false, tcif := false
             irqEn := true, cnt := 0, half := false, block := none, dacEn := true
             mode := .stream, rate := rate, active := true }
  | .wave =>
    { c with fifoValid := true, fifo := [], timerRun := false, dmaEn := true, dmaPos := 0, htif := false, tcif := false
             dacEn := true, mode := .wave, rate := rate, active := true }

/-- The state in which OPEN writes the record: the clock on, the allocator asked in stream and wave mode (R132, R133). -/
def State.openReady (s : State) (m : Mode) : State :=
  if m = .level then s.setClock true else (s.setClock true).allocAsked

theorem Extends.openReady {i : Instr} (h : Extends i s t) {m : Mode} : Extends i s (t.openReady m) := by
  unfold State.openReady
  split
  · exact h.same
  · exact .allocAsked h.same

@[simp] theorem openReady_chan (s : State) (m : Mode) (j : Nat) : (s.openReady m).chan j = s.chan j := by
  unfold State.openReady; split <;> simp

@[simp] theorem openReady_cfg (s : State) (m : Mode) : (s.openReady m).cfg = s.cfg := by
  unfold State.openReady; split <;> simp

@[simp] theorem openReady_nch (s : State) (m : Mode) : (s.openReady m).nch = s.nch := by
  unfold State.openReady; split <;> simp

@[simp] theorem openReady_clkEn (s : State) (m : Mode) : (s.openReady m).clkEn = true := by
  unfold State.openReady; split <;> simp

/-- Phase `O1` either fails, before or after asking the allocator, or writes one channel that was closed (R131, R132, R133). -/
theorem openO1_cases (ch : Nat) (mode rate p : Word) (s : State) :
    (∃ st, openO1 ch mode rate p s = s.raiseFail (.openCmd ch mode rate p) st)
    ∨ (∃ m st, openO1 ch mode rate p s = (s.openReady m).raiseFail (.openCmd ch mode rate p) st)
    ∨ ∃ m, modeOf mode = some m ∧ ch < s.nch ∧ (s.chan ch).active = false
        ∧ openO1 ch mode rate p s
          = ((s.openReady m).modChan ch (openedRecord s.cfg m rate)).finishOk (.openCmd ch mode rate p) := by
  unfold openO1
  dsimp only
  split
  · exact .inl ⟨_, rfl⟩
  rename_i hch
  split
  · exact .inl ⟨_, rfl⟩
  rename_i m hm
  split
  · exact .inl ⟨_, rfl⟩
  rename_i ha
  have hch : ch < s.nch := Nat.lt_of_not_le hch
  have ha : (s.chan ch).active = false := by simpa using ha
  cases m with
  | level =>
    refine .inr (.inr ⟨.level, hm, hch, ha, ?_⟩)
    simp only [State.openDac, State.dacWrite, State.openRecord]
    rw [modChan_modChan (by simpa using hch), modChan_modChan (by simpa using hch)]
    rfl
  | stream =>
    dsimp only
    split
    · exact .inr (.inl ⟨.stream, _, rfl⟩)
    · refine .inr (.inr ⟨.stream, hm, hch, ha, ?_⟩)
      simp only [State.openEngine, State.openStream, State.openDac, State.openRecord]
      rw [modChan_modChan (by simpa using hch), modChan_modChan (by simpa using hch),
        modChan_modChan (by simpa using hch)]
      rfl
  | wave =>
    dsimp only
    split
    · exact .inr (.inl ⟨.wave, _, rfl⟩)
    · refine .inr (.inr ⟨.wave, hm, hch, ha, ?_⟩)
      simp only [State.openEngine, State.openDac, State.openRecord]
      rw [modChan_modChan (by simpa using hch), modChan_modChan (by simpa using hch)]
      rfl

/-! ### Every phase extends -/

/-- Opening a channel extends its trace (R47). -/
theorem openedRecord_extends (cfg : Config) (m : Mode) (rate : Word) (c : Channel) :
    ChanExtends c (openedRecord cfg m rate c) := by
  cases m with
  | level => exact ⟨List.prefix_append _ _, id, id⟩
  | stream => exact ⟨List.prefix_rfl, id, id⟩
  | wave => exact ⟨List.prefix_rfl, id, id⟩

/-- Every phase of every command extends (R47, R48, R50, R247, R248). -/
theorem PhaseRun.toExtends {i : Instr} {ph : Phase} {loc : Locals} (h : PhaseRun s i ph loc t) : Extends i s t := by
  have h0 : Extends i s s := .refl s
  cases h with
  | o1 ch mode rate p =>
    rcases openO1_cases ch mode rate p s with ⟨st, e⟩ | ⟨m, st, e⟩ | ⟨m, -, -, -, e⟩ <;> rw [e]
    · exact h0.raiseFail
    · exact .raiseFail h0.openReady
    · exact .finishOk (.modChan h0.openReady (openedRecord_extends s.cfg m rate))
  | c1 | f1 | w1 | w3 =>
    simp only [closeC1, flushF1, writeW1, writeW3]
    split
    · exact h0.raiseFail
    · exact h0.goto
  | c2 =>
    simp only [closeC2]
    split_ifs
    · exact h0.raiseFail
    · exact h0.goto
    · exact h0.goto
  | f2 | w2 =>
    simp only [flushF2, writeW2]
    split_ifs
    · exact h0.raiseFail
    · exact h0.raiseFail
    · exact h0.goto
  | c3 | f3 => exact .goto h0.timerStop
  | c4 | f4 => exact .goto h0.critical
  | c5 | f5 => exact .goto h0.flushCancel
  | c6 => exact .finishOk (.modRegs (.closeClock (.modRegs (.timerStop h0.modRegs))))
  | f6 => exact h0.finishOk
  | l1 =>
    simp only [levelL1]
    split_ifs
    · exact h0.raiseFail
    · exact h0.raiseFail
    · exact h0.raiseFail
    · exact .finishOk h0.dacWrite
  | v1 ch w a =>
    simp only [waveV1]
    split_ifs
    · exact h0.raiseFail
    · exact h0.raiseFail
    · exact h0.raiseFail
    · exact .finishOk h0.timerStop
    · have hfill : Extends _ s ((s.timerStop ch).waveFill ch w a) := .modRegs h0.timerStop
      exact .unlessFault hfill.timerStart (.finishOk hfill.timerStart)
  | w4 =>
    simp only [writeW4]
    split
    · exact .raiseFail h0.mapAsked
    · exact .goto (.modRegs h0.mapAsked)
  | w5 => exact .goto (.modRegs h0.same)
  | w6 | w7 | w12 => exact .goto h0.modRegs
  | w8 => exact h0.goto
  | w9 =>
    simp only [writeW9]
    split_ifs
    · exact .unlessFault h0.fifoCopy (.goto h0.fifoCopy)
    · exact h0.goto
    · exact h0.goto
  | w10 => exact .unlessFault h0.fifoCopy (.goto h0.fifoCopy)
  | w11 =>
    simp only [writeW11]
    split
    · exact .goto h0.emit
    · exact h0.goto
  | w13 =>
    simp only [writeW13]
    split
    · exact .goto h0.critical
    · exact h0.same
  | w14 =>
    simp only [writeW14]
    split
    · exact .unlessFault h0.timerStart (.endCommand h0.timerStart)
    · exact .unlessFault h0 h0.endCommand
  | stray => exact h0.goto

/-- Every step extends, but for the schedule and for the request `D0` takes from the queue or a send appends. -/
theorem step_extends (h : step s = .next t) : ∃ i ts rest, Extends i { s with sched := ts, rq := rest } t := by
  obtain ⟨-, ts, h⟩ := step_cases h
  have h0 : ∀ i rest, Extends i { s with sched := ts, rq := rest } { s with sched := ts, rq := rest } :=
    fun _ _ => .refl _
  -- For an agent that is no command any command will do.
  obtain ⟨j⟩ : Nonempty Instr := ⟨.setLevel 0 0 0 0⟩
  rcases h with rfl | ⟨i, ph, loc, hb, he⟩ | ⟨r, rest, i, -, -, -, rfl⟩ | ⟨r, rest, -, -, -, rfl⟩ | ⟨ch, -, -, rfl⟩
    | ⟨ch, -, -, rfl⟩ | ⟨r, -, rfl⟩ | ⟨w, bytes, -, rfl⟩
  · exact ⟨j, ts, s.rq, h0 _ _⟩
  · exact ⟨i, ts, s.rq, (phaseRun_of_exec (by exact hb) he).toExtends⟩
  · exact ⟨i, ts, rest, (h0 _ _).goto⟩
  · exact ⟨j, ts, rest, (h0 _ _).emit⟩
  · exact ⟨j, ts, s.rq, (h0 _ _).refill⟩
  · exact ⟨j, ts, s.rq, (h0 _ _).tick⟩
  · exact ⟨j, ts, s.rq ++ [r], h0 _ _⟩
  · exact ⟨j, ts, s.rq, (h0 _ _).supply⟩

/-- Settles O50: the fields of `Extends`. -/
theorem tracesGrowAndMarksStick : Obligations.TracesGrowAndMarksStick := by
  intro s t h
  obtain ⟨i, ts, rest, he⟩ := step_extends h
  refine ⟨he.cfg, he.nch, he.resp, he.ctl, fun ch => ?_⟩
  obtain ⟨htrace, hrace, hover⟩ := he.chan ch
  exact ⟨htrace, hrace, hover⟩

/-- A step of a busy sequencer extends and leaves the queue, or the host has sent. -/
theorem step_busy_extends {i : Instr} {ph : Phase} {loc : Locals} (h : step s = .next t) (hb : s.seq = .busy i ph loc) :
    ∃ ts, Extends i { s with sched := ts } t ∨ ∃ r, t = ({ s with sched := ts } : State).send r := by
  obtain ⟨-, ts, h⟩ := step_cases h
  have h0 : Extends i { s with sched := ts } { s with sched := ts } := .refl _
  refine ⟨ts, ?_⟩
  rcases h with rfl | ⟨j, ph', loc', hj, he⟩ | ⟨r, rest, j, hi, -⟩ | ⟨r, rest, hi, -⟩ | ⟨ch, -, -, rfl⟩
    | ⟨ch, -, -, rfl⟩ | ⟨r, -, rfl⟩ | ⟨w, bytes, -, rfl⟩
  · exact .inl h0
  · rw [hb] at hj
    cases hj
    exact .inl (phaseRun_of_exec (by exact hb) he).toExtends
  · simp [hb] at hi
  · simp [hb] at hi
  · exact .inl h0.refill
  · exact .inl h0.tick
  · exact .inr ⟨r, rfl⟩
  · exact .inl h0.supply

/-- Settles O52: the fields `seq` and `rq` of `Extends`, and of a send. -/
theorem commandsAreSerial : Obligations.CommandsAreSerial := by
  intro s t i ph loc h hb
  obtain ⟨ts, he | ⟨r, rfl⟩⟩ := step_busy_extends h hb
  · refine ⟨?_, by rw [he.rq]⟩
    rcases he.seq with e | e | e
    · exact .inr ⟨ph, loc, e.trans hb⟩
    · exact .inl e
    · exact .inr e
  · exact ⟨.inr ⟨ph, loc, hb⟩, List.prefix_append _ _⟩

end Sys2Proof.Machine

namespace Sys2Proof.Machine

variable {s t : State}

/-! ### Who writes activity, mode, count, position and block -/

/-- The registers whose writers the rules name one by one (R22, R25, R27, R31, R36). -/
structure Regs where
  active : Bool
  mode : Mode
  cnt : Int
  dmaPos : Nat
  block : Option Word

def Channel.regs (c : Channel) : Regs := ⟨c.active, c.mode, c.cnt, c.dmaPos, c.block⟩

/-- An update that keeps the registers keeps them in every channel. -/
theorem modChan_regs_same (s : State) (ch j : Nat) (f : Channel → Channel)
    (hf : ∀ c, (f c).regs = c.regs := by exact fun _ => rfl) : ((s.modChan ch f).chan j).regs = (s.chan j).regs := by
  rw [modChan_chan]
  split
  · rename_i e; rw [e.1, hf]
  · rfl

/-- After an update of channel `ch` the registers of any channel are kept, or it is `ch` and they are the new record's. -/
theorem modChan_regs_cases (s : State) (ch j : Nat) (f : Channel → Channel) :
    ((s.modChan ch f).chan j).regs = (s.chan j).regs
    ∨ (j = ch ∧ ((s.modChan ch f).chan j).regs = (f (s.chan j)).regs) := by
  rw [modChan_chan]
  split
  · rename_i e; exact .inr ⟨e.1, by rw [e.1]⟩
  · exact .inl rfl

@[simp] theorem timerStop_regs (s : State) (ch j : Nat) : ((s.timerStop ch).chan j).regs = (s.chan j).regs :=
  modChan_regs_same s ch j fun c => { c with timerRun := false }

@[simp] theorem timerStart_regs (s : State) (ch rate j : Nat) :
    ((s.timerStart ch rate).chan j).regs = (s.chan j).regs := by
  unfold State.timerStart
  split
  · rfl
  · exact modChan_regs_same s ch j fun c => { c with timerRun := true, timerRate := rate }

@[simp] theorem fifoCopy_regs (s : State) (ch dst n j : Nat) :
    ((s.fifoCopy ch dst n).chan j).regs = (s.chan j).regs := by
  rcases fifoCopy_cases s ch dst n with ⟨-, e⟩ | ⟨-, e⟩ <;> rw [e]
  · rfl
  · exact modChan_regs_same s ch j _

@[simp] theorem dacWrite_regs (s : State) (ch : Nat) (v : Sample) (j : Nat) :
    ((s.dacWrite ch v).chan j).regs = (s.chan j).regs :=
  modChan_regs_same s ch j _

@[simp] theorem waveFill_regs (s : State) (ch : Nat) (w a : Word) (j : Nat) :
    ((s.waveFill ch w a).chan j).regs = (s.chan j).regs :=
  modChan_regs_same s ch j _

@[simp] theorem closeClock_chan (s : State) (ch j : Nat) : (s.closeClock ch).chan j = s.chan j := by
  unfold State.closeClock; split <;> simp

@[simp] theorem flushCancel_chan (s : State) (ch : Nat) (cap : Option Word) (j : Nat) :
    (flushCancel ch cap s).chan j = s.chan j := by
  cases cap <;> simp [flushCancel]

@[simp] theorem critical_modChan_chan (s : State) (ch j : Nat) (f : Channel → Channel) :
    (s.critical fun s => s.modChan ch f).chan j = (s.modChan ch f).chan j := rfl

theorem unlessFault_regs {f : State → State} {j : Nat} (hf : ((f s).chan j).regs = (s.chan j).regs) :
    ((s.unlessFault f).chan j).regs = (s.chan j).regs := by
  unfold State.unlessFault
  split
  · exact hf
  · rfl

/-- A tick moves the position of its channel, by `SB` modulo `FB`, and writes no other of the registers (R255). -/
theorem tick_regs (s : State) (ch j : Nat) :
    ((s.tick ch).chan j).regs = (s.chan j).regs
    ∨ (j = ch ∧ ((s.tick ch).chan j).regs
        = { (s.chan j).regs with dmaPos := ((s.chan j).dmaPos + s.cfg.sb) % fbOf s.cfg }) := by
  have hevents : ∀ c, (raiseEvents s.cfg c).regs = c.regs := fun c => by
    unfold raiseEvents
    dsimp only
    split <;> split <;> rfl
  rcases modChan_regs_cases s ch j (fun c => raiseEvents s.cfg (moveSample s.cfg c)) with e | ⟨hj, e⟩
  · exact .inl e
  · exact .inr ⟨hj, e.trans (hevents _)⟩

/-- Step 4 of the handler clears the block in flight of its channel when the count is below 2, and writes no other of the
registers (R194, R195). -/
theorem refillServe_regs (s : State) (ch j : Nat) :
    ((s.refillServe ch).chan j).regs = (s.chan j).regs
    ∨ (j = ch ∧ (s.chan j).cnt < 2 ∧ ((s.refillServe ch).chan j).regs = { (s.chan j).regs with block := none }) := by
  cases hb : (s.chan ch).block with
  | none => rw [refillServe_none hb]; exact .inl rfl
  | some w =>
    by_cases hc : 2 ≤ (s.chan ch).cnt
    · rw [refillServe_copy hb hc]; exact .inl (fifoCopy_regs _ _ _ _ _)
    · have hc : (s.chan ch).cnt < 2 := Int.lt_of_not_ge hc
      rw [refillServe_complete hb hc]
      rcases modChan_regs_cases (s.emit _) ch j (fun c => { c with block := none }) with e | ⟨rfl, e⟩
      · exact .inl e
      · exact .inr ⟨rfl, hc, e⟩

theorem refillUnderflow_regs (s : State) (ch j : Nat) : ((s.refillUnderflow ch).chan j).regs = (s.chan j).regs := by
  unfold State.refillUnderflow
  have hstop : (((s.modChan ch fun c => { c with half := false }).timerStop ch).chan j).regs = (s.chan j).regs := by
    rw [timerStop_regs]; exact modChan_regs_same s ch j fun c => { c with half := false }
  split
  · dsimp only
    split
    · simpa using hstop
    · exact hstop
  · rfl

/-- The handler lowers the count of its channel by one, clears or keeps its block, and writes no other of the registers
(R193, R195). -/
theorem refill_regs {ch : Nat} (hch : ch < s.nch) (j : Nat) :
    ((s.refill ch).chan j).regs = (s.chan j).regs
    ∨ (j = ch ∧ ((s.refill ch).chan j).regs = { (s.chan j).regs with cnt := (s.chan j).cnt - 1 })
    ∨ (j = ch ∧ (s.chan j).cnt ≤ 2
      ∧ ((s.refill ch).chan j).regs = { (s.chan j).regs with cnt := (s.chan j).cnt - 1, block := none }) := by
  have hend : ((s.refill ch).chan j).regs = (((s.refillCount ch).refillServe ch).chan j).regs :=
    unlessFault_regs (refillUnderflow_regs _ ch j)
  rw [hend]
  by_cases hj : j = ch
  · subst hj
    rcases refillServe_regs (s.refillCount j) j j with e | ⟨-, hc, e⟩ <;> rw [e, refillCount_chan hch]
    · exact .inr (.inl ⟨rfl, rfl⟩)
    · rw [refillCount_chan hch] at hc
      exact .inr (.inr ⟨rfl, Int.le_of_sub_one_lt hc, rfl⟩)
  · rcases refillServe_regs (s.refillCount ch) ch j with e | ⟨hj', -⟩
    · rw [e, State.refillCount, modChan_chan_ne hj]; exact .inl rfl
    · exact absurd hj' hj

theorem lt_of_refillEnabled {ch : Nat} (h : s.refillEnabled ch = true) : ch < s.nch := by
  simp only [State.refillEnabled, Bool.and_eq_true, decide_eq_true_eq] at h
  obtain ⟨⟨⟨hch, -⟩, -⟩, -⟩ := h
  exact hch

/-- Phase `C6` closes its channel and writes no other of the registers (R136). -/
theorem closeC6_regs (i : Instr) (ch : Nat) (s : State) (j : Nat) :
    ((closeC6 i ch s).chan j).regs = (s.chan j).regs
    ∨ (j = ch ∧ ((closeC6 i ch s).chan j).regs = { (s.chan j).regs with active := false }) := by
  have hpre : (((((s.modChan ch unregisterHandler).timerStop ch).modChan ch (releaseEngine s.cfg)).closeClock ch).chan
      j).regs = (s.chan j).regs := by
    rw [closeClock_chan, modChan_regs_same _ ch j (releaseEngine s.cfg), timerStop_regs,
      modChan_regs_same s ch j unregisterHandler]
  rcases modChan_regs_cases _ ch j (fun c => { c with active := false }) with e | ⟨hj, e⟩
  · exact .inl (e.trans hpre)
  · exact .inr ⟨hj, e.trans (congrArg (fun r : Regs => { r with active := false }) hpre)⟩

/-- What a step can do to the registers of channel `ch`: keep them, or be the one of their writers named. -/
inductive RegsStep (s t : State) (ch : Nat) : Prop
  | kept (h : (t.chan ch).regs = (s.chan ch).regs)
  /-- OPEN of a closed channel (R132). -/
  | opened (mode rate p loc m) (hseq : s.seq = .busy (.openCmd ch mode rate p) .o1 loc) (hm : modeOf mode = some m)
      (hact : (s.chan ch).active = false) (h : (t.chan ch).regs = (openedRecord s.cfg m rate (s.chan ch)).regs)
  /-- CLOSE at its end (R136). -/
  | closed (a b p loc) (hseq : s.seq = .busy (.closeCmd ch a b p) .c6 loc)
      (h : (t.chan ch).regs = { (s.chan ch).regs with active := false })
  /-- WRITE records its block (R164). -/
  | recorded (block size p loc) (hseq : s.seq = .busy (.writeCmd ch block size p) .w5 loc)
      (h : (t.chan ch).regs = { (s.chan ch).regs with block := some block })
  /-- WRITE clears the block it has completed (R170). -/
  | cleared (block size p loc) (hseq : s.seq = .busy (.writeCmd ch block size p) .w12 loc)
      (h : (t.chan ch).regs = { (s.chan ch).regs with block := none })
  /-- WRITE counts its units (R172). -/
  | counted (block size p loc) (hseq : s.seq = .busy (.writeCmd ch block size p) .w13 loc)
      (h : (t.chan ch).regs = { (s.chan ch).regs with cnt := (s.chan ch).cnt + loc.n })
  /-- FLUSH and CLOSE detach the block in flight (R213). -/
  | detached (a b p loc) (hseq : s.seq = .busy (.flushCmd ch a b p) .f4 loc ∨ s.seq = .busy (.closeCmd ch a b p) .c4 loc)
      (h : (t.chan ch).regs = { (s.chan ch).regs with block := none })
  /-- The handler counts an event and keeps the block (R193). -/
  | served (ts) (hsched : s.sched = .irq ch :: ts) (hen : s.refillEnabled ch = true)
      (h : (t.chan ch).regs = { (s.chan ch).regs with cnt := (s.chan ch).cnt - 1 })
  /-- The handler counts an event and completes the block (R193, R195). -/
  | completed (ts) (hsched : s.sched = .irq ch :: ts) (hen : s.refillEnabled ch = true) (hcnt : (s.chan ch).cnt ≤ 2)
      (h : (t.chan ch).regs = { (s.chan ch).regs with cnt := (s.chan ch).cnt - 1, block := none })
  /-- The engine moves one sample on (R255). -/
  | ticked (ts) (hsched : s.sched = .tick ch :: ts) (hen : s.tickEnabled ch = true)
      (h : (t.chan ch).regs = { (s.chan ch).regs with dmaPos := ((s.chan ch).dmaPos + s.cfg.sb) % fbOf s.cfg })

/-- The writers among the phases; no phase reads the schedule. -/
theorem PhaseRun.regsStep {i : Instr} {ph : Phase} {loc : Locals} (h : PhaseRun s i ph loc t)
    (hb : s.seq = .busy i ph loc) (j : Nat) (ts : List Turn) : RegsStep { s with sched := ts } t j := by
  have kept : (t.chan j).regs = (s.chan j).regs → RegsStep { s with sched := ts } t j := fun h => .kept h
  cases h with
  | o1 ch mode rate p =>
    rcases openO1_cases ch mode rate p s with ⟨st, e⟩ | ⟨m, st, e⟩ | ⟨m, hm, -, ha, e⟩ <;> rw [e]
    · exact .kept rfl
    · exact .kept (by rw [raiseFail_chan, openReady_chan]; rfl)
    · rcases modChan_regs_cases (s.openReady m) ch j (openedRecord s.cfg m rate) with e | ⟨rfl, e⟩ <;>
        rw [openReady_chan] at e
      · exact .kept e
      · exact .opened mode rate p loc m hb hm ha e
  | c4 ch a b p =>
    rcases modChan_regs_cases s ch j (fun c => { c with block := none }) with e | ⟨rfl, e⟩
    · exact .kept e
    · exact .detached a b p loc (.inr hb) e
  | f4 ch a b p =>
    rcases modChan_regs_cases s ch j (fun c => { c with block := none }) with e | ⟨rfl, e⟩
    · exact .kept e
    · exact .detached a b p loc (.inl hb) e
  | c6 ch a b p =>
    rcases closeC6_regs (.closeCmd ch a b p) ch s j with e | ⟨rfl, e⟩
    · exact .kept e
    · exact .closed a b p loc hb e
  | w5 ch bl sz p =>
    rcases modChan_regs_cases s ch j (fun c => { c with block := some bl }) with e | ⟨rfl, e⟩
    · exact .kept e
    · exact .recorded bl sz p loc hb e
  | w12 ch bl sz p =>
    rcases modChan_regs_cases s ch j (fun c => { c with block := none }) with e | ⟨rfl, e⟩
    · exact .kept e
    · exact .cleared bl sz p loc hb e
  | w13 ch bl sz p =>
    simp only [writeW13]
    split
    · rcases modChan_regs_cases s ch j (fun c => { c with cnt := c.cnt + loc.n }) with e | ⟨rfl, e⟩
      · exact .kept e
      · exact .counted bl sz p loc hb e
    · exact .kept rfl
  | c1 | f1 | w1 | w3 =>
    refine kept ?_
    simp only [closeC1, flushF1, writeW1, writeW3]
    split <;> rfl
  | c2 | f2 | w2 =>
    refine kept ?_
    simp only [closeC2, flushF2, writeW2]
    split_ifs <;> rfl
  | c3 ch | f3 ch => exact kept (timerStop_regs s ch j)
  | c5 ch | f5 ch => exact kept (by rw [goto_chan, flushCancel_chan])
  | f6 | w8 | stray => exact .kept rfl
  | l1 =>
    refine kept ?_
    simp only [levelL1]
    split_ifs
    · rfl
    · rfl
    · rfl
    · rw [finishOk_chan, dacWrite_regs]
  | v1 =>
    refine kept ?_
    simp only [waveV1]
    split_ifs
    · rfl
    · rfl
    · rfl
    · rw [finishOk_chan, timerStop_regs]
    · rw [unlessFault_regs rfl, timerStart_regs, waveFill_regs, timerStop_regs]
  | w4 ch bl =>
    refine kept ?_
    simp only [writeW4]
    split
    · rw [raiseFail_chan, mapAsked_chan]
    · refine (modChan_regs_same s.mapAsked ch j fun c => { c with ptr := ⟨bl, 0⟩ }).trans ?_
      rw [mapAsked_chan]
  | w6 ch _ _ p => exact kept (modChan_regs_same s ch j fun c => { c with process := p })
  | w7 ch _ sz => exact kept (modChan_regs_same s ch j fun c => { c with size := sz })
  | w9 =>
    refine kept ?_
    simp only [writeW9]
    split_ifs
    · rw [unlessFault_regs rfl, fifoCopy_regs]
    · rfl
    · rfl
  | w10 => exact kept (by rw [writeW10, unlessFault_regs rfl, fifoCopy_regs])
  | w11 =>
    refine kept ?_
    simp only [writeW11]
    split <;> rfl
  | w14 =>
    refine kept ?_
    simp only [writeW14]
    split <;> rw [unlessFault_regs rfl]
    exact timerStart_regs _ _ _ _

/-- The writers of the registers among all steps (R262). -/
theorem regsStep_of_step (h : step s = .next t) (j : Nat) : RegsStep s t j := by
  obtain ⟨-, ts, h⟩ := step_cases h
  rcases h with rfl | ⟨i, ph, loc, hb, he⟩ | ⟨r, rest, i, -, -, -, rfl⟩ | ⟨r, rest, -, -, -, rfl⟩ | ⟨ch, hs, hen, rfl⟩
    | ⟨ch, hs, hen, rfl⟩ | ⟨r, -, rfl⟩ | ⟨w, bytes, -, rfl⟩
  · exact .kept rfl
  · exact (phaseRun_of_exec (by exact hb) he).regsStep hb j s.sched
  · exact .kept rfl
  · exact .kept rfl
  · rcases refill_regs (s := { s with sched := ts }) (lt_of_refillEnabled hen) j with e | ⟨rfl, e⟩ | ⟨rfl, hc, e⟩
    · exact .kept e
    · exact .served ts hs hen e
    · exact .completed ts hs hen hc e
  · rcases tick_regs { s with sched := ts } ch j with e | ⟨rfl, e⟩
    · exact .kept e
    · exact .ticked ts hs hen e
  · exact .kept rfl
  · exact .kept (by rw [supply_chan]; rfl)

/-! ### The writers, register by register -/

theorem modeOf_eq_stream {mode : Word} (h : modeOf mode = some .stream) : mode = 1 := by
  unfold modeOf at h
  split at h
  · simp at h
  · split at h
    · assumption
    · split at h <;> simp at h

/-- OPEN writes the position, the count and the block only where it configures the engine (R132). -/
theorem openedRecord_regs (cfg : Config) (m : Mode) (rate : Word) (c : Channel) :
    (openedRecord cfg m rate c).regs = match m with
      | .level => { c.regs with active := true, mode := .level }
      | .stream => ⟨true, .stream, 0, 0, none⟩
      | .wave => { c.regs with active := true, mode := .wave, dmaPos := 0 } := by
  cases m <;> rfl

/-- Settles O47: of the writers of the registers only OPEN and CLOSE write activity or mode. -/
theorem onlyOpenAndCloseChangeLifecycle : Obligations.OnlyOpenAndCloseChangeLifecycle := by
  intro s t ch _ h _ hne
  have hlife : ∀ c : Channel, c.lifecycle = if c.regs.active then some c.regs.mode else none := fun _ => rfl
  rw [hlife, hlife] at hne ⊢
  cases regsStep_of_step h ch with
  | opened mode rate p loc m hb _ ha =>
    exact .inl ⟨by rw [show (s.chan ch).regs.active = false from ha]; rfl, mode, rate, p, loc, hb⟩
  | closed a b p loc hb e => exact .inr ⟨by rw [e]; rfl, a, b, p, loc, hb⟩
  | kept e | recorded _ _ _ _ _ e | cleared _ _ _ _ _ e | counted _ _ _ _ _ e | detached _ _ _ _ _ e | served _ _ _ e
  | completed _ _ _ _ e | ticked _ _ _ e => exact absurd (by rw [e]) hne

/-- Settles O48. -/
theorem countWriters : Obligations.CountWriters := by
  intro s t ch h _ hne
  have hcnt : ∀ c : Channel, c.cnt = c.regs.cnt := fun _ => rfl
  rw [hcnt, hcnt] at hne ⊢
  cases regsStep_of_step h ch with
  | opened mode rate p loc m hb hm _ e =>
    rw [e, openedRecord_regs] at hne ⊢
    cases m with
    | stream => exact .inl ⟨rfl, rate, p, loc, modeOf_eq_stream hm ▸ hb⟩
    | level | wave => exact absurd rfl hne
  | counted block size p loc hb e => exact .inr (.inl ⟨block, size, p, loc, hb, by rw [e]; rfl⟩)
  | served ts hs hen e => exact .inr (.inr ⟨⟨ts, hs⟩, hen, by rw [e]; rfl⟩)
  | completed ts hs hen _ e => exact .inr (.inr ⟨⟨ts, hs⟩, hen, by rw [e]; rfl⟩)
  | kept e | closed _ _ _ _ _ e | recorded _ _ _ _ _ e | cleared _ _ _ _ _ e | detached _ _ _ _ _ e
  | ticked _ _ _ e => exact absurd (by rw [e]) hne

/-- Settles O49. -/
theorem positionWriters : Obligations.PositionWriters := by
  intro s t ch h _ hne
  have hpos : ∀ c : Channel, c.dmaPos = c.regs.dmaPos := fun _ => rfl
  rw [hpos, hpos] at hne ⊢
  cases regsStep_of_step h ch with
  | opened mode rate p loc m hb _ _ e =>
    rw [e, openedRecord_regs] at hne ⊢
    cases m with
    | level => exact absurd rfl hne
    | stream | wave => exact .inl ⟨rfl, mode, rate, p, loc, hb⟩
  | ticked ts hs hen e => exact .inr ⟨⟨ts, hs⟩, hen, by rw [e]; rfl⟩
  | kept e | closed _ _ _ _ _ e | recorded _ _ _ _ _ e | cleared _ _ _ _ _ e | counted _ _ _ _ _ e
  | detached _ _ _ _ _ e | served _ _ _ e | completed _ _ _ _ e => exact absurd (by rw [e]) hne

/-- Settles O54. -/
theorem inFlightBlockWriters : Obligations.InFlightBlockWriters := by
  intro s t ch h _ hne
  have hblock : ∀ c : Channel, c.block = c.regs.block := fun _ => rfl
  rw [hblock, hblock] at hne
  rw [hblock]
  cases regsStep_of_step h ch with
  | opened mode rate p loc m hb hm _ e =>
    rw [e, openedRecord_regs] at hne ⊢
    cases m with
    | stream => exact .inl ⟨rate, p, loc, modeOf_eq_stream hm ▸ hb, rfl⟩
    | level | wave => exact absurd rfl hne
  | recorded block size p loc hb e => exact .inr (.inl ⟨block, size, p, loc, hb, by rw [e]⟩)
  | cleared block size p loc hb e => exact .inr (.inr (.inl ⟨block, size, p, loc, hb, by rw [e]⟩))
  | detached a b p loc hb e => exact .inr (.inr (.inr (.inl ⟨a, b, p, loc, hb, by rw [e]⟩)))
  | completed ts hs hen hc e => exact .inr (.inr (.inr (.inr ⟨⟨ts, hs⟩, hen, hc, by rw [e]⟩)))
  | kept e | closed _ _ _ _ _ e | counted _ _ _ _ _ e | served _ _ _ e | ticked _ _ _ e => exact absurd (by rw [e]) hne

end Sys2Proof.Machine

namespace Sys2Proof.Machine

variable {s t u : State} {i : Instr} {ph ph' : Phase} {loc loc' : Locals}

/-! ### The sequencer's clause from one phase to the next -/

/-- The first phase of a command asks for nothing that a phase has found. -/
theorem seqInv_firstPhase (s : State) (i : Instr) (loc : Locals) : SeqInv s i (firstPhase i) loc := by
  cases i <;> constructor <;>
    simp [firstPhase, phasesOf, afterActive, afterStream, inAdmission, afterSnapshot]

/-- A later phase of the command asks for what the phase before it asked for, or for what that phase has found. -/
theorem SeqInv.advance (h : SeqInv s i ph loc) (hphase : ph' ∈ phasesOf i := by simp [phasesOf])
    (hrange : ph ≠ firstPhase i ∨ i.chIdx < s.nch := by simp [firstPhase])
    (hactive : afterActive ph' = true → afterActive ph = true ∨ (s.chan i.chIdx).active = true := by simp [afterActive])
    (hstream : afterStream ph' = true → afterStream ph = true ∨ (s.chan i.chIdx).mode = .stream := by
      simp [afterStream, afterActive])
    (hadmit : inAdmission ph' = true → inAdmission ph = true ∨ (s.chan i.chIdx).cnt ≤ 2 := by simp [inAdmission])
    (hsnap : afterSnapshot ph' = true → (afterSnapshot ph = true ∧ loc'.c = loc.c)
      ∨ ((s.chan i.chIdx).cnt ≤ loc'.c ∧ loc'.c ≤ 2) := by simp [afterSnapshot]) : SeqInv s i ph' loc' where
  phaseOf := hphase
  inRange _ := hrange.elim h.inRange id
  isActive h' := (hactive h').elim h.isActive id
  isStream h' := (hstream h').elim h.isStream id
  admitted h' := (hadmit h').elim h.admitted id
  snapshot h' := (hsnap h').elim (fun ⟨hs, hc⟩ => hc ▸ h.snapshot hs) id

/-- After the count is updated the clause no longer reads it (R162). -/
theorem seqInv_w14 (h : SeqInv s i .w14 loc) (hn : t.nch = s.nch)
    (hactive : (t.chan i.chIdx).active = (s.chan i.chIdx).active) (hmode : (t.chan i.chIdx).mode = (s.chan i.chIdx).mode) :
    SeqInv t i .w14 loc where
  phaseOf := h.phaseOf
  inRange h' := hn ▸ h.inRange h'
  isActive h' := hactive.trans (h.isActive h')
  isStream h' := hmode.trans (h.isStream h')
  admitted := by simp [inAdmission]
  snapshot := by simp [afterSnapshot]

/-! ### The invariant of a next state -/

/-- A change that leaves the sequencer where it is and is quiet on what its clause reads. -/
theorem inv_of_quiet (h : Inv s) (hbase : BaseInv t) (hq : Quiet s t) (hseq : t.seq = s.seq) : Inv t :=
  inv_of_base hbase fun i ph loc hb => seqInv_of_quiet (h.sequencer i ph loc (hseq ▸ hb)) hq

/-- The invariant does not speak of the schedule or of the queue. -/
theorem inv_turn (h : Inv s) (ts : List Turn) (rest : List Request) : Inv { s with sched := ts, rq := rest } :=
  inv_of_quiet h { h.base with } ⟨rfl, (Quiet.refl s).chan⟩ rfl

theorem inv_goto (hbase : BaseInv t) (hq : Quiet s t) (h : SeqInv s i ph loc) : Inv (t.goto i ph loc) :=
  inv_of_busy (base_goto hbase _ _ _) rfl (seqInv_of_quiet h ⟨hq.nch, hq.chan⟩)

theorem inv_raiseFail (h : BaseInv s) {st : Status} : Inv (s.raiseFail i st) := inv_of_idle (base_raiseFail h _ _) rfl

theorem inv_finishOk (h : BaseInv s) : Inv (s.finishOk i) := inv_of_idle (base_finishOk h _) rfl

theorem inv_endCommand (h : BaseInv s) : Inv { s with seq := .idle } := inv_of_idle { h with } rfl

/-- Whether a fault has stopped the phase or not (R301). -/
theorem inv_unlessFault {f : State → State} (h : Inv s) (hf : Inv (f s)) : Inv (s.unlessFault f) := by
  unfold State.unlessFault
  split
  · exact hf
  · exact h

theorem quiet_of_regs (hn : t.nch = s.nch) (h : ∀ j, (t.chan j).regs = (s.chan j).regs) : Quiet s t :=
  ⟨hn, fun j => ⟨congrArg Regs.active (h j), congrArg Regs.mode (h j), le_of_eq (congrArg Regs.cnt (h j))⟩⟩

theorem inv_fifoCopy (h : Inv s) {ch dst n : Nat} (hd : dst + n ≤ fbOf s.cfg) : Inv (s.fifoCopy ch dst n) :=
  inv_of_quiet h (base_fifoCopy h.base ch dst n hd) (quiet_fifoCopy _ _ _ _) (fifoCopy_seq _ _ _ _)

/-- A phase that updates registers no clause reads, and goes on. -/
theorem inv_modChan_goto {ch : Nat} {f : Channel → Channel} (hbase : BaseInv s) (h : SeqInv s i ph loc)
    (hs : ∀ c, (f c).fifo = c.fifo ∧ (f c).dmaPos = c.dmaPos ∧ (f c).active = c.active ∧ (f c).mode = c.mode
      ∧ (f c).fifoValid = c.fifoValid ∧ (f c).irqEn = c.irqEn ∧ (f c).timerRun = c.timerRun ∧ (f c).dmaEn = c.dmaEn
      ∧ (f c).dacEn = c.dacEn ∧ (f c).dacTrace = c.dacTrace ∧ (f c).dacDr = c.dacDr := by
        exact fun _ => ⟨rfl, rfl, rfl, rfl, rfl, rfl, rfl, rfl, rfl, rfl, rfl⟩)
    (hc : ∀ c, (f c).cnt = c.cnt := by exact fun _ => rfl) : Inv ((s.modChan ch f).goto i ph loc) := by
  refine inv_goto (base_modChan_same hbase ch f hs) (quiet_modChan s ch f fun c => ?_) h
  obtain ⟨-, -, hact, hmode, -⟩ := hs c
  exact ⟨hact, hmode, le_of_eq (hc c)⟩

/-! ### OPEN and CLOSE -/

/-- The record of a channel just opened: the engine and the interrupt as its mode has them (R30, R32, R34, R37, R223). -/
theorem channelInv_opened {cfg : Config} {c : Channel} (hcfg : ConfigOk cfg) (h : ChannelInv cfg c)
    (ha : c.active = false) (m : Mode) (rate : Word) : ChannelInv cfg (openedRecord cfg m rate c) := by
  obtain ⟨hirq, htimer, hdma, -⟩ := h.closedOff ha
  have hoff : c.irqEn = true → (openedRecord cfg m rate c).mode = .stream := fun hon => nomatch hirq.symm.trans hon
  cases m with
  | level =>
    exact { h with
      fifoValid := fun _ hne => absurd rfl hne
      closedOff := nofun
      irqStream := hoff
      streamIrq := nofun
      levelStill := fun _ _ => ⟨hdma, htimer⟩
      engineOn := fun _ hne => absurd rfl hne
      dacOn := fun _ => rfl
      traceLast := .inr (by simp [openedRecord]) }
  | stream =>
    exact { h with
      fifoWf := .nil
      fifoBound := nofun
      posBound := fbOf_pos hcfg
      posAligned := Nat.dvd_zero _
      fifoValid := fun _ _ => rfl
      closedOff := nofun
      irqStream := fun _ => rfl
      streamIrq := fun _ _ => rfl
      levelStill := nofun
      engineOn := fun _ _ => rfl
      dacOn := fun _ => rfl }
  | wave =>
    exact { h with
      fifoWf := .nil
      fifoBound := nofun
      posBound := fbOf_pos hcfg
      posAligned := Nat.dvd_zero _
      fifoValid := fun _ _ => rfl
      closedOff := nofun
      irqStream := hoff
      streamIrq := nofun
      levelStill := nofun
      engineOn := fun _ _ => rfl
      dacOn := fun _ => rfl }

theorem base_openReady (h : BaseInv s) (m : Mode) : BaseInv (s.openReady m) := by
  unfold State.openReady
  split
  · exact base_clockOn h
  · exact base_allocAsked (base_clockOn h)

theorem inv_openO1 (h : BaseInv s) (ch : Nat) (mode rate p : Word) : Inv (openO1 ch mode rate p s) := by
  rcases openO1_cases ch mode rate p s with ⟨st, e⟩ | ⟨m, st, e⟩ | ⟨m, -, hch, ha, e⟩ <;> rw [e]
  · exact inv_raiseFail h
  · exact inv_raiseFail (base_openReady h m)
  · refine inv_finishOk (base_modChan (base_openReady h m) ch _ (fun _ => ?_) fun _ _ => openReady_clkEn s m)
    rw [openReady_cfg, openReady_chan]
    exact channelInv_opened h.cfgOk (h.channels ch hch) ha m rate

/-- The record of a channel just closed, with every enable off (R139). -/
theorem channelInv_closed {cfg : Config} {c : Channel} (h : ChannelInv cfg c) :
    ChannelInv cfg { releaseEngine cfg { unregisterHandler c with timerRun := false } with active := false } := by
  have hirq : (unregisterHandler c).irqEn = false := by
    simp only [unregisterHandler]
    split
    · rfl
    · rename_i hmode
      exact Bool.eq_false_iff.mpr fun hirq => hmode (h.irqStream hirq)
  exact { h with
    fifoValid := nofun
    closedOff := fun _ => ⟨hirq, rfl, rfl, rfl⟩
    irqStream := fun hon => nomatch hirq.symm.trans hon
    streamIrq := nofun
    levelStill := nofun
    engineOn := nofun
    dacOn := nofun }

theorem inv_closeC6 (h : BaseInv s) {ch : Nat} (hch : ch < s.nch) : Inv (closeC6 i ch s) := by
  rw [closeC6_eq hch]
  have hbase := base_modChan h ch
    (fun c => { releaseEngine s.cfg { unregisterHandler c with timerRun := false } with active := false })
    (fun _ => channelInv_closed (h.channels ch hch)) (fun _ hon => nomatch hon)
  refine inv_finishOk { hbase with clockOn := fun j hj ha => ?_ }
  rw [setClock_clkEn]
  split
  · rename_i hothers
    rw [setClock_chan, logCall_chan] at ha
    by_cases hjc : j = ch
    · rw [hjc, modChan_chan_self hch] at ha; cases ha
    · rw [modChan_chan_ne hjc, (othersInactive_iff s ch).1 hothers j (by simpa using hj) hjc] at ha; cases ha
  · exact hbase.clockOn j hj ha

/-! ### Every phase -/

theorem inv_waveV1 (h : Inv s) (ch : Nat) (w a : Word) : Inv (waveV1 i ch w a s) := by
  simp only [waveV1]
  split_ifs with hch hact hmode hamp
  · exact inv_raiseFail h.base
  · exact inv_raiseFail h.base
  · exact inv_raiseFail h.base
  · exact inv_finishOk (base_timerStop h.base ch)
  · have hregs : ∀ j, (((s.timerStop ch).waveFill ch w a).chan j).regs = (s.chan j).regs := fun j => by
      rw [waveFill_regs, timerStop_regs]
    have hactive : (((s.timerStop ch).waveFill ch w a).chan ch).active = true :=
      (congrArg Regs.active (hregs ch)).trans (eq_true_of_ne_false hact)
    have hwave : (((s.timerStop ch).waveFill ch w a).chan ch).mode = .wave :=
      (congrArg Regs.mode (hregs ch)).trans (not_not.1 hmode)
    have hstart : ∀ rate, BaseInv (((s.timerStop ch).waveFill ch w a).timerStart ch rate) := fun _ =>
      base_timerStart (base_waveFill (base_timerStop h.base ch) ch w a) fun _ => ⟨hactive, hwave ▸ nofun⟩
    refine inv_unlessFault (inv_of_quiet h (hstart _) (quiet_of_regs (by simp [State.waveFill]) fun j => ?_) ?_)
      (inv_finishOk (hstart _))
    · rw [timerStart_regs, hregs]
    · rw [timerStart_seq]; rfl

/-- Every phase of every command keeps the invariant. -/
theorem PhaseRun.inv (h : PhaseRun s i ph loc t) (hb : s.seq = .busy i ph loc) (hi : Inv s) : Inv t := by
  have hbase := hi.base
  have hseq : SeqInv s i ph loc := hi.sequencer i ph loc hb
  cases h with
  | o1 ch mode rate p => exact inv_openO1 hbase ch mode rate p
  | c1 ch | f1 ch | w1 ch =>
    simp only [closeC1, flushF1, writeW1]
    split
    · exact inv_raiseFail hbase
    · rename_i hch
      exact inv_goto hbase (.refl s) (hseq.advance (hrange := .inr (Nat.lt_of_not_le hch)))
  | c2 =>
    simp only [closeC2]
    split_ifs with hact hmode
    · exact inv_raiseFail hbase
    · exact inv_goto hbase (.refl s)
        (hseq.advance (hactive := fun _ => .inr (eq_true_of_ne_false hact)) (hstream := fun _ => .inr hmode))
    · exact inv_goto hbase (.refl s) (hseq.advance (hactive := fun _ => .inr (eq_true_of_ne_false hact)))
  | f2 | w2 =>
    simp only [flushF2, writeW2]
    split_ifs with hact hmode
    · exact inv_raiseFail hbase
    · exact inv_raiseFail hbase
    · exact inv_goto hbase (.refl s) (hseq.advance (hactive := fun _ => .inr (eq_true_of_ne_false hact))
        (hstream := fun _ => .inr (not_not.1 hmode)))
  | c3 ch | f3 ch => exact inv_goto (base_timerStop hbase ch) (quiet_timerStop s ch) hseq.advance
  | c4 ch | f4 ch =>
    have hclear : BaseInv (s.modChan ch fun c => { c with block := none }) := base_modChan_same hbase ch _
      fun _ => ⟨rfl, rfl, rfl, rfl, rfl, rfl, rfl, rfl, rfl, rfl, rfl⟩
    have hq : Quiet s (s.modChan ch fun c => { c with block := none }) :=
      quiet_modChan s ch _ fun _ => ⟨rfl, rfl, le_refl _⟩
    exact inv_goto (base_critical ch _ hclear) ⟨hq.nch, hq.chan⟩ hseq.advance
  | c5 ch | f5 ch =>
    cases hcap : loc.cap with
    | none => exact inv_goto hbase (.refl s) hseq.advance
    | some w => exact inv_goto (base_emit hbase _) (quiet_emit s _) hseq.advance
  | c6 ch => exact inv_closeC6 hbase (hseq.inRange (by simp [firstPhase]))
  | f6 => exact inv_finishOk hbase
  | l1 ch v =>
    simp only [levelL1]
    split_ifs
    · exact inv_raiseFail hbase
    · exact inv_raiseFail hbase
    · exact inv_raiseFail hbase
    · exact inv_finishOk (base_dacWrite hbase ch _)
  | v1 ch w a => exact inv_waveV1 hi ch w a
  | w3 =>
    simp only [writeW3]
    split
    · exact inv_raiseFail hbase
    · rename_i hcnt
      exact inv_goto hbase (.refl s) (hseq.advance (hadmit := fun _ => .inr (Int.not_lt.1 hcnt)))
  | w4 ch =>
    simp only [writeW4]
    split
    · exact inv_raiseFail (base_mapAsked hbase)
    · have hasked : Quiet s s.mapAsked := quiet_of_regs (by simp) (by simp)
      exact inv_modChan_goto (base_mapAsked hbase) (seqInv_of_quiet hseq.advance hasked)
  | w5 ch => exact inv_modChan_goto (base_noteLost hbase ch) (seqInv_of_quiet hseq.advance (quiet_noteLost s ch))
  | w6 | w7 => exact inv_modChan_goto hbase hseq.advance
  | w12 => exact inv_modChan_goto hbase (hseq.advance (hsnap := fun _ => .inl ⟨rfl, rfl⟩))
  | w8 => exact inv_goto hbase (.refl s) (hseq.advance (hsnap := fun _ => .inr ⟨le_refl _, hseq.admitted rfl⟩))
  | w9 ch bl sz p =>
    have hnext : ∀ ph' (loc' : Locals), ph' = .w10 ∨ ph' = .w11 → loc'.c = loc.c →
        SeqInv s (.writeCmd ch bl sz p) ph' loc' := by
      rintro ph' loc' (rfl | rfl) hc <;> exact hseq.advance (hsnap := fun _ => .inl ⟨rfl, hc⟩)
    simp only [writeW9]
    split_ifs
    · have hcopy : Inv (s.fifoCopy ch 0 (2 * hbOf s.cfg)) := inv_fifoCopy hi (by simp [fbOf])
      exact inv_unlessFault hcopy (inv_goto hcopy.base (quiet_fifoCopy _ _ _ _) (hnext _ _ (.inr rfl) rfl))
    · exact inv_goto hbase (.refl s) (hnext _ _ (.inl rfl) rfl)
    · exact inv_goto hbase (.refl s) (hnext _ _ (.inr rfl) rfl)
  | w10 ch =>
    have hcopy : Inv (s.fifoCopy ch (copyDst s.cfg loc.h) (hbOf s.cfg)) := inv_fifoCopy hi (copyDst_le _ _)
    exact inv_unlessFault hcopy (inv_goto hcopy.base (quiet_fifoCopy _ _ _ _)
      (hseq.advance (hsnap := fun _ => .inl ⟨rfl, rfl⟩)))
  | w11 =>
    simp only [writeW11]
    split
    · exact inv_goto (base_emit hbase _) (quiet_emit s _) (hseq.advance (hsnap := fun _ => .inl ⟨rfl, rfl⟩))
    · exact inv_goto hbase (.refl s) (hseq.advance (hsnap := fun _ => .inl ⟨rfl, rfl⟩))
  | w13 ch =>
    simp only [writeW13]
    split
    · have hcount : BaseInv (s.modChan ch fun c => { c with cnt := c.cnt + loc.n }) := base_modChan_same hbase ch _
        fun _ => ⟨rfl, rfl, rfl, rfl, rfl, rfl, rfl, rfl, rfl, rfl, rfl⟩
      have hself := modChan_chan_self (hseq.inRange (by simp [firstPhase])) fun c => { c with cnt := c.cnt + loc.n }
      have hnch := modChan_nch s ch fun c => { c with cnt := c.cnt + loc.n }
      have hactive := congrArg Channel.active hself
      have hmode := congrArg Channel.mode hself
      exact inv_of_busy (base_goto (base_critical ch _ hcount) _ _ _) rfl (seqInv_w14 hseq.advance hnch hactive hmode)
    · exact inv_of_quiet hi (base_raiseFault hbase _) ⟨rfl, (Quiet.refl s).chan⟩ rfl
  | w14 ch =>
    have hstream : (s.chan ch).mode = .stream := hseq.isStream rfl
    have hstart : BaseInv (s.timerStart ch (s.chan ch).rate.toNat) :=
      base_timerStart hbase fun _ => ⟨hseq.isActive rfl, hstream ▸ nofun⟩
    simp only [writeW14]
    split
    · exact inv_unlessFault (inv_of_quiet hi hstart (quiet_timerStart _ _ _) (timerStart_seq _ _ _)) (inv_endCommand hstart)
    · exact inv_unlessFault hi (inv_endCommand hbase)
  | stray => exact inv_of_busy (base_goto hbase _ _ _) rfl (seqInv_firstPhase _ _ _)

/-- Settles O46: of the phases by `PhaseRun.inv`, of the other agents by the laws of their operations. -/
theorem stepKeepsInvariant : Obligations.StepKeepsInvariant := by
  intro s t hi h
  obtain ⟨-, ts, h⟩ := step_cases h
  have hts : Inv { s with sched := ts } := inv_turn hi ts s.rq
  rcases h with rfl | ⟨i, ph, loc, hb, he⟩ | ⟨r, rest, i, -, -, -, rfl⟩ | ⟨r, rest, hidle, -, -, rfl⟩ | ⟨ch, -, -, rfl⟩
    | ⟨ch, -, -, rfl⟩ | ⟨r, -, rfl⟩ | ⟨w, bytes, -, rfl⟩
  · exact hts
  · exact (phaseRun_of_exec (by exact hb) he).inv hb hts
  · exact inv_of_busy (base_goto (inv_turn hi ts rest).base _ _ _) rfl (seqInv_firstPhase _ _ _)
  · exact inv_of_idle (base_emit (inv_turn hi ts rest).base _) hidle
  · obtain ⟨hbase, hq⟩ := refill_quiet hts.base ch
    exact inv_of_quiet hts hbase hq (refill_seq _ ch)
  · exact inv_of_quiet hts (base_tick hts.base ch) (quiet_tick _ ch) rfl
  · exact inv_turn hi ts (s.rq ++ [r])
  · exact inv_of_quiet hts (base_supply hts.base w bytes) (quiet_of_regs (by simp) (by simp)) (by simp)

end Sys2Proof.Machine

/-! ## Proofs about memory: the copy, the handler that refills, the client blocks

The handler is shown case by case to be one copy, one completion or one underflow; a drain is an induction over its events,
whose records `Drained` describes. -/

namespace Sys2Proof.Machine

variable {s t : State} {ch : Nat}

/-! ### The copy primitive -/

/-- The mark of R80 as a proposition: the engine moves, and a byte written lies in the half its position is in. -/
theorem raceHit_iff (cfg : Config) (c : Channel) (dst n : Nat) :
    raceHit cfg c dst n = true ↔
      c.timerRun = true ∧ c.dmaEn = true ∧ ∃ i, i < n ∧ (dst + i) / hbOf cfg = c.dmaPos / hbOf cfg := by
  simp [raceHit, Channel.ticking, and_assoc]

/-- A copy of at least one byte overreads when its last byte lies beyond the block's end (R79). -/
theorem overreads_of_lt {n : Nat} (hn : 0 < n) (h : (s.source ch).len < (s.chan ch).ptr.off + n) :
    s.overreads ch n = true := by
  simp [State.overreads, hn, h]

theorem overreads_of_le {n : Nat} (h : (s.chan ch).ptr.off + n ≤ (s.source ch).len) : s.overreads ch n = false := by
  simp [State.overreads, Nat.not_lt.2 h]

theorem fifoCopy_of_overread {dst n : Nat} (h : s.overreads ch n = true) :
    s.fifoCopy ch dst n = s.raiseFault (.sourceOverread ch) := by
  simp [State.fifoCopy, h]

theorem fifoCopy_of_fits {dst n : Nat} (h : s.overreads ch n = false) :
    s.fifoCopy ch dst n = s.modChan ch (copyInto s.cfg (s.source ch) dst n) := by
  simp [State.fifoCopy, h]

/-- Settles O28: a copy that does not overread adds exactly `raceHit` to the mark. -/
theorem copyMarksRace : Obligations.CopyMarksRace := by
  intro s ch dst n hch hover
  have hrace : ((s.fifoCopy ch dst n).chan ch).race = ((s.chan ch).race || raceHit s.cfg (s.chan ch) dst n) := by
    rw [fifoCopy_of_fits hover, modChan_chan_self hch]; rfl
  have hhit := raceHit_iff s.cfg (s.chan ch) dst n
  refine ⟨fun h => ?_, fun h => ?_⟩
  · rw [hrace, hhit.2 h, Bool.or_true]
  · rw [hrace, Bool.eq_false_iff.2 fun h' => h (hhit.1 h'), Bool.or_false]

/-- What follows a copy that overreads is not executed (R301). -/
theorem unlessFault_fifoCopy_of_overread {dst n : Nat} {f : State → State} (h : s.overreads ch n = true) :
    (s.fifoCopy ch dst n).unlessFault f = s.raiseFault (.sourceOverread ch) := by
  rw [fifoCopy_of_overread h, unlessFault_of_some rfl]

/-- A copy leaves every count (R78). -/
theorem fifoCopy_cnt (s : State) (ch dst n j : Nat) : ((s.fifoCopy ch dst n).chan j).cnt = (s.chan j).cnt :=
  congrArg Regs.cnt (fifoCopy_regs s ch dst n j)

/-! ### The handler, case by case -/

/-- The count of an event leaves the cursor and the blocks. -/
theorem refillCount_source (hch : ch < s.nch) : (s.refillCount ch).source ch = s.source ch := by
  rw [State.source, refillCount_chan hch]; rfl

theorem refillCount_overreads (hch : ch < s.nch) (n : Nat) :
    (s.refillCount ch).overreads ch n = s.overreads ch n := by
  rw [State.overreads, State.overreads, refillCount_source hch, refillCount_chan hch]; rfl

theorem refillCount_cnt (hch : ch < s.nch) : ((s.refillCount ch).chan ch).cnt = (s.chan ch).cnt - 1 := by
  rw [refillCount_chan hch]; rfl

/-- With a block in flight and two units owed after the decrement, the handler is the count and one copy; whether the copy
faults or not, step 5 does nothing (R194, R196). -/
theorem refill_eq_fifoCopy {h : Word} (hch : ch < s.nch) (hb : (s.chan ch).block = some h) (hc : 3 ≤ (s.chan ch).cnt) :
    s.refill ch = (s.refillCount ch).fifoCopy ch (copyDst s.cfg (!(s.chan ch).half)) (hbOf s.cfg) := by
  have hcount := refillCount_chan (s := s) hch
  have hcnt := refillCount_cnt (s := s) hch
  have hserve : (s.refillCount ch).refillServe ch
      = (s.refillCount ch).fifoCopy ch (copyDst s.cfg (!(s.chan ch).half)) (hbOf s.cfg) := by
    rw [refillServe_copy (h := h) (by rw [hcount]; exact hb) (by omega), hcount]; rfl
  rw [State.refill, hserve, State.unlessFault]
  split
  · exact refillUnderflow_of_pos (by rw [fifoCopy_cnt]; omega)
  · rfl

/-- The record after a handler run that copies one unit of block `b` into the half just vacated (R191 to R194). -/
def refilledRecord (cfg : Config) (b : Block) (c : Channel) : Channel :=
  copyInto cfg b (copyDst cfg (!c.half)) (hbOf cfg) (countEvent c)

/-- While two units stay owed and the block has one more, the handler is one update of its channel (R194). -/
theorem refill_eq_modChan {h : Word} (hch : ch < s.nch) (hb : (s.chan ch).block = some h) (hc : 3 ≤ (s.chan ch).cnt)
    (hlen : (s.chan ch).ptr.off + hbOf s.cfg ≤ (s.source ch).len) :
    s.refill ch = s.modChan ch (refilledRecord s.cfg (s.source ch)) := by
  rw [refill_eq_fifoCopy hch hb hc, fifoCopy_of_fits (by rw [refillCount_overreads hch]; exact overreads_of_le hlen),
    refillCount_source hch, State.refillCount, modChan_modChan hch]
  rfl

/-- Settles O40: the record is `refilledRecord`'s, its bytes those of `copyInto_read`. -/
theorem refillCopiesOneUnit : Obligations.RefillCopiesOneUnit := by
  intro s ch h
  dsimp only
  intro hch _ hwf hb hc hlen
  have hdst : (if (s.chan ch).half then s.cfg.h * s.cfg.sb else 0) = copyDst s.cfg (!(s.chan ch).half) := by
    cases (s.chan ch).half <;> rfl
  rw [hdst]
  refine ⟨(refilledRecord s.cfg (s.source ch) (s.chan ch)).fifo, refill_eq_modChan hch hb hc hlen,
    copyInto_wf (by exact hwf) _ _ _ _, fun o ho => ?_, fun o ho => ?_⟩
  · rw [refilledRecord, copyInto_read (by exact hwf), if_pos ⟨Nat.le_add_right _ _, Nat.add_lt_add_left ho _⟩,
      Nat.add_sub_cancel_left]
    rfl
  · rw [refilledRecord, copyInto_read (by exact hwf), if_neg (by unfold hbOf; omega)]
    rfl

/-- Phase `W9` of the running WRITE (R167, R168). -/
theorem exec_w9 {block size p : Word} {loc : Locals} (hb : s.seq = .busy (.writeCmd ch block size p) .w9 loc) :
    exec (.writeCmd ch block size p) s = .next (writeW9 (.writeCmd ch block size p) ch loc s) := by
  simp [exec, execWrite, hb]

/-- Phase `W10` of the running WRITE (R169). -/
theorem exec_w10 {block size p : Word} {loc : Locals} (hb : s.seq = .busy (.writeCmd ch block size p) .w10 loc) :
    exec (.writeCmd ch block size p) s = .next (writeW10 (.writeCmd ch block size p) ch loc s) := by
  simp [exec, execWrite, hb]

/-- Settles O29: a copy that overreads is its fault alone, and nothing after it in the phase or the handler runs. -/
theorem overreadFaultsAndWritesNothing : Obligations.OverreadFaultsAndWritesNothing := by
  intro s ch hch hcfg _
  have hpos : 0 < hbOf s.cfg := hbOf_pos hcfg
  refine ⟨fun block size p loc hb hc hn hlen => ?_, fun block size p loc hb hlen => ?_, fun h hb hc hlen => ?_⟩
  · rw [exec_w9 hb, writeW9, if_pos ⟨hc, hn⟩, unlessFault_fifoCopy_of_overread (n := 2 * hbOf s.cfg)
      (overreads_of_lt (by omega) hlen)]
    rfl
  · rw [exec_w10 hb, writeW10, unlessFault_fifoCopy_of_overread (overreads_of_lt hpos hlen)]
    rfl
  · rw [refill_eq_fifoCopy hch hb hc,
      fifoCopy_of_overread (by rw [refillCount_overreads hch]; exact overreads_of_lt hpos hlen)]
    rfl

end Sys2Proof.Machine

namespace Sys2Proof.Machine

variable {s t : State}

/-! ### The client blocks -/

@[simp] theorem closeClock_blocks (s : State) (ch : Nat) : (s.closeClock ch).blocks = s.blocks := by
  unfold State.closeClock; split <;> rfl

@[simp] theorem openReady_blocks (s : State) (m : Mode) : (s.openReady m).blocks = s.blocks := by
  unfold State.openReady; split <;> simp

@[simp] theorem flushCancel_blocks (ch : Nat) (cap : Option Word) (s : State) :
    (flushCancel ch cap s).blocks = s.blocks := by
  cases cap <;> rfl

theorem unlessFault_blocks {f : State → State} (hf : (f s).blocks = s.blocks) :
    (s.unlessFault f).blocks = s.blocks := by
  unfold State.unlessFault
  split
  · exact hf
  · rfl

@[simp] theorem refillServe_blocks (s : State) (ch : Nat) : (s.refillServe ch).blocks = s.blocks := by
  unfold State.refillServe
  split
  · rfl
  · split
    · exact fifoCopy_blocks _ _ _ _
    · rfl

@[simp] theorem refillUnderflow_blocks (s : State) (ch : Nat) : (s.refillUnderflow ch).blocks = s.blocks := by
  unfold State.refillUnderflow
  split
  · dsimp only; split <;> rfl
  · rfl

@[simp] theorem refill_blocks (s : State) (ch : Nat) : (s.refill ch).blocks = s.blocks := by
  exact (unlessFault_blocks (refillUnderflow_blocks _ ch)).trans (refillServe_blocks _ ch)

/-- No phase of any command writes a client block (R73). -/
theorem PhaseRun.blocks_eq {i : Instr} {ph : Phase} {loc : Locals} (h : PhaseRun s i ph loc t) :
    t.blocks = s.blocks := by
  cases h with
  | o1 ch mode rate p =>
    rcases openO1_cases ch mode rate p s with ⟨st, e⟩ | ⟨m, st, e⟩ | ⟨m, -, -, -, e⟩ <;> simp [e]
  | c1 | f1 | w1 | w3 =>
    simp only [closeC1, flushF1, writeW1, writeW3]
    split <;> rfl
  | c2 | f2 | w2 =>
    simp only [closeC2, flushF2, writeW2]
    split_ifs <;> rfl
  | c3 | f3 | c4 | f4 | f6 | w5 | w6 | w7 | w8 | w12 | stray => rfl
  | c5 | f5 => simp
  | c6 => simp [closeC6]
  | l1 =>
    simp only [levelL1]
    split_ifs <;> rfl
  | v1 =>
    simp only [waveV1]
    split_ifs
    · rfl
    · rfl
    · rfl
    · rfl
    · rw [unlessFault_blocks rfl, timerStart_blocks]; rfl
  | w4 =>
    simp only [writeW4]
    split <;> simp
  | w9 =>
    simp only [writeW9]
    split_ifs
    · rw [unlessFault_blocks rfl, fifoCopy_blocks]
    · rfl
    · rfl
  | w10 => rw [writeW10, unlessFault_blocks rfl, fifoCopy_blocks]
  | w11 | w13 =>
    simp only [writeW11, writeW13]
    split <;> rfl
  | w14 =>
    simp only [writeW14]
    split <;> rw [unlessFault_blocks rfl]
    exact timerStart_blocks _ _ _

/-- Of all steps only the host's turn can write the client blocks (R73, R262). -/
theorem step_blocks (h : step s = .next t) : t.blocks = s.blocks
    ∨ ∃ w bytes ts, s.sched = .supply w bytes :: ts ∧ t = ({ s with sched := ts } : State).supply w bytes := by
  obtain ⟨-, ts, h⟩ := step_cases h
  rcases h with rfl | ⟨i, ph, loc, hb, he⟩ | ⟨r, rest, i, -, -, -, rfl⟩ | ⟨r, rest, -, -, -, rfl⟩ | ⟨ch, -, -, rfl⟩
    | ⟨ch, -, -, rfl⟩ | ⟨r, -, rfl⟩ | ⟨w, bytes, hs, rfl⟩
  · exact .inl rfl
  · exact .inl (phaseRun_of_exec (by exact hb) he).blocks_eq
  · exact .inl rfl
  · exact .inl rfl
  · exact .inl (refill_blocks _ ch)
  · exact .inl rfl
  · exact .inl rfl
  · exact .inr ⟨w, bytes, ts, hs, rfl⟩

theorem blk_congr (h : t.blocks = s.blocks) (w : Word) : t.blk w = s.blk w := by
  rw [State.blk, State.blk, h]

/-- The host's turn changes the block of `k` only as its own, outside the window of R92. -/
theorem supply_blk_ne {w k : Word} {bytes : List Byte} (hs : BlocksInv s.blocks)
    (h : (s.supply w bytes).blk k ≠ s.blk k) : w = k ∧ s.unanswered w = false := by
  cases hu : s.unanswered w with
  | true => exact absurd (by rw [supply_of_unanswered hu]) h
  | false =>
    rw [supply_of_answered hu, blk_putBlock hs] at h
    exact ⟨by_contra fun hne => h (if_neg hne), rfl⟩

/-- The host's turn is one step of a machine that has not faulted (log 8). -/
theorem step_supply {w : Word} {bytes : List Byte} {ts : List Turn} (hf : s.fault = none)
    (hs : s.sched = .supply w bytes :: ts) : step s = .next (({ s with sched := ts } : State).supply w bytes) := by
  simp [step_of_running hf, turnStep, hs]

/-- Settles O53: only a `supply` turn writes the blocks, and what it writes is `blk_putBlock`'s. -/
theorem blocksChangeOnlyByTheHost : Obligations.BlocksChangeOnlyByTheHost := by
  intro s h hinv
  refine ⟨fun t hstep hne => ?_, fun bytes ts hf hs => ⟨fun hu => ?_, fun hu => ?_⟩⟩
  · rcases step_blocks hstep with e | ⟨w, bytes, ts, hs, rfl⟩
    · exact absurd (blk_congr e h) hne
    · obtain ⟨rfl, hu⟩ := supply_blk_ne (s := { s with sched := ts }) hinv hne
      exact ⟨hu, bytes, ts, hs⟩
  · rw [step_supply hf hs, supply_of_unanswered (by exact hu)]
  · have hput := blk_putBlock hinv h
    refine ⟨putBlock (Block.ofBytes h bytes) s.blocks, ?_, ?_, fun o => ?_, fun j hj => ?_⟩
    · rw [step_supply hf hs, supply_of_answered (by exact hu)]
    · rw [hput, if_pos rfl, ofBytes_len]
    · rw [hput, if_pos rfl, ofBytes_read]
    · rw [hput, if_neg hj.symm]

end Sys2Proof.Machine

namespace Sys2Proof.Machine

variable {s : State} {ch : Nat} {cfg : Config} {b : Block} {c d : Channel} {m : Nat}

/-! ### A block drained by serviced events (R201) -/

/-- With one unit owed after the decrement the handler completes the block in flight and does no more (R195, R196). -/
theorem refill_eq_complete {h : Word} (hch : ch < s.nch) (hf : s.fault = none) (hb : (s.chan ch).block = some h)
    (hc : (s.chan ch).cnt = 2) : s.refill ch
      = (s.emit (.writeDone (s.chan ch).process ch .ok h (s.chan ch).size)).modChan ch
          fun c => { countEvent c with block := none } := by
  have hcount := refillCount_chan (s := s) hch
  have hcnt := refillCount_cnt (s := s) hch
  have hserve : (s.refillCount ch).refillServe ch
      = (s.emit (.writeDone (s.chan ch).process ch .ok h (s.chan ch).size)).modChan ch
          fun c => { countEvent c with block := none } := by
    rw [refillServe_complete (h := h) (by rw [hcount]; exact hb) (by omega), State.refillComplete, hcount]
    exact modChan_modChan (s := s.emit _) hch _ _
  rw [State.refill, hserve, unlessFault_of_none (by exact hf), refillUnderflow_of_pos]
  rw [modChan_chan_self (by exact hch)]
  change 0 < (s.chan ch).cnt - 1
  omega

/-- Below the underflow threshold step 5 resets `half`, stops the timer and emits the diagnostic (R196, R299). -/
theorem refillUnderflow_of_nonpos (hch : ch < s.nch) (hc : (s.chan ch).cnt ≤ 0) : s.refillUnderflow ch
      = { (s.modChan ch fun c => { c with half := false, timerRun := false }).logCall (.stop ch) with
          resp := s.resp ++ if s.cfg.diagUnderflow then [.diag ch] else [] } := by
  have hmod := modChan_modChan hch (fun c => { c with half := false }) fun c => { c with timerRun := false }
  simp only [State.refillUnderflow, if_pos hc, State.timerStop, hmod, logCall_cfg, modChan_cfg]
  split
  · rfl
  · rw [List.append_nil]; rfl

/-- With no block in flight and nothing owed after the decrement the handler is the count and the underflow. -/
theorem refill_eq_underflow (hch : ch < s.nch) (hf : s.fault = none) (hb : (s.chan ch).block = none)
    (hc : (s.chan ch).cnt ≤ 1) : s.refill ch
      = { (s.modChan ch fun c => { countEvent c with half := false, timerRun := false }).logCall (.stop ch) with
          resp := s.resp ++ if s.cfg.diagUnderflow then [.diag ch] else [] } := by
  have hcount := refillCount_chan (s := s) hch
  have hcnt := refillCount_cnt (s := s) hch
  rw [State.refill, refillServe_none (by rw [hcount]; exact hb), unlessFault_of_none (by exact hf),
    refillUnderflow_of_nonpos (by exact (modChan_nch s ch _).symm ▸ hch) (by omega), State.refillCount,
    modChan_modChan hch]
  rfl

/-- An event raised and serviced at once is one run of the handler, whatever the flags were (R190, R191). -/
theorem irqTurn_pendEvent (hch : ch < s.nch) (hmask : s.irqMask = false) (hirq : (s.chan ch).irqEn = true) :
    irqTurn ch (s.pendEvent ch) = s.refill ch := by
  have hen : (s.pendEvent ch).refillEnabled ch = true := by
    simp [State.refillEnabled, State.pendEvent, modChan_chan_self hch, Channel.pending, hch, hmask, hirq]
  have hcount : (s.pendEvent ch).refillCount ch = s.refillCount ch := modChan_modChan hch _ countEvent
  rw [irqTurn, if_pos hen, State.refill, hcount, State.refill]

/-- The record after the two events that end a drain: counted twice, the block completed, the underflow (R195, R196). -/
def endedRecord (c : Channel) : Channel :=
  { countEvent (countEvent c) with block := none, half := false, timerRun := false }

/-- The two serviced events that end a drain: the block completed once from the registers, the timer stopped once. -/
theorem servicedEvents_two {h : Word} (hch : ch < s.nch) (hf : s.fault = none) (hmask : s.irqMask = false)
    (hirq : (s.chan ch).irqEn = true) (hb : (s.chan ch).block = some h) (hc : (s.chan ch).cnt = 2) :
    s.servicedEvents ch 2
      = { s.modChan ch endedRecord with
          resp := s.resp ++ .writeDone (s.chan ch).process ch .ok h (s.chan ch).size
            :: if s.cfg.diagUnderflow then [.diag ch] else []
          ctl := s.ctl ++ [.stop ch] } := by
  have hfirst := refill_eq_complete hch hf hb hc
  have hnch : ch < (s.refill ch).nch := by rw [hfirst, modChan_nch]; exact hch
  have hself : (s.refill ch).chan ch = { countEvent (s.chan ch) with block := none } := by
    rw [hfirst]; exact modChan_chan_self (s := s.emit _) hch _
  have hcnt : ((s.refill ch).chan ch).cnt = (s.chan ch).cnt - 1 := by rw [hself]; rfl
  have hmask' : (s.refill ch).irqMask = false := by rw [hfirst]; exact hmask
  have hirq' : ((s.refill ch).chan ch).irqEn = true := by rw [hself]; exact hirq
  have hsecond := refill_eq_underflow hnch (by rw [hfirst]; exact hf) (by rw [hself]) (by omega)
  rw [State.servicedEvents, State.servicedEvents, State.servicedEvents, irqTurn_pendEvent hch hmask hirq,
    irqTurn_pendEvent hnch hmask' hirq', hsecond, hfirst, modChan_modChan (by exact hch), List.append_cons s.resp]
  rfl

/-- Where unit `i` of a drain goes that starts with the half value `half`: the two halves in turn, first the one `half`
names (R81). -/
def unitDst (cfg : Config) (half : Bool) (i : Nat) : Nat := if half = decide (i % 2 = 0) then hbOf cfg else 0

/-- Two units copied one after the other go to different halves. -/
theorem unitDst_succ_disjoint (cfg : Config) (half : Bool) (i o : Nat) (ho : o < hbOf cfg) :
    ¬(unitDst cfg half (i + 1) ≤ unitDst cfg half i + o
      ∧ unitDst cfg half i + o < unitDst cfg half (i + 1) + hbOf cfg) := by
  unfold unitDst
  rcases Nat.mod_two_eq_zero_or_one i with hi | hi <;> cases half <;>
    simp [hi, Nat.succ_mod_two_eq_zero_iff] <;> omega

/-- Record `d` is record `c` after `m` events that each copied one unit of block `b` (R191 to R194, R201). -/
structure Drained (cfg : Config) (b : Block) (c : Channel) (m : Nat) (d : Channel) : Prop where
  irqEn : d.irqEn = c.irqEn
  block : d.block = c.block
  process : d.process = c.process
  size : d.size = c.size
  cnt : d.cnt = c.cnt - m
  half : d.half = (c.half == decide (m % 2 = 0))
  ptr : d.ptr = ⟨c.ptr.handle, c.ptr.off + m * hbOf cfg⟩
  fifoWf : Memory.wf d.fifo
  /-- The last two units are what the FIFO holds. -/
  copied : ∀ i o, i < m → m ≤ i + 2 → o < hbOf cfg →
    Memory.read d.fifo (unitDst cfg c.half i + o) = Memory.read b.bytes (c.ptr.off + i * hbOf cfg + o)
  kept : ∀ o, (∀ i, i < m → o < unitDst cfg c.half i ∨ unitDst cfg c.half i + hbOf cfg ≤ o) →
    Memory.read d.fifo o = Memory.read c.fifo o

theorem Drained.zero (hwf : Memory.wf c.fifo) : Drained cfg b c 0 c where
  irqEn := rfl
  block := rfl
  process := rfl
  size := rfl
  cnt := by simp
  half := by simp
  ptr := by simp
  fifoWf := hwf
  copied := nofun
  kept _ _ := rfl

/-- The next unit goes to `unitDst` of its number. -/
theorem Drained.copyDst_eq (h : Drained cfg b c m d) : copyDst cfg (!d.half) = unitDst cfg c.half m := by
  rw [h.half, copyDst, unitDst]
  cases c.half <;> cases decide (m % 2 = 0) <;> rfl

/-- What the FIFO reads as after the next unit. -/
theorem Drained.read_refilledRecord (h : Drained cfg b c m d) (o : Nat) :
    Memory.read (refilledRecord cfg b d).fifo o
      = if unitDst cfg c.half m ≤ o ∧ o < unitDst cfg c.half m + hbOf cfg
        then Memory.read b.bytes (c.ptr.off + m * hbOf cfg + (o - unitDst cfg c.half m)) else Memory.read d.fifo o := by
  rw [refilledRecord, copyInto_read (by exact h.fifoWf), h.copyDst_eq]
  simp only [countEvent, h.ptr]

theorem Drained.succ (h : Drained cfg b c m d) : Drained cfg b c (m + 1) (refilledRecord cfg b d) where
  irqEn := h.irqEn
  block := h.block
  process := h.process
  size := h.size
  cnt := by
    change d.cnt - 1 = _
    rw [h.cnt]; push_cast; ring
  half := by
    change (!d.half) = _
    rw [h.half]
    rcases Nat.mod_two_eq_zero_or_one m with hm | hm <;> cases c.half <;>
      simp [hm, Nat.succ_mod_two_eq_zero_iff]
  ptr := by
    change Cursor.mk d.ptr.handle (d.ptr.off + hbOf cfg) = _
    rw [h.ptr, Nat.add_mul, Nat.one_mul, Nat.add_assoc]
  fifoWf := copyInto_wf (by exact h.fifoWf) _ _ _ _
  copied i o hi hlast ho := by
    rw [h.read_refilledRecord]
    by_cases him : i = m
    · rw [him, if_pos ⟨Nat.le_add_right _ _, Nat.add_lt_add_left ho _⟩, Nat.add_sub_cancel_left]
    · obtain rfl : m = i + 1 := by omega
      rw [if_neg (unitDst_succ_disjoint cfg c.half i o ho)]
      exact h.copied i o (Nat.lt_succ_self i) (by omega) ho
  kept o hout := by
    have hm := hout m (Nat.lt_succ_self m)
    rw [h.read_refilledRecord, if_neg (by omega)]
    exact h.kept o fun i hi => hout i (Nat.lt_succ_of_lt hi)

/-- Writing a channel's own record changes nothing. -/
theorem modChan_own (hch : ch < s.nch) : (s.modChan ch fun _ => s.chan ch) = s := by
  have hset : s.chans.set ch (s.chan ch) = s.chans := by
    unfold State.nch at hch
    simp [State.chan, hch]
  rw [State.modChan, hset]

/-- While two units stay owed and the block has bytes, `m` serviced events are one update of the channel to a drained
record. -/
theorem servicedEvents_drained {h : Word} (hch : ch < s.nch) (hmask : s.irqMask = false)
    (hirq : (s.chan ch).irqEn = true) (hb : (s.chan ch).block = some h) (hwf : Memory.wf (s.chan ch).fifo)
    (hc : (m : Int) + 2 ≤ (s.chan ch).cnt) (hlen : (s.chan ch).ptr.off + m * hbOf s.cfg ≤ (s.source ch).len) :
    ∃ d, Drained s.cfg (s.source ch) (s.chan ch) m d ∧ s.servicedEvents ch m = s.modChan ch fun _ => d := by
  induction m with
  | zero => exact ⟨s.chan ch, .zero hwf, (modChan_own hch).symm⟩
  | succ m ih =>
    rw [Nat.add_mul, Nat.one_mul] at hlen
    obtain ⟨d, hd, e⟩ := ih (by push_cast at hc; omega) (by omega)
    have hself := modChan_chan_self hch fun _ => d
    have hnch : ch < (s.modChan ch fun _ => d).nch := (modChan_nch s ch _).symm ▸ hch
    have hsource : (s.modChan ch fun _ => d).source ch = s.source ch := by rw [State.source, hself, hd.ptr]; rfl
    have hserviced := irqTurn_pendEvent (s := s.modChan ch fun _ => d) hnch hmask (by rw [hself, hd.irqEn, hirq])
    have hcopy := refill_eq_modChan (s := s.modChan ch fun _ => d) (h := h) hnch (by rw [hself, hd.block, hb])
      (by rw [hself, hd.cnt]; push_cast at hc; omega) (by rw [hself, hsource, hd.ptr]; simpa [Nat.add_assoc] using hlen)
    refine ⟨_, hd.succ, ?_⟩
    rw [State.servicedEvents, e, hserviced, hcopy, hsource, modChan_modChan hch]
    rfl

/-- Settles O57: after the copies of `servicedEvents_drained` two events end the drain. -/
theorem eventsDrainTheBlock : Obligations.EventsDrainTheBlock := by
  intro s ch n h
  dsimp only
  intro hch hf hmask hirq hb hn hcnt hwf hlen
  obtain ⟨m, rfl⟩ : ∃ m, n = m + 2 := ⟨n - 2, by omega⟩
  rw [Nat.add_sub_cancel] at hlen ⊢
  obtain ⟨d, hd, hdrain⟩ := servicedEvents_drained hch hmask hirq hb hwf (by rw [hcnt]; rfl) hlen
  have hself := modChan_chan_self hch fun _ => d
  have hnch : ch < (s.modChan ch fun _ => d).nch := (modChan_nch s ch _).symm ▸ hch
  have hend : s.servicedEvents ch (m + 2) = _ :=
    (congrArg (State.servicedEvents · ch 2) hdrain).trans <|
      servicedEvents_two (h := h) hnch hf hmask (by rw [hself, hd.irqEn, hirq]) (by rw [hself, hd.block, hb])
        (by rw [hself, hd.cnt, hcnt]; push_cast; ring)
  have hrec : (s.servicedEvents ch (m + 2)).chan ch = endedRecord d := by
    rw [hend]; exact (modChan_chan_self hnch endedRecord).trans (congrArg endedRecord hself)
  rw [hrec]
  refine ⟨by rw [hend]; exact hf, ?_, rfl, rfl, rfl, hd.ptr, ?_, by rw [hend]; rfl, hd.copied, hd.kept⟩
  · change d.cnt - 1 - 1 = 0
    rw [hd.cnt, hcnt]; push_cast; ring
  · rw [hend, hself, hd.process, hd.size]; rfl

end Sys2Proof.Machine

/-! ## Proofs about the wire formats: requests, responses, program text

`decode_eq_ok_iff` and `decode_eq_error_iff` say once what the decoder answers, in terms of the request's fields; with the
fields of an encoded command (`encodeFields_of_wellFormed`) they settle the statements about requests. -/

namespace Sys2Proof.Laws

open Sys2Proof.Machine

/-! ### The decoder -/

/-- A request decodes to a command exactly if its fields are the command's (R101, R105). -/
theorem decode_eq_ok_iff {r : Request} {i : Instr} :
    decode r = .ok i ↔
      r.op = i.opcode ∧ r.ch = i.chIdx ∧ r.w1 = i.paramA ∧ r.w2 = i.paramB ∧ r.w3 = i.sender := by
  constructor
  · intro h
    unfold decode at h
    split_ifs at h with hop hop hop hop hop hop
    all_goals
      cases h
      exact ⟨hop, rfl, rfl, rfl, rfl⟩
  · rintro ⟨hop, hch, ha, hb, hp⟩
    cases i
    all_goals
      subst hch ha hb hp
      simp [decode, hop, Instr.opcode]

/-- The decoder's one error: it names the opcode, which is none of the six (R102, R109). -/
theorem decode_eq_error_iff {r : Request} {e : DecodeError} :
    decode r = .error e ↔ e = .unknownOpcode r.op ∧ (r.op.toNat = 0 ∨ 6 < r.op.toNat) := by
  unfold decode
  split_ifs with h1 h2 h3 h4 h5 h6
  case neg =>
    have hout : r.op.toNat = 0 ∨ 6 < r.op.toNat := by bv_omega
    rw [and_iff_left hout, Except.error.injEq, eq_comm]
  all_goals simp [*]

/-- Settles O2: the fields of the encoding are the command's. -/
theorem decodeAfterEncode : Obligations.DecodeAfterEncode := by
  intro i hwf
  obtain ⟨hop, hch, -, ha, hb, hp⟩ := encodeFields_of_wellFormed i hwf
  exact decode_eq_ok_iff.mpr ⟨hop, hch, ha, hb, hp⟩

/-- The two fields of a word make up its low half (R101). -/
theorem encodeWord0_fields (w : Word) :
    encodeWord0 (w.extractLsb' 0 8) (w.extractLsb' 8 8).toNat = w &&& 0x0000FFFF := by
  have hmask : ∀ k < 32, (0x0000FFFF : Word).getLsbD k = decide (k < 16) := by decide
  rw [encodeWord0, BitVec.ofNat_toNat]
  apply BitVec.eq_of_getLsbD_eq
  intro k hk
  rw [BitVec.getLsbD_and, hmask k hk]
  by_cases hop : k < 8
  · simp [hk, hop, show k < 16 by omega]
  · have hadd : 8 + (k - 8) = k := by omega
    by_cases hch : k < 16
    · simp [hk, hop, hch, hadd, show k - 8 < 8 by omega]
    · simp [hop, hch, show ¬ k - 8 < 8 by omega]

/-- A request's channel index fits its field, so that what it decodes to is well-formed (R264). -/
theorem wellFormed_of_decode {r : Request} {i : Instr} (h : decode r = .ok i) : WellFormed i = true := by
  obtain ⟨-, hch, -⟩ := decode_eq_ok_iff.mp h
  exact decide_eq_true (hch ▸ (r.w0.extractLsb' 8 8).isLt)

/-- Settles O3: the command's fields are the request's, and its first word is rebuilt from the two in `w0`. -/
theorem encodeAfterDecode : Obligations.EncodeAfterDecode := by
  intro r i h
  refine ⟨wellFormed_of_decode h, ?_⟩
  obtain ⟨hop, hch, ha, hb, hp⟩ := decode_eq_ok_iff.mp h
  rw [encode, ← hop, ← hch, ← ha, ← hb, ← hp, Request.op, Request.ch, encodeWord0_fields]

/-- Settles O1: rows of the table, evaluated. -/
theorem tableWordsDecode : Obligations.TableWordsDecode := by
  unfold Obligations.TableWordsDecode
  decide

/-- Settles O4, by the decoder's one error. -/
theorem decodeRefusesUnknownOpcodes : Obligations.DecodeRefusesUnknownOpcodes := by
  intro r
  refine ⟨?_, fun e h => (decode_eq_error_iff.mp h).1⟩
  rw [decode_eq_error_iff]
  exact and_iff_right rfl

/-! ### Responses -/

/-- The four bytes of a response's first word, from the low end up (R107). -/
theorem responseWord0_fields (status op kind : Byte) {ch : Nat} (hch : ch < 256) :
    (responseWord0 status op ch kind).extractLsb' 0 8 = kind
    ∧ ((responseWord0 status op ch kind).extractLsb' 8 8).toNat = ch
    ∧ (responseWord0 status op ch kind).extractLsb' 16 8 = op
    ∧ (responseWord0 status op ch kind).extractLsb' 24 8 = status := by
  unfold responseWord0
  refine ⟨BitVec.extractLsb'_append_eq_right, ?_, ?_, ?_⟩
  · rw [BitVec.extractLsb'_append_eq_of_le (by decide), BitVec.extractLsb'_append_eq_right, BitVec.toNat_ofNat,
      Nat.mod_eq_of_lt hch]
  · rw [BitVec.extractLsb'_append_eq_of_le (by decide), BitVec.extractLsb'_append_eq_of_le (by decide),
      BitVec.extractLsb'_append_eq_right]
  · rw [BitVec.extractLsb'_append_eq_of_le (by decide), BitVec.extractLsb'_append_eq_of_le (by decide),
      BitVec.extractLsb'_append_eq_left]

/-- Settles O5: each form is `responseWord0` of its fields, with the other words as given. -/
theorem responseWordFields : Obligations.ResponseWordFields := by
  refine ⟨fun cfg dest ch op st blk hch => ?_, fun cfg dest ch st blk size hch => ?_, fun cfg ch hch => ?_⟩
  · obtain ⟨hkind, hch, hop, hst⟩ := responseWord0_fields (statusCode st) op 0x01 hch
    exact ⟨hkind, hch, hop, hst, rfl, rfl, rfl⟩
  · obtain ⟨hkind, hch, hop, hst⟩ := responseWord0_fields (statusCode st) 0x03 0x02 hch
    exact ⟨hkind, hch, hop, hst, rfl, rfl, rfl⟩
  · obtain ⟨hkind, hch, hop, hst⟩ := responseWord0_fields 0x00 0x00 0x03 hch
    exact ⟨hkind, hch, hop, hst, rfl, rfl, rfl⟩

/-! ### Status numbers -/

/-- The number of a mapping error has the top bit set and the error's code below it (R108). -/
theorem statusCode_mapError_toNat (e : BitVec 7) : (statusCode (.mapError e)).toNat = 0x80 + e.toNat := by
  rw [statusCode, BitVec.toNat_append, ← Nat.shiftLeft_add_eq_or_of_lt e.isLt]
  rfl

/-- The status a number of R108's table stands for; a number never emitted reads as `cancelled`. -/
def statusOfCode (c : Byte) : Status :=
  if 0x80 ≤ c.toNat then .mapError (c.setWidth 7)
  else match c.toNat with
    | 0 => .ok
    | 1 => .invalidParams
    | 2 => .alreadyConfigured
    | 3 => .notConfigured
    | 4 => .inProgress
    | 5 => .notSupported
    | 6 => .outOfMemory
    | _ => .cancelled

/-- A status is read back from its number. -/
theorem statusOfCode_statusCode : Function.LeftInverse statusOfCode statusCode := by
  intro st
  cases st with
  | mapError e =>
    rw [statusOfCode, statusCode_mapError_toNat, if_pos (Nat.le_add_right _ _)]
    exact congrArg Status.mapError BitVec.setWidth_append_eq_right
  | _ => rfl

/-- Settles O6: the numbers are distinct because a status is read back from its own. -/
theorem statusCodesDistinct : Obligations.StatusCodesDistinct := by
  refine ⟨rfl, rfl, rfl, rfl, rfl, rfl, rfl, rfl, statusCode_mapError_toNat,
    statusOfCode_statusCode.injective, fun st => ?_⟩
  cases st with
  | mapError e => exact .inr (.inr (statusCode_mapError_toNat e ▸ Nat.le_add_right _ _))
  | cancelled => exact .inr (.inl rfl)
  | _ => exact .inl (by decide)

/-! ### Program text -/

/-- Settles O60: the worked line is evaluated, and the turns of PLAY are those of its two lines by definition. -/
theorem linesAssemble : Obligations.LinesAssemble :=
  ⟨by decide, by decide, fun _ _ => rfl⟩

end Sys2Proof.Laws

/-! ## Proofs about OPEN and CLOSE

`PhaseRun.exec_eq`, the converse of the inversion `phaseRun_of_exec`, runs a phase. What OPEN does past its checks is
`openO1_opened`, what CLOSE does in its last phase is `closeC6_eq`; the run of both commands is put together from the run
of each. -/

namespace Sys2Proof.Machine

variable {s t : State} {i : Instr} {ph : Phase} {loc : Locals} {ch j : Nat}

/-! ### Running a phase -/

/-- A phase has the next state `PhaseRun` gives; whose command `seq` holds is not read (log 11). -/
theorem PhaseRun.exec_eq (h : PhaseRun s i ph loc t) {i' : Instr} (hb : s.seq = .busy i' ph loc) :
    exec i s = .next t := by
  cases h
  case stray hp => exact exec_other hb hp
  all_goals simp only [exec, execOpen, execClose, execWrite, execFlush, execSetLevel, execSetWave, hb]

/-- Every command has a next state in every phase. -/
theorem exists_phaseRun (s : State) (i : Instr) (ph : Phase) (loc : Locals) : ∃ t, PhaseRun s i ph loc t := by
  by_cases hp : ph ∈ phasesOf i
  · cases i
    all_goals
      simp only [phasesOf, List.mem_cons, List.not_mem_nil, or_false] at hp
      rcases hp with rfl | rfl | rfl | rfl | rfl | rfl | rfl | rfl | rfl | rfl | rfl | rfl | rfl | rfl
      all_goals exact ⟨_, by constructor⟩
  · exact ⟨_, .stray i ph loc hp⟩

/-! ### The other channels -/

theorem timerStop_chan_ne (hj : j ≠ ch) : (s.timerStop ch).chan j = s.chan j :=
  modChan_chan_ne hj fun c => { c with timerRun := false }

theorem dacWrite_chan_ne (hj : j ≠ ch) (v : Sample) : (s.dacWrite ch v).chan j = s.chan j :=
  modChan_chan_ne hj fun c => { c with dacDr := v, dacTrace := c.dacTrace ++ [v] }

theorem timerStart_chan_ne (hj : j ≠ ch) (rate : Nat) : (s.timerStart ch rate).chan j = s.chan j := by
  unfold State.timerStart
  split
  · rfl
  · exact modChan_chan_ne hj fun c => { c with timerRun := true, timerRate := rate }

theorem fifoCopy_chan_ne (hj : j ≠ ch) (dst n : Nat) : (s.fifoCopy ch dst n).chan j = s.chan j := by
  rcases fifoCopy_cases s ch dst n with ⟨-, e⟩ | ⟨-, e⟩ <;> rw [e]
  · rfl
  · exact modChan_chan_ne hj _

theorem unlessFault_chan {f : State → State} (hf : (f s).chan j = s.chan j) :
    (s.unlessFault f).chan j = s.chan j := by
  unfold State.unlessFault
  split
  · exact hf
  · rfl

theorem refillServe_chan_ne (hj : j ≠ ch) : (s.refillServe ch).chan j = s.chan j := by
  unfold State.refillServe
  split
  · rfl
  · split
    · exact fifoCopy_chan_ne hj _ _
    · exact modChan_chan_ne hj fun c => { c with block := none }

theorem refillUnderflow_chan_ne (hj : j ≠ ch) : (s.refillUnderflow ch).chan j = s.chan j := by
  have hstop : ((s.modChan ch fun c => { c with half := false }).timerStop ch).chan j = s.chan j :=
    (timerStop_chan_ne hj).trans (modChan_chan_ne hj _)
  unfold State.refillUnderflow
  split
  · dsimp only
    split <;> exact hstop
  · rfl

theorem refill_chan_ne (hj : j ≠ ch) : (s.refill ch).chan j = s.chan j :=
  (unlessFault_chan (refillUnderflow_chan_ne hj)).trans <|
    (refillServe_chan_ne hj).trans (modChan_chan_ne hj countEvent)

theorem closeC6_chan_ne (hj : j ≠ ch) : (closeC6 i ch s).chan j = s.chan j :=
  (modChan_chan_ne hj fun c => { c with active := false }).trans <| (closeClock_chan _ _ _).trans <|
    (modChan_chan_ne hj _).trans <| (timerStop_chan_ne hj).trans (modChan_chan_ne hj unregisterHandler)

/-- A phase that updates its channel and goes on. -/
theorem modChan_goto_chan_ne (hj : j ≠ ch) (f : Channel → Channel) :
    ((s.modChan ch f).goto i ph loc).chan j = s.chan j :=
  modChan_chan_ne hj f

/-- A phase whose critical section updates its channel, and that goes on (R88). -/
theorem critical_goto_chan_ne (hj : j ≠ ch) (f : Channel → Channel) :
    ((s.critical fun s => s.modChan ch f).goto i ph loc).chan j = s.chan j :=
  modChan_chan_ne hj f

/-- No phase of any command writes the record of a channel that is not its own (R134). -/
theorem PhaseRun.chan_ne (h : PhaseRun s i ph loc t) (hj : j ≠ i.chIdx) : t.chan j = s.chan j := by
  cases h with
  | o1 ch mode rate p =>
    rcases openO1_cases ch mode rate p s with ⟨st, e⟩ | ⟨m, st, e⟩ | ⟨m, -, -, -, e⟩ <;> rw [e]
    · rfl
    · exact openReady_chan s m j
    · exact (modChan_chan_ne hj _).trans (openReady_chan s m j)
  | c1 | f1 | w1 | w3 =>
    simp only [closeC1, flushF1, writeW1, writeW3]
    split <;> rfl
  | c2 | f2 | w2 =>
    simp only [closeC2, flushF2, writeW2]
    split_ifs <;> rfl
  | c3 | f3 => exact timerStop_chan_ne hj
  | c4 | f4 => exact critical_goto_chan_ne hj _
  | w5 | w6 | w7 | w12 => exact modChan_goto_chan_ne hj _
  | c5 | f5 => exact flushCancel_chan s _ _ j
  | c6 => exact closeC6_chan_ne hj
  | f6 | w8 | stray => rfl
  | l1 =>
    simp only [levelL1]
    split_ifs
    · rfl
    · rfl
    · rfl
    · exact (finishOk_chan _ _ j).trans (dacWrite_chan_ne hj _)
  | v1 ch w a =>
    have hstop : (s.timerStop ch).chan j = s.chan j := timerStop_chan_ne hj
    simp only [waveV1]
    split_ifs
    · rfl
    · rfl
    · rfl
    · exact hstop
    · exact (unlessFault_chan rfl).trans <| (timerStart_chan_ne hj _).trans <| (modChan_chan_ne hj _).trans hstop
  | w4 =>
    simp only [writeW4]
    split
    · exact mapAsked_chan s j
    · exact (modChan_goto_chan_ne hj _).trans (mapAsked_chan s j)
  | w9 =>
    simp only [writeW9]
    split_ifs
    · exact (unlessFault_chan rfl).trans (fifoCopy_chan_ne hj _ _)
    · rfl
    · rfl
  | w10 => exact (unlessFault_chan rfl).trans (fifoCopy_chan_ne hj _ _)
  | w11 =>
    simp only [writeW11]
    split <;> rfl
  | w13 =>
    simp only [writeW13]
    split
    · exact critical_goto_chan_ne hj _
    · rfl
  | w14 =>
    simp only [writeW14]
    split
    · exact (unlessFault_chan rfl).trans (timerStart_chan_ne hj _)
    · exact unlessFault_chan rfl

/-- Settles O51: of the phases by `PhaseRun.chan_ne`, of the handler and the tick by what they are made of. -/
theorem otherChannelsUntouched : Obligations.OtherChannelsUntouched := by
  rintro s t ch j hj
  refine ⟨?_, refill_chan_ne hj, modChan_chan_ne hj _⟩
  rintro i rfl he
  cases hb : s.seq with
  | idle =>
    rw [exec_idle hb] at he
    cases he
    rfl
  | busy i' ph loc =>
    obtain ⟨u, hu⟩ := exists_phaseRun s i ph loc
    rw [hu.exec_eq hb] at he
    cases he
    exact hu.chan_ne hj

/-! ### OPEN -/

/-- The mode word of OPEN that stands for a mode (R104). -/
def Mode.word : Mode → Word
  | .level => 0
  | .stream => 1
  | .wave => 2

/-- A word above 2 is no mode (R104). -/
theorem modeOf_eq_none {mode : Word} (h : 2 < mode.toNat) : modeOf mode = none := by
  unfold modeOf
  rw [if_neg (by bv_omega), if_neg (by bv_omega), if_neg (by bv_omega)]

@[simp] theorem modeOf_word (m : Mode) : modeOf m.word = some m := by
  cases m <;> rfl

theorem exists_mode_word {mode : Word} (h : mode.toNat ≤ 2) : ∃ m : Mode, mode = m.word := by
  have hword : mode = 0 ∨ mode = 1 ∨ mode = 2 := by bv_omega
  rcases hword with rfl | rfl | rfl
  exacts [⟨.level, rfl⟩, ⟨.stream, rfl⟩, ⟨.wave, rfl⟩]

/-- Past its checks and with a FIFO where its mode needs one, `O1` writes the record of the channel and ends (R132). -/
theorem openO1_opened {m : Mode} (hch : ch < s.nch) (ha : (s.chan ch).active = false)
    (halloc : m ≠ .level → s.allocAnswer = .ok) (rate p : Word) :
    openO1 ch m.word rate p s
      = ((s.openReady m).modChan ch (openedRecord s.cfg m rate)).finishOk (.openCmd ch m.word rate p) := by
  have hclock : ch < (s.setClock true).nch := hch
  have hasked : ch < (s.setClock true).allocAsked.nch := by simpa using hch
  unfold openO1
  dsimp only
  rw [if_neg (Nat.not_le.2 hch), modeOf_word]
  dsimp only
  rw [if_neg (Bool.eq_false_iff.1 ha)]
  cases m with
  | level =>
    simp only [State.openDac, State.dacWrite, State.openRecord, modChan_modChan hclock]
    rfl
  | stream =>
    have halloc : (s.setClock true).allocAnswer = .ok := halloc nofun
    simp only [halloc, State.openEngine, State.openStream, State.openDac, State.openRecord, modChan_modChan hasked]
    rfl
  | wave =>
    have halloc : (s.setClock true).allocAnswer = .ok := halloc nofun
    simp only [halloc, State.openEngine, State.openDac, State.openRecord, modChan_modChan hasked]
    rfl

/-- Past its checks and without the FIFO its mode needs, `O1` fails (R133). -/
theorem openO1_outOfMemory {m : Mode} (hm : m ≠ .level) (hch : ch < s.nch) (ha : (s.chan ch).active = false)
    (halloc : s.allocAnswer = .outOfMemory) (rate p : Word) :
    openO1 ch m.word rate p s = (s.openReady m).raiseFail (.openCmd ch m.word rate p) .outOfMemory := by
  have halloc : (s.setClock true).allocAnswer = .outOfMemory := halloc
  cases m with
  | level => exact absurd rfl hm
  | stream | wave => simp [openO1, Nat.not_le.2 hch, ha, halloc, State.openReady]

/-- Settles O14: the checks of `O1`, one after the other. -/
theorem openChecksInOrder : Obligations.OpenChecksInOrder := by
  intro s ch mode rate p loc hb
  dsimp only
  rw [(PhaseRun.o1 ch mode rate p loc).exec_eq hb, openO1]
  refine ⟨fun hch => ?_, fun hch hmode => ?_, fun hch hmode ha => ?_⟩
  · rw [if_pos hch]
    rfl
  · rw [if_neg (Nat.not_le.2 hch), modeOf_eq_none hmode]
    rfl
  · obtain ⟨m, rfl⟩ := exists_mode_word hmode
    rw [if_neg (Nat.not_le.2 hch), modeOf_word]
    dsimp only
    rw [if_pos ha]
    rfl

/-- What asking the allocator writes, as a record update (log 5). -/
theorem allocAsked_eq (s : State) :
    s.allocAsked = { s with
      allocIn := s.allocIn.tail
      asked := if s.allocIn.isEmpty then s.asked + 1 else s.asked } := by
  cases h : s.allocIn <;> simp [State.allocAsked, h]

/-- With a FIFO to allocate, OPEN writes its channel in the state left by the answer (R132, R258). -/
theorem openReady_of_ne_level {m : Mode} (hm : m ≠ .level) : s.openReady m = { s.allocAsked with clkEn := true } := by
  rw [State.openReady, if_neg hm, allocAsked_eq, allocAsked_eq]
  rfl

/-- Settles O15, by `openO1_opened`. -/
theorem openLevelCompletes : Obligations.OpenLevelCompletes := by
  intro s ch rate p loc hb hch ha
  rw [(PhaseRun.o1 ch 0 rate p loc).exec_eq hb]
  exact congrArg _ (openO1_opened (m := .level) hch ha nofun rate p)

/-- `openO1_opened` in stream and wave mode, written out (R132). -/
theorem openO1_allocated {m : Mode} (hm : m ≠ .level) (hch : ch < s.nch) (ha : (s.chan ch).active = false)
    (halloc : s.allocAnswer = .ok) (rate p : Word) :
    openO1 ch m.word rate p s = { s.allocAsked with
      clkEn := true
      chans := s.chans.set ch (openedRecord s.cfg m rate (s.chan ch))
      resp := s.resp ++ [.cmdAck p ch 0x01 .ok 0]
      seq := .idle } := by
  rw [openO1_opened hch ha (fun _ => halloc), openReady_of_ne_level hm, allocAsked_eq]
  rfl

/-- Settles O16, by `openO1_allocated`. -/
theorem openStreamCompletes : Obligations.OpenStreamCompletes := by
  intro s ch rate p loc hb hch ha halloc
  rw [(PhaseRun.o1 ch 1 rate p loc).exec_eq hb]
  exact congrArg _ (openO1_allocated (m := .stream) nofun hch ha halloc rate p)

/-- Settles O17, by `openO1_allocated`. -/
theorem openWaveCompletes : Obligations.OpenWaveCompletes := by
  intro s ch rate p loc hb hch ha halloc
  rw [(PhaseRun.o1 ch 2 rate p loc).exec_eq hb]
  exact congrArg _ (openO1_allocated (m := .wave) nofun hch ha halloc rate p)

/-- Settles O18, by `openO1_outOfMemory`. -/
theorem openOutOfMemoryKeepsChannels : Obligations.OpenOutOfMemoryKeepsChannels := by
  intro s ch mode rate p loc hb hch hmode ha halloc
  obtain ⟨m, hm, rfl⟩ : ∃ m : Mode, m ≠ .level ∧ mode = m.word := by
    rcases hmode with rfl | rfl
    exacts [⟨.stream, nofun, rfl⟩, ⟨.wave, nofun, rfl⟩]
  rw [(PhaseRun.o1 ch m.word rate p loc).exec_eq hb, openO1_outOfMemory hm hch ha halloc, openReady_of_ne_level hm,
    allocAsked_eq]
  rfl

/-! ### CLOSE -/

/-- Settles O19: the branches of `C1` and `C2`. -/
theorem closeChecks : Obligations.CloseChecks := by
  intro s ch a b p loc
  dsimp only
  refine ⟨fun hb hch => ?_, fun hb hch => ?_, fun hb ha => ?_, fun hb ha hm => ?_, fun hb ha hm => ?_⟩
  · rw [(PhaseRun.c1 ch a b p loc).exec_eq hb, closeC1, if_pos hch]
    rfl
  · rw [(PhaseRun.c1 ch a b p loc).exec_eq hb, closeC1, if_neg (Nat.not_le.2 hch)]
    rfl
  · rw [(PhaseRun.c2 ch a b p loc).exec_eq hb, closeC2, if_pos ha]
    rfl
  · rw [(PhaseRun.c2 ch a b p loc).exec_eq hb, closeC2, if_neg (by simp [ha]), if_pos hm]
    rfl
  · rw [(PhaseRun.c2 ch a b p loc).exec_eq hb, closeC2, if_neg (by simp [ha]), if_neg hm]
    rfl

/-- Settles O20; a block captured or none are the two cases of `flushCancel`. -/
theorem closeFlushesFirst : Obligations.CloseFlushesFirst := by
  intro s ch a b p loc
  refine ⟨fun hb => ?_, fun hb => ?_, fun hb hcap => ?_, fun h hb hcap => ?_⟩
  · exact (PhaseRun.c3 ch a b p loc).exec_eq hb
  · exact (PhaseRun.c4 ch a b p loc).exec_eq hb
  · rw [(PhaseRun.c5 ch a b p loc).exec_eq hb, hcap]
    rfl
  · rw [(PhaseRun.c5 ch a b p loc).exec_eq hb, hcap]
    rfl

/-- Settles O21: the teardown is `closeC6_eq`, the clock's test `othersInactive_iff`. -/
theorem closeTearsDown : Obligations.CloseTearsDown := by
  intro s ch a b p loc hb hch
  refine ⟨if s.othersInactive ch then false else s.clkEn, ?_, fun h => ?_, ?_⟩
  · rw [(PhaseRun.c6 ch a b p loc).exec_eq hb, closeC6_eq hch]
    rfl
  · exact if_pos ((othersInactive_iff s ch).2 h)
  · rintro ⟨j, hj, hne, ha⟩
    refine if_neg fun h => ?_
    rw [(othersInactive_iff s ch).1 h j hj hne] at ha
    cases ha

/-! ### Runs of the sequencer -/

/-- A run whose first step is known. -/
theorem runSteps_succ {k : Nat} {o : Host.Outcome State Fault Refusal} (h : step s = .next t) (hk : runSteps k t = o) :
    runSteps (k + 1) s = o := by
  rw [runSteps, h]
  exact hk

/-- A run goes on from where its first `k` steps have led. -/
theorem runSteps_add {k : Nat} (h : runSteps k s = .next t) (l : Nat) : runSteps (k + l) s = runSteps l t := by
  induction k generalizing s with
  | zero =>
    cases h
    rw [Nat.zero_add]
  | succ k ih =>
    rw [Nat.add_right_comm]
    simp only [runSteps] at h ⊢
    split at h
    · exact ih h
    · cases h
    · cases h

/-- Phase `D0` of an unscheduled machine (R241). -/
theorem step_dispatch {r : Request} {rest : List Request} (hf : s.fault = none) (hs : s.sched = [])
    (hidle : s.seq = .idle) (hrq : s.rq = r :: rest) (hd : decode r = .ok i) :
    step s = .next (({ s with rq := rest } : State).enter i (firstPhase i)) := by
  rw [step_of_unscheduled hf hs, seqTurn, hidle]
  simp only [hrq, dispatchRequest, hd]
  exact exec_idle rfl

/-- A phase of the running command on an unscheduled machine (R44). -/
theorem step_phase (h : PhaseRun s i ph loc t) (hf : s.fault = none) (hs : s.sched = [])
    (hb : s.seq = .busy i ph loc) : step s = .next t :=
  (step_busy hf hs hb).trans (h.exec_eq hb)

/-- The clock is on and the allocator's answer, if one is asked for, is drawn. -/
theorem openReady_eq (s : State) (m : Mode) :
    ∃ ins n, s.openReady m = { s with clkEn := true, allocIn := ins, asked := n } := by
  by_cases hm : m = .level
  · exact ⟨_, _, if_pos hm⟩
  · rw [openReady_of_ne_level hm, allocAsked_eq]
    exact ⟨_, _, rfl⟩

/-- Phase `O1` of a closed channel as a step of an unscheduled machine (R132). -/
theorem step_open {m : Mode} {rate p : Word} (hf : s.fault = none) (hs : s.sched = [])
    (hb : s.seq = .busy (.openCmd ch m.word rate p) .o1 loc) (hch : ch < s.nch) (ha : (s.chan ch).active = false)
    (halloc : m ≠ .level → s.allocAnswer = .ok) :
    ∃ ins n, step s = .next ((({ s with clkEn := true, allocIn := ins, asked := n } : State).modChan ch
      (openedRecord s.cfg m rate)).finishOk (.openCmd ch m.word rate p)) := by
  obtain ⟨ins, n, hready⟩ := openReady_eq s m
  refine ⟨ins, n, ?_⟩
  rw [step_phase (.o1 ..) hf hs hb, openO1_opened hch ha halloc, hready]

/-- OPEN of a closed channel, not preempted, from `D0` to its end in 2 phases (R132). -/
theorem runSteps_open {r : Request} {rest : List Request} {m : Mode} {rate p : Word} (hf : s.fault = none)
    (hs : s.sched = []) (hidle : s.seq = .idle) (hrq : s.rq = r :: rest)
    (hd : decode r = .ok (.openCmd ch m.word rate p)) (hch : ch < s.nch) (ha : (s.chan ch).active = false)
    (halloc : m ≠ .level → s.allocAnswer = .ok) :
    ∃ ins n, runSteps 2 s = .next ((({ s with rq := rest, clkEn := true, allocIn := ins, asked := n } : State).modChan
      ch (openedRecord s.cfg m rate)).finishOk (.openCmd ch m.word rate p)) := by
  obtain ⟨ins, n, hstep⟩ := step_open (s := ({ s with rq := rest } : State).enter (.openCmd ch m.word rate p) .o1)
    hf hs rfl hch ha halloc
  exact ⟨ins, n, runSteps_succ (step_dispatch hf hs hidle hrq hd) (runSteps_succ hstep rfl)⟩

/-- A record after the three steps Flush and Close share: the timer stopped, the block detached (R138, R210). -/
def flushedRecord (c : Channel) : Channel := { c with timerRun := false, block := none }

/-- The state after these steps: the detached block, if there was one, is cancelled (R212 to R214). -/
def State.flushed (s : State) (ch : Nat) : State :=
  { s.modChan ch flushedRecord with
    irqMask := false
    ctl := s.ctl ++ [.stop ch]
    resp := s.resp ++ (s.chan ch).block.elim [] fun h => [.writeDone (s.chan ch).process ch .cancelled h 0] }

@[simp] theorem flushed_nch (s : State) (ch : Nat) : (s.flushed ch).nch = s.nch := modChan_nch s ch flushedRecord

theorem flushed_chan_self (hch : ch < s.nch) : (s.flushed ch).chan ch = flushedRecord (s.chan ch) :=
  modChan_chan_self hch flushedRecord

theorem flushed_chan_ne (hj : j ≠ ch) : (s.flushed ch).chan j = s.chan j := modChan_chan_ne hj flushedRecord

/-- A cancellation is one response at most (R214). -/
theorem flushCancel_eq (ch : Nat) (cap : Option Word) (s : State) :
    flushCancel ch cap s
      = { s with resp := s.resp ++ cap.elim [] fun h => [.writeDone (s.chan ch).process ch .cancelled h 0] } := by
  cases cap with
  | none => simp [flushCancel]
  | some h => rfl

/-- Stopping, detaching and cancelling, one after the other (R212 to R214). -/
theorem flushSteps_eq_flushed (hch : ch < s.nch) :
    flushCancel ch (s.chan ch).block (flushDetach ch (flushStop ch s)) = s.flushed ch := by
  have hmod : (s.modChan ch fun c => { c with timerRun := false }).modChan ch (fun c => { c with block := none })
      = s.modChan ch flushedRecord := modChan_modChan hch _ _
  have hdetach : flushDetach ch (flushStop ch s)
      = { (s.modChan ch flushedRecord).logCall (.stop ch) with irqMask := false } := by
    rw [← hmod]
    rfl
  have hprocess : ((flushDetach ch (flushStop ch s)).chan ch).process = (s.chan ch).process := by
    rw [hdetach]
    change ((s.flushed ch).chan ch).process = _
    rw [flushed_chan_self hch]
    rfl
  rw [flushCancel_eq, hprocess, hdetach]
  rfl

/-- Phases `C3` to `C5`, not preempted (R138). -/
theorem runSteps_close_flush {a b p : Word} (hf : s.fault = none) (hs : s.sched = [])
    (hb : s.seq = .busy (.closeCmd ch a b p) .c3 loc) (hch : ch < s.nch) :
    runSteps 3 s = .next ((s.flushed ch).goto (.closeCmd ch a b p) .c6 { loc with cap := (s.chan ch).block }) := by
  refine runSteps_succ (step_phase (.c3 ..) hf hs hb) <| runSteps_succ (step_phase (.c4 ..) hf hs rfl) <|
    runSteps_succ (step_phase (.c5 ..) hf hs rfl) ?_
  have hcap : (((flushStop ch s).goto (.closeCmd ch a b p) .c4 loc).chan ch).block = (s.chan ch).block :=
    congrArg Regs.block (timerStop_regs s ch ch)
  rw [hcap, ← flushSteps_eq_flushed hch]
  cases (s.chan ch).block <;> rfl

/-- Phases `C1` and `C2` of a CLOSE of an active channel, not preempted (R137). -/
theorem runSteps_close_checks {a b p : Word} (hf : s.fault = none) (hs : s.sched = [])
    (hb : s.seq = .busy (.closeCmd ch a b p) .c1 loc) (hch : ch < s.nch) (ha : (s.chan ch).active = true)
    (hph : (if (s.chan ch).mode = .stream then .c3 else .c6) = ph) :
    runSteps 2 s = .next (s.goto (.closeCmd ch a b p) ph loc) := by
  obtain ⟨-, hc1, -⟩ := closeChecks s ch a b p loc
  obtain ⟨-, -, -, hstream, hother⟩ := closeChecks (s.goto (.closeCmd ch a b p) .c2 loc) ch a b p loc
  refine runSteps_succ ((step_busy hf hs hb).trans (hc1 hb hch)) (runSteps_succ (k := 0) ?_ rfl)
  by_cases hm : (s.chan ch).mode = .stream
  · rw [← hph, if_pos hm]
    exact (step_busy (by exact hf) (by exact hs) rfl).trans (hstream rfl ha hm)
  · rw [← hph, if_neg hm]
    exact (step_busy (by exact hf) (by exact hs) rfl).trans (hother rfl ha hm)

/-- What phases `D0` to `C5` of a CLOSE make of state `s` for `C6` to tear down: the queue without the request, and the
channel flushed in stream mode (R136, R138). -/
structure ReadyToClose (s : State) (rest : List Request) (ch : Nat) (v : State) : Prop where
  nch : v.nch = s.nch
  rq : v.rq = rest
  fault : v.fault = s.fault
  resp : v.resp = s.resp ++ if (s.chan ch).mode = .stream
    then (s.chan ch).block.elim [] fun h => [.writeDone (s.chan ch).process ch .cancelled h 0] else []
  record : v.chan ch = if (s.chan ch).mode = .stream then flushedRecord (s.chan ch) else s.chan ch
  others : ∀ j, j ≠ ch → v.chan j = s.chan j

/-- CLOSE of an active channel, not preempted, from `D0` to its end: 7 phases in stream mode, else 4 (R136, R137). -/
theorem runSteps_close {r : Request} {rest : List Request} {a b p : Word} (hf : s.fault = none) (hs : s.sched = [])
    (hidle : s.seq = .idle) (hrq : s.rq = r :: rest) (hd : decode r = .ok (.closeCmd ch a b p)) (hch : ch < s.nch)
    (ha : (s.chan ch).active = true) :
    ∃ v, ReadyToClose s rest ch v
      ∧ runSteps (if (s.chan ch).mode = .stream then 7 else 4) s = .next (closeC6 (.closeCmd ch a b p) ch v) := by
  have hdispatch := step_dispatch hf hs hidle hrq hd
  set u := ({ s with rq := rest } : State).enter (.closeCmd ch a b p) .c1
  by_cases hm : (s.chan ch).mode = .stream
  · have hchecks := runSteps_close_checks (s := u) (loc := {}) hf hs rfl hch ha (if_pos hm)
    have hflush := runSteps_close_flush (s := u.goto (.closeCmd ch a b p) .c3 {}) hf hs rfl hch
    rw [if_pos hm]
    refine ⟨_, ?_, runSteps_succ hdispatch <| (runSteps_add hchecks 4).trans <| (runSteps_add hflush 1).trans <|
      runSteps_succ (step_phase (.c6 ..) (by exact hf) (by exact hs) rfl) rfl⟩
    exact { nch := flushed_nch _ ch, rq := rfl, fault := rfl, resp := by rw [if_pos hm]; rfl
            record := by rw [if_pos hm]; exact flushed_chan_self hch
            others := fun j hj => flushed_chan_ne hj }
  · have hchecks := runSteps_close_checks (s := u) (loc := {}) hf hs rfl hch ha (if_neg hm)
    rw [if_neg hm]
    refine ⟨_, ?_, runSteps_succ hdispatch <| (runSteps_add hchecks 1).trans <|
      runSteps_succ (step_phase (.c6 ..) (by exact hf) (by exact hs) rfl) rfl⟩
    exact { nch := rfl, rq := rfl, fault := rfl, resp := by rw [if_neg hm, List.append_nil]; rfl
            record := by rw [if_neg hm]; rfl
            others := fun j _ => rfl }

theorem openedRecord_mode (cfg : Config) (m : Mode) (rate : Word) (c : Channel) :
    (openedRecord cfg m rate c).mode = m := by
  cases m <;> rfl

theorem openedRecord_active (cfg : Config) (m : Mode) (rate : Word) (c : Channel) :
    (openedRecord cfg m rate c).active = true := by
  cases m <;> rfl

/-- The record `C6` leaves (R136, R139). -/
def closedRecord (cfg : Config) (c : Channel) : Channel :=
  { releaseEngine cfg { unregisterHandler c with timerRun := false } with active := false }

theorem closeC6_chan_self (hch : ch < s.nch) : (closeC6 i ch s).chan ch = closedRecord s.cfg (s.chan ch) := by
  rw [closeC6_eq hch]
  exact modChan_chan_self hch (closedRecord s.cfg)

/-- The clock goes off if no other channel is active, and stays as it is otherwise (R140). -/
theorem closeC6_clkEn (hch : ch < s.nch) :
    (closeC6 i ch s).clkEn = if s.othersInactive ch then false else s.clkEn := by
  rw [closeC6_eq hch]
  rfl

/-- Settles O59: the run of OPEN, then the run of CLOSE, and what `C6` makes of the record OPEN wrote. -/
theorem openThenCloseRestores : Obligations.OpenThenCloseRestores := by
  intro s r1 r2 ch mode rate p a b q hf hs hidle hrq hd1 hd2 hch hmode halloc hinv ha
  obtain ⟨m, rfl⟩ := exists_mode_word hmode
  obtain ⟨hirq, -⟩ := hinv.closedOff ha
  have hlevel : m.word ≠ 0 ↔ m ≠ .level := by cases m <;> decide
  have hsteps : (if m.word = 1 then 9 else 6) = 2 + if m = .stream then 7 else 4 := by cases m <;> rfl
  obtain ⟨ins, n, hopen⟩ := runSteps_open hf hs hidle hrq hd1 hch ha fun hm => halloc (hlevel.2 hm)
  set u := ((({ s with rq := [r2], clkEn := true, allocIn := ins, asked := n } : State).modChan ch
    (openedRecord s.cfg m rate)).finishOk (.openCmd ch m.word rate p))
  have hnch : u.nch = s.nch := modChan_nch s ch (openedRecord s.cfg m rate)
  have hself : u.chan ch = openedRecord s.cfg m rate (s.chan ch) := modChan_chan_self hch (openedRecord s.cfg m rate)
  have hothers : ∀ j, j ≠ ch → u.chan j = s.chan j := fun j hj => modChan_chan_ne hj (openedRecord s.cfg m rate)
  obtain ⟨v, ⟨hvnch, hvrq, hvfault, hvresp, hvself, hvothers⟩, hclose⟩ :=
    runSteps_close (s := u) (rest := []) hf hs rfl rfl hd2 (hnch.symm ▸ hch) (by rw [hself, openedRecord_active])
  rw [hself, openedRecord_mode] at hclose hvresp hvself
  have hvch : ch < v.nch := by rw [hvnch, hnch]; exact hch
  have hkept : ∀ j, j ≠ ch → v.chan j = s.chan j := fun j hj => (hvothers j hj).trans (hothers j hj)
  have hcancel : v.resp = u.resp := by
    rw [hvresp]
    cases m <;> exact List.append_nil _
  refine ⟨_, by rw [hsteps]; exact (runSteps_add hopen _).trans hclose, rfl, ?rq, ?fault, ?resp, ?_⟩
  case rq => rw [closeC6_eq hvch]; exact hvrq
  case fault => rw [closeC6_eq hvch]; exact hvfault.trans hf
  case resp =>
    rw [closeC6_eq hvch]
    change v.resp ++ _ = _
    rw [hcancel]
    exact List.append_assoc _ _ _
  rw [closeC6_chan_self hvch, hvself]
  refine ⟨rfl, ?irqEn, rfl, rfl, rfl, ?flags, fun hoff => ?clk, fun j hj => (closeC6_chan_ne hj).trans (hkept j hj)⟩
  case irqEn =>
    cases m with
    | stream => rfl
    | level | wave => exact hirq
  case flags =>
    intro hm
    cases m with
    | level => exact absurd rfl hm
    | stream | wave => exact ⟨rfl, rfl, rfl⟩
  case clk =>
    rw [closeC6_clkEn hvch, if_pos]
    refine (othersInactive_iff v ch).2 fun j hj hne => ?_
    rw [hkept j hne]
    exact hoff j (by rwa [hvnch, hnch] at hj) hne

end Sys2Proof.Machine

/-! ## Proofs about WRITE

Each phase is run by `PhaseRun.exec_eq`; a copy whose bytes the block has is one update of its channel, by
`unlessFault_fifoCopy_of_fits`. The run of a whole WRITE is put together from runs of a few phases each. -/

namespace Sys2Proof.Machine

variable {s : State} {i : Instr} {loc : Locals} {ch : Nat} {block size p : Word}

/-! ### Checks, mapping and recording -/

/-- Settles O22: the branches of `W1`, `W2` and `W3`. -/
theorem writeChecks : Obligations.WriteChecks := by
  intro s ch block size p loc
  dsimp only
  refine ⟨fun hb hch => ?_, fun hb hch => ?_, fun hb ha => ?_, fun hb ha hm => ?_, fun hb ha hm => ?_,
    fun hb hcnt => ?_, fun hb hcnt => ?_⟩
  · rw [(PhaseRun.w1 ch block size p loc).exec_eq hb, writeW1, if_pos hch]
    rfl
  · rw [(PhaseRun.w1 ch block size p loc).exec_eq hb, writeW1, if_neg (Nat.not_le.2 hch)]
    rfl
  · rw [(PhaseRun.w2 ch block size p loc).exec_eq hb, writeW2, if_pos ha]
    rfl
  · rw [(PhaseRun.w2 ch block size p loc).exec_eq hb, writeW2, if_neg (by simp [ha]), if_pos hm]
    rfl
  · rw [(PhaseRun.w2 ch block size p loc).exec_eq hb, writeW2, if_neg (by simp [ha]), if_neg (not_not.2 hm)]
    rfl
  · rw [(PhaseRun.w3 ch block size p loc).exec_eq hb, writeW3, if_pos hcnt]
    rfl
  · rw [(PhaseRun.w3 ch block size p loc).exec_eq hb, writeW3, if_neg (Int.not_lt.2 hcnt)]
    rfl

/-- What asking the mapper writes, as a record update (log 5). -/
theorem mapAsked_eq (s : State) :
    s.mapAsked = { s with
      mapIn := s.mapIn.tail
      asked := if s.mapIn.isEmpty then s.asked + 1 else s.asked } := by
  cases h : s.mapIn <;> simp [State.mapAsked, h]

/-- Settles O23: the two answers of the mapper. -/
theorem writeMapsBlock : Obligations.WriteMapsBlock := by
  intro s ch block size p loc hb
  rw [(PhaseRun.w4 ch block size p loc).exec_eq hb, writeW4, mapAsked_eq]
  refine ⟨fun hmap => ?_, fun e hmap => ?_⟩
  · rw [hmap]
    rfl
  · rw [hmap]
    rfl

/-- Settles O24: `W5`, `W6` and `W7` have one branch each. -/
theorem writeRecordsInFlight : Obligations.WriteRecordsInFlight := by
  intro s ch block size p loc
  exact ⟨fun hb => (PhaseRun.w5 ch block size p loc).exec_eq hb, fun hb => (PhaseRun.w6 ch block size p loc).exec_eq hb,
    fun hb => (PhaseRun.w7 ch block size p loc).exec_eq hb⟩

/-! ### Snapshot and priming -/

/-- Settles O25: the one branch of `W8`, and the branches of `W9` without a copy. -/
theorem writeSnapshotsAndBranches : Obligations.WriteSnapshotsAndBranches := by
  intro s ch block size p loc
  dsimp only
  refine ⟨fun hb => (PhaseRun.w8 ch block size p loc).exec_eq hb, fun hb htwo hc => ?_, fun hb hc => ?_⟩
  · rw [(PhaseRun.w9 ch block size p loc).exec_eq hb, writeW9, if_neg htwo, if_pos hc]
    rfl
  · rw [(PhaseRun.w9 ch block size p loc).exec_eq hb, writeW9, if_neg (by omega), if_neg (by omega)]
    rfl

/-- What follows a copy whose bytes the block has is executed after it (R78). -/
theorem unlessFault_fifoCopy_of_fits {dst n : Nat} (hf : s.fault = none)
    (h : (s.chan ch).ptr.off + n ≤ (s.source ch).len) (f : State → State) :
    (s.fifoCopy ch dst n).unlessFault f = f (s.modChan ch (copyInto s.cfg (s.source ch) dst n)) := by
  rw [fifoCopy_of_fits (overreads_of_le h)]
  exact unlessFault_of_none hf

/-- A byte the copy wrote is the block's (R78). -/
theorem copyInto_read_copied {c : Channel} (hc : Memory.wf c.fifo) (cfg : Config) (b : Block) {dst n o : Nat}
    (ho : o < n) :
    Memory.read (copyInto cfg b dst n c).fifo (dst + o) = Memory.read b.bytes (c.ptr.off + o) := by
  rw [copyInto_read hc, if_pos ⟨Nat.le_add_right _ _, Nat.add_lt_add_left ho _⟩, Nat.add_sub_cancel_left]

/-- A byte outside the destination is as before the copy (R78). -/
theorem copyInto_read_kept {c : Channel} (hc : Memory.wf c.fifo) (cfg : Config) (b : Block) {dst n o : Nat}
    (ho : o < dst ∨ dst + n ≤ o) : Memory.read (copyInto cfg b dst n c).fifo o = Memory.read c.fifo o := by
  rw [copyInto_read hc, if_neg (by omega)]

/-- With nothing queued and two units to write, `W9` is the two-unit copy (R167). -/
theorem writeW9_primes (hf : s.fault = none) (hc : loc.c = 0) (hn : 2 ≤ loc.n)
    (hlen : (s.chan ch).ptr.off + 2 * hbOf s.cfg ≤ (s.source ch).len) :
    writeW9 i ch loc s
      = (s.modChan ch (copyInto s.cfg (s.source ch) 0 (2 * hbOf s.cfg))).goto i .w11 { loc with k := 2 } := by
  rw [writeW9, if_pos ⟨hc, hn⟩, unlessFault_fifoCopy_of_fits hf hlen]

/-- Settles O26: `W9` is one `copyInto` from offset 0. -/
theorem writePrimesTwoUnits : Obligations.WritePrimesTwoUnits := by
  intro s ch block size p loc
  dsimp only
  intro hb _ hf hc hn hwf hlen
  refine ⟨(copyInto s.cfg (s.source ch) 0 (2 * hbOf s.cfg) (s.chan ch)).fifo, ?_, copyInto_wf hwf _ _ _ _,
    fun o ho => ?_, fun o ho => copyInto_read_kept hwf _ _ (.inr (by rwa [Nat.zero_add]))⟩
  · rw [exec_w9 hb, writeW9_primes hf hc hn hlen]
    rfl
  · have hread := copyInto_read_copied hwf s.cfg (s.source ch) (dst := 0) ho
    rwa [Nat.zero_add] at hread

/-- Settles O27: `W10` is one `copyInto` from the offset of the half `h` does not name. -/
theorem writePrimesOneUnit : Obligations.WritePrimesOneUnit := by
  intro s ch block size p loc
  dsimp only
  intro hb _ hf hwf hlen
  refine ⟨(copyInto s.cfg (s.source ch) (copyDst s.cfg loc.h) (hbOf s.cfg) (s.chan ch)).fifo, ?_,
    copyInto_wf hwf _ _ _ _, fun o ho => copyInto_read_copied hwf _ _ ho, fun o ho => copyInto_read_kept hwf _ _ ho⟩
  rw [exec_w10 hb, writeW10, unlessFault_fifoCopy_of_fits (n := hbOf s.cfg) hf hlen]
  rfl

/-! ### Completion, count and timer -/

/-- Settles O30: the test of `W11`, and the one branch of `W12`. -/
theorem writeCompletesWhenPrimed : Obligations.WriteCompletesWhenPrimed := by
  intro s ch block size p loc
  dsimp only
  refine ⟨fun hb hk => ?_, fun hb hk => ?_, fun hb => (PhaseRun.w12 ch block size p loc).exec_eq hb⟩
  · rw [(PhaseRun.w11 ch block size p loc).exec_eq hb, writeW11, if_pos (by omega)]
    rfl
  · rw [(PhaseRun.w11 ch block size p loc).exec_eq hb, writeW11, if_neg (by omega)]
    rfl

/-- The range of the count as R172 writes it. -/
theorem cntInRange_iff (cfg : Config) (v : Int) :
    cntInRange cfg v = true ↔ -(2 : Int) ^ (cfg.cntBits - 1) ≤ v ∧ v ≤ (2 : Int) ^ (cfg.cntBits - 1) - 1 := by
  rw [cntInRange, Bool.and_eq_true, decide_eq_true_iff, decide_eq_true_iff, Int.le_sub_one_iff]

/-- Settles O31: the range test of `W13` is `cntInRange_iff`. -/
theorem writeCountsUnits : Obligations.WriteCountsUnits := by
  intro s ch block size p loc hb
  dsimp only
  rw [← cntInRange_iff, (PhaseRun.w13 ch block size p loc).exec_eq hb]
  refine ⟨fun hfits => ?_, fun hfits => ?_⟩
  · simp only [writeW13, if_pos hfits]
    rfl
  · simp only [writeW13, if_neg hfits]
    rfl

theorem timerStart_of_zero {rate : Nat} (h : rate = 0) : s.timerStart ch rate = s.raiseFault (.rateZero ch) :=
  if_pos h

theorem timerStart_of_ne_zero {rate : Nat} (h : rate ≠ 0) : s.timerStart ch rate
    = (s.modChan ch fun c => { c with timerRun := true, timerRate := rate }).logCall (.start ch rate) :=
  if_neg h

/-- Settles O32: a start at the channel's rate, a start at rate 0, and none. -/
theorem writeStartsTimer : Obligations.WriteStartsTimer := by
  intro s ch block size p loc hb hf
  rw [(PhaseRun.w14 ch block size p loc).exec_eq hb, writeW14]
  refine ⟨fun hstart hrate => ?_, fun hstart hrate => ?_, fun hstart => ?_⟩
  · rw [if_pos hstart, timerStart_of_ne_zero (by bv_omega), unlessFault_of_none (by exact hf)]
    rfl
  · rw [if_pos hstart, timerStart_of_zero (by bv_omega), unlessFault_of_some rfl]
    rfl
  · rw [if_neg (by simp [hstart]), unlessFault_of_none hf]


/-! ### The whole run -/

/-- The state with `d` as the record of channel `ch`. -/
def State.withChan (s : State) (ch : Nat) (d : Channel) : State := { s with chans := s.chans.set ch d }

section

variable {d : Channel} {ph ph' : Phase} {loc' : Locals}

theorem withChan_chan (hch : ch < s.nch) (d : Channel) : (s.withChan ch d).chan ch = d :=
  modChan_chan_self hch fun _ => d

theorem withChan_modChan (hch : ch < s.nch) (f : Channel → Channel) :
    (s.withChan ch d).modChan ch f = s.withChan ch (f d) :=
  modChan_modChan hch (fun _ => d) f

/-- A phase that updates a record it knows, and goes on. -/
theorem withChan_modChan_goto (hch : ch < s.nch) (f : Channel → Channel) :
    (((s.withChan ch d).goto i ph loc).modChan ch f).goto i ph' loc' = (s.withChan ch (f d)).goto i ph' loc' :=
  congrArg (·.goto i ph' loc') (withChan_modChan hch f)

/-- Phases `W1` to `W3` of an admitted WRITE (R161, R162). -/
theorem runSteps_write_checks (hf : s.fault = none) (hs : s.sched = [])
    (hb : s.seq = .busy (.writeCmd ch block size p) .w1 loc) (hch : ch < s.nch) (ha : (s.chan ch).active = true)
    (hm : (s.chan ch).mode = .stream) (hcnt : (s.chan ch).cnt ≤ 2) :
    runSteps 3 s = .next (s.goto (.writeCmd ch block size p) .w4 loc) := by
  obtain ⟨-, hw1, -⟩ := writeChecks s ch block size p loc
  obtain ⟨-, -, -, -, hw2, -⟩ := writeChecks (s.goto (.writeCmd ch block size p) .w2 loc) ch block size p loc
  obtain ⟨-, -, -, -, -, -, hw3⟩ := writeChecks (s.goto (.writeCmd ch block size p) .w3 loc) ch block size p loc
  exact runSteps_succ ((step_busy hf hs hb).trans (hw1 hb hch)) <|
    runSteps_succ ((step_busy (by exact hf) (by exact hs) rfl).trans (hw2 rfl ha hm)) <|
    runSteps_succ ((step_busy (by exact hf) (by exact hs) rfl).trans (hw3 rfl hcnt)) rfl

/-- Phase `W4` when the mapper answers OK (R163). -/
theorem step_write_map (hf : s.fault = none) (hs : s.sched = [])
    (hb : s.seq = .busy (.writeCmd ch block size p) .w4 loc) (hmap : s.mapAnswer block = .ok) :
    step s = .next ((s.mapAsked.withChan ch { s.chan ch with ptr := ⟨block, 0⟩ }).goto
      (.writeCmd ch block size p) .w5 loc) := by
  obtain ⟨hok, -⟩ := writeMapsBlock s ch block size p loc hb
  rw [step_busy hf hs hb, hok hmap, ← mapAsked_chans]
  rfl

/-- A phase of a command on a channel whose record is known, as a step of an unscheduled machine (R44). -/
theorem step_withChan {t : State} (hf : s.fault = none) (hs : s.sched = [])
    (h : PhaseRun ((s.withChan ch d).goto i ph loc) i ph loc t) : step ((s.withChan ch d).goto i ph loc) = .next t :=
  step_phase h hf hs rfl

/-- Phases `W5` to `W7` (R164, R165); a block still in flight is noted (R178, log 8). -/
theorem runSteps_write_record (hf : s.fault = none) (hs : s.sched = []) (hch : ch < s.nch) (d : Channel) :
    runSteps 3 ((s.withChan ch d).goto (.writeCmd ch block size p) .w5 loc)
      = .next ((({ s with lost := s.lost ++ d.block.toList } : State).withChan ch
          { d with block := some block, process := p, size := size }).goto (.writeCmd ch block size p) .w8
          { loc with n := unitsOf s.cfg size }) := by
  have hnote : ((s.withChan ch d).goto (.writeCmd ch block size p) .w5 loc).noteLost ch
      = (({ s with lost := s.lost ++ d.block.toList } : State).withChan ch d).goto
          (.writeCmd ch block size p) .w5 loc := by
    rw [State.noteLost, goto_chan, withChan_chan hch]
    rfl
  refine runSteps_succ (step_withChan hf hs (.w5 ..)) <| runSteps_succ (step_phase (.w6 ..) hf hs rfl) <|
    runSteps_succ (step_phase (.w7 ..) hf hs rfl) ?_
  rw [writeW5, hnote, withChan_modChan_goto (by exact hch), writeW6, withChan_modChan_goto (by exact hch), writeW7,
    withChan_modChan_goto (by exact hch)]
  rfl

/-- Phase `W8` (R166). -/
theorem step_write_snapshot (hf : s.fault = none) (hs : s.sched = []) (hch : ch < s.nch) :
    step ((s.withChan ch d).goto (.writeCmd ch block size p) .w8 loc)
      = .next ((s.withChan ch d).goto (.writeCmd ch block size p) .w9 { loc with c := d.cnt }) := by
  rw [step_withChan hf hs (.w8 ..), writeW8, goto_chan, withChan_chan hch]
  rfl

/-- Phase `W9` with nothing queued at the snapshot and two units to write (R167). -/
theorem step_write_prime (hf : s.fault = none) (hs : s.sched = []) (hch : ch < s.nch) (hc : loc.c = 0)
    (hn : 2 ≤ loc.n) (hlen : d.ptr.off + 2 * hbOf s.cfg ≤ (s.blk d.ptr.handle).len) :
    step ((s.withChan ch d).goto (.writeCmd ch block size p) .w9 loc)
      = .next ((s.withChan ch (copyInto s.cfg (s.blk d.ptr.handle) 0 (2 * hbOf s.cfg) d)).goto
          (.writeCmd ch block size p) .w11 { loc with k := 2 }) := by
  have hd := withChan_chan hch d
  have hsource : ((s.withChan ch d).goto (.writeCmd ch block size p) .w9 loc).source ch = s.blk d.ptr.handle := by
    rw [State.source, goto_chan, hd]
    rfl
  rw [step_withChan hf hs (.w9 ..), writeW9_primes (by exact hf) hc hn (by rwa [hsource, goto_chan, hd]), hsource,
    withChan_modChan_goto hch]
  rfl

/-- Phases `W8` and `W9` with nothing queued and two units to write (R166, R167). -/
theorem runSteps_write_prime (hf : s.fault = none) (hs : s.sched = []) (hch : ch < s.nch) (hcnt : d.cnt = 0)
    (hn : 2 ≤ loc.n) (hlen : d.ptr.off + 2 * hbOf s.cfg ≤ (s.blk d.ptr.handle).len) :
    runSteps 2 ((s.withChan ch d).goto (.writeCmd ch block size p) .w8 loc)
      = .next ((s.withChan ch (copyInto s.cfg (s.blk d.ptr.handle) 0 (2 * hbOf s.cfg) d)).goto
          (.writeCmd ch block size p) .w11 { loc with c := 0, k := 2 }) := by
  rw [← hcnt]
  exact runSteps_succ (step_write_snapshot hf hs hch) <| runSteps_succ (step_write_prime hf hs hch hcnt hn hlen) rfl

/-- Phases `W11` and `W12` when every unit is primed (R170). -/
theorem runSteps_write_complete (hf : s.fault = none) (hs : s.sched = []) (hch : ch < s.nch) (hk : loc.n ≤ loc.k) :
    runSteps 2 ((s.withChan ch d).goto (.writeCmd ch block size p) .w11 loc)
      = .next ((({ s with resp := s.resp ++ [.writeDone p ch .ok block size] } : State).withChan ch
          { d with block := none }).goto (.writeCmd ch block size p) .w13 loc) := by
  have hdone : step ((s.withChan ch d).goto (.writeCmd ch block size p) .w11 loc)
      = .next ((({ s with resp := s.resp ++ [.writeDone p ch .ok block size] } : State).withChan ch d).goto
          (.writeCmd ch block size p) .w12 loc) := by
    rw [step_withChan hf hs (.w11 ..), writeW11, if_pos (by omega)]
    rfl
  refine runSteps_succ hdone <| runSteps_succ (step_withChan hf hs (.w12 ..)) ?_
  exact congrArg _ (withChan_modChan_goto (by exact hch) _)

/-- Phase `W11` when units are left to the handler (R170). -/
theorem step_write_incomplete (hf : s.fault = none) (hs : s.sched = []) (hk : loc.k < loc.n) :
    step ((s.withChan ch d).goto (.writeCmd ch block size p) .w11 loc)
      = .next ((s.withChan ch d).goto (.writeCmd ch block size p) .w13 loc) := by
  rw [step_withChan hf hs (.w11 ..), writeW11, if_neg (by omega)]
  rfl

/-- Where no interrupt is masked, a critical section is its own update (R42, R88). -/
theorem critical_modChan (hmask : s.irqMask = false) (f : Channel → Channel) :
    s.critical (fun s => s.modChan ch f) = s.modChan ch f := by
  have hself : { s with irqMask := false } = s := by rw [← hmask]
  exact congrArg (·.modChan ch f) hself

/-- Phase `W13` with nothing queued (R172). -/
theorem step_write_count (hf : s.fault = none) (hs : s.sched = []) (hmask : s.irqMask = false) (hch : ch < s.nch)
    (hcnt : d.cnt = 0) (hn : (loc.n : Int) < (2 : Int) ^ (s.cfg.cntBits - 1)) :
    step ((s.withChan ch d).goto (.writeCmd ch block size p) .w13 loc)
      = .next ((s.withChan ch { d with cnt := loc.n }).goto (.writeCmd ch block size p) .w14
          { loc with needStart := true }) := by
  have hfits : cntInRange s.cfg (d.cnt + loc.n) = true := by
    rw [cntInRange_iff, hcnt]
    omega
  have hd : ((s.withChan ch d).goto (.writeCmd ch block size p) .w13 loc).chan ch = d := withChan_chan hch d
  rw [step_withChan hf hs (.w13 ..), writeW13]
  simp only [hd]
  rw [if_pos (by exact hfits), critical_modChan (by exact hmask), withChan_modChan_goto hch]
  simp [hcnt]

/-- Phase `W14` with a timer to start (R173). -/
theorem step_write_start (hf : s.fault = none) (hs : s.sched = []) (hch : ch < s.nch) (hstart : loc.needStart = true)
    (hrate : d.rate ≠ 0) :
    step ((s.withChan ch d).goto (.writeCmd ch block size p) .w14 loc)
      = .next { s.withChan ch { d with timerRun := true, timerRate := d.rate.toNat } with
          ctl := s.ctl ++ [.start ch d.rate.toNat], seq := .idle } := by
  have hd : ((s.withChan ch d).goto (.writeCmd ch block size p) .w14 loc).chan ch = d := withChan_chan hch d
  rw [step_withChan hf hs (.w14 ..), writeW14, if_pos hstart, hd, timerStart_of_ne_zero (by bv_omega),
    unlessFault_of_none (by exact hf)]
  exact congrArg
    (fun u : State => Host.Outcome.next { u with ctl := s.ctl ++ [TimerCall.start ch d.rate.toNat], seq := .idle })
    (withChan_modChan hch fun c => { c with timerRun := true, timerRate := d.rate.toNat })

/-- The record after the priming copy of a WRITE from the start of its block `b`, with nothing queued (R163, R164, R167). -/
def primedRecord (cfg : Config) (b : Block) (block size p : Word) (c : Channel) : Channel :=
  { c with
    ptr := ⟨block, 2 * hbOf cfg⟩, process := p, size := size, block := some block
    fifo := Memory.writeBytes c.fifo 0 (Memory.readBytes b.bytes 0 (2 * hbOf cfg))
    race := c.race || raceHit cfg c 0 (2 * hbOf cfg) }

theorem copyInto_recorded (cfg : Config) (b : Block) (block size p : Word) (c : Channel) :
    copyInto cfg b 0 (2 * hbOf cfg) { c with ptr := ⟨block, 0⟩, block := some block, process := p, size := size }
      = primedRecord cfg b block size p c := by
  simp only [copyInto, Nat.zero_add]
  rfl

/-- The record with `n` units counted and the timer started at the channel's rate (R172, R173). -/
def startedRecord (n : Nat) (c : Channel) : Channel :=
  { c with cnt := n, timerRun := true, timerRate := c.rate.toNat }

/-- Phases `W13` and `W14` with nothing queued (R172, R173). -/
theorem runSteps_write_start (hf : s.fault = none) (hs : s.sched = []) (hmask : s.irqMask = false) (hch : ch < s.nch)
    (hcnt : d.cnt = 0) (hrate : d.rate ≠ 0) (hn : (loc.n : Int) < (2 : Int) ^ (s.cfg.cntBits - 1)) :
    runSteps 2 ((s.withChan ch d).goto (.writeCmd ch block size p) .w13 loc)
      = .next { s.withChan ch (startedRecord loc.n d) with ctl := s.ctl ++ [.start ch d.rate.toNat], seq := .idle } :=
  runSteps_succ (step_write_count hf hs hmask hch hcnt hn) <|
    runSteps_succ (step_write_start hf hs hch rfl (by exact hrate)) rfl

/-- A WRITE to an idle stream channel, not preempted, from `D0` to its priming copy in 10 phases (R160 to R167). -/
theorem runSteps_write_primed {r : Request} {rest : List Request} (hf : s.fault = none) (hs : s.sched = [])
    (hidle : s.seq = .idle) (hrq : s.rq = r :: rest) (hd : decode r = .ok (.writeCmd ch block size p))
    (hch : ch < s.nch) (ha : (s.chan ch).active = true) (hm : (s.chan ch).mode = .stream) (hcnt : (s.chan ch).cnt = 0)
    (hn : 2 ≤ unitsOf s.cfg size) (hmap : s.mapAnswer block = .ok) (hlen : 2 * hbOf s.cfg ≤ (s.blk block).len) :
    runSteps 10 s = .next ((({ s.mapAsked with rq := rest, lost := s.lost ++ (s.chan ch).block.toList } : State).withChan
      ch (primedRecord s.cfg (s.blk block) block size p (s.chan ch))).goto (.writeCmd ch block size p) .w11
      { n := unitsOf s.cfg size, k := 2 }) := by
  let u : State := { s with rq := rest }
  let d : Channel := { s.chan ch with ptr := ⟨block, 0⟩ }
  have hchecks := runSteps_write_checks (s := u.enter (.writeCmd ch block size p) .w1) (loc := {}) hf hs rfl hch ha hm
    (hcnt.trans_le (by decide))
  have hmapped := step_write_map (s := u.goto (.writeCmd ch block size p) .w4 {}) (loc := {}) hf hs rfl hmap
  rw [mapAsked_eq] at hmapped ⊢
  let v : State := { u with mapIn := s.mapIn.tail, asked := if s.mapIn.isEmpty then s.asked + 1 else s.asked }
  have hrecord := runSteps_write_record (s := v) (block := block) (size := size) (p := p) (loc := {}) hf hs hch d
  have hprime := runSteps_write_prime (s := { v with lost := s.lost ++ d.block.toList })
    (d := { d with block := some block, process := p, size := size }) (block := block) (size := size) (p := p)
    (loc := { n := unitsOf s.cfg size }) hf hs hch hcnt hn ((Nat.zero_add _).trans_le hlen)
  rw [copyInto_recorded (c := s.chan ch)] at hprime
  exact runSteps_succ (step_dispatch hf hs hidle hrq hd) <| (runSteps_add hchecks 6).trans <|
    runSteps_succ hmapped <| (runSteps_add hrecord 2).trans hprime

/-- From the priming copy of a WRITE with nothing queued to its end: the completion if both its units are primed, the count,
and the timer (R170 to R173). -/
theorem runSteps_write_finish (hf : s.fault = none) (hs : s.sched = []) (hmask : s.irqMask = false) (hch : ch < s.nch)
    (hcnt : d.cnt = 0) (hrate : d.rate ≠ 0) {n : Nat} (hn : 2 ≤ n)
    (hbits : (n : Int) < (2 : Int) ^ (s.cfg.cntBits - 1)) :
    runSteps (if n = 2 then 4 else 3) ((s.withChan ch d).goto (.writeCmd ch block size p) .w11 { n := n, k := 2 })
      = .next { s.withChan ch (startedRecord n { d with block := if n = 2 then none else d.block }) with
          resp := if n = 2 then s.resp ++ [.writeDone p ch .ok block size] else s.resp
          ctl := s.ctl ++ [.start ch d.rate.toNat]
          seq := .idle } := by
  by_cases htwo : n = 2
  · simp only [if_pos htwo]
    refine (runSteps_add (runSteps_write_complete hf hs hch htwo.le) 2).trans (runSteps_write_start ?_ ?_ ?_ ?_ ?_ ?_ ?_)
    exacts [hf, hs, hmask, hch, hcnt, hrate, hbits]
  · simp only [if_neg htwo]
    exact runSteps_succ (step_write_incomplete hf hs (by change 2 < n; omega)) <|
      runSteps_write_start hf hs hmask hch hcnt hrate hbits

end

/-- Settles O56: the run to the priming copy, `runSteps_write_primed`, and from there to the end, `runSteps_write_finish`. -/
theorem idleWriteRunsToItsEnd : Obligations.IdleWriteRunsToItsEnd := by
  intro s r rest ch block size p
  dsimp only
  intro hf hs hmask hidle hrq hd _ hch ha hm hcnt hrate hn hbits hmap hlen
  have hsteps : (if size.toNat / (s.cfg.h * s.cfg.sb) = 2 then 14 else 13)
      = 10 + if size.toNat / (s.cfg.h * s.cfg.sb) = 2 then 4 else 3 := by
    split <;> rfl
  have hprimed := runSteps_write_primed hf hs hidle hrq hd hch ha hm hcnt hn hmap hlen
  rw [mapAsked_eq] at hprimed ⊢
  rw [hsteps, runSteps_add hprimed]
  simp only [hidle]
  refine runSteps_write_finish ?_ ?_ ?_ ?_ ?_ ?_ ?_ ?_
  exacts [hf, hs, hmask, hch, hcnt, hrate, hn, hbits]

end Sys2Proof.Machine

namespace Sys2Proof.Machine

variable {s : State} {ch : Nat} {ts : List Turn}

/-! ### The turns of the handler and the engine (R190, R254) -/

/-- The handler's turn in the schedule (R262). -/
theorem step_irq (hf : s.fault = none) (hs : s.sched = .irq ch :: ts) :
    step s = .next (irqTurn ch { s with sched := ts }) := by
  simp [step_of_running hf, turnStep, hs]

/-- The engine's turn in the schedule (R262). -/
theorem step_tick (hf : s.fault = none) (hs : s.sched = .tick ch :: ts) :
    step s = .next (tickTurn ch { s with sched := ts }) := by
  simp [step_of_running hf, turnStep, hs]

theorem refillEnabled_iff : s.refillEnabled ch = true ↔
    ch < s.nch ∧ (s.chan ch).irqEn = true ∧ ((s.chan ch).htif = true ∨ (s.chan ch).tcif = true)
      ∧ s.irqMask = false := by
  simp [State.refillEnabled, Channel.pending, and_assoc]

theorem tickEnabled_iff : s.tickEnabled ch = true ↔
    ch < s.nch ∧ (s.chan ch).timerRun = true ∧ (s.chan ch).dmaEn = true := by
  simp [State.tickEnabled, Channel.ticking]

/-- A handler that is off, has no event or is masked takes no step (log 3). -/
theorem irqTurn_of_not_enabled (hoff : (s.chan ch).irqEn = false ∨ ((s.chan ch).htif = false ∧ (s.chan ch).tcif = false)
    ∨ s.irqMask = true) : irqTurn ch s = s := by
  refine if_neg fun hen => ?_
  obtain ⟨-, hirq, hev, hmask⟩ := refillEnabled_iff.mp hen
  rcases hoff with h | ⟨hht, htc⟩ | h
  · simp [h] at hirq
  · simp [hht, htc] at hev
  · simp [h] at hmask

/-- An engine that is off, or whose timer is, takes no step (log 3). -/
theorem tickTurn_of_not_enabled (hoff : (s.chan ch).timerRun = false ∨ (s.chan ch).dmaEn = false) :
    tickTurn ch s = s := by
  refine if_neg fun hen => ?_
  obtain ⟨-, hrun, hdma⟩ := tickEnabled_iff.mp hen
  rcases hoff with h | h
  · simp [h] at hrun
  · simp [h] at hdma

/-- Settles O11: the turn is `irqTurn` or `tickTurn`, which runs when the agent is enabled and is passed over otherwise. -/
theorem agentTurnsRunWhenEnabled : Obligations.AgentTurnsRunWhenEnabled := by
  intro s ch ts hf
  refine ⟨fun hs => ?_, fun hs => ?_⟩
  · rw [step_irq hf hs]
    refine ⟨fun hch hirq hev hmask => ?_, fun hoff => ?_⟩
    · exact congrArg _ (if_pos (refillEnabled_iff.mpr ⟨hch, hirq, hev, hmask⟩))
    · exact congrArg _ (irqTurn_of_not_enabled hoff)
  · rw [step_tick hf hs]
    refine ⟨fun hch hrun hdma => ?_, fun hoff => ?_⟩
    · exact congrArg _ (if_pos (tickEnabled_iff.mpr ⟨hch, hrun, hdma⟩))
    · exact congrArg _ (tickTurn_of_not_enabled hoff)

/-! ### The handler without a copy (R195, R196, R217) -/

/-- Settles O42: step 4 has no block to serve and step 5 no underflow. -/
theorem refillWithoutBlockCountsOnly : Obligations.RefillWithoutBlockCountsOnly := by
  intro s ch
  dsimp only
  intro hch hf hb hc
  have hcount := refillCount_chan (s := s) hch
  have hcnt := refillCount_cnt (s := s) hch
  rw [State.refill, refillServe_none (by rw [hcount]; exact hb), unlessFault_of_none (by exact hf),
    refillUnderflow_of_pos (by omega)]
  rfl

/-- With less than two units owed step 4 completes the block in flight, if there is one, and leaves none (R195). -/
theorem refillServe_of_lt_two (hch : ch < s.nch) (hc : (s.chan ch).cnt < 2) : s.refillServe ch
    = { s.modChan ch fun c => { c with block := none } with
        resp := s.resp ++ (s.chan ch).block.elim []
          fun h => [.writeDone (s.chan ch).process ch .ok h (s.chan ch).size] } := by
  cases hb : (s.chan ch).block with
  | none =>
    have hown : { s.chan ch with block := none } = s.chan ch := by rw [← hb]
    have hmod : (s.modChan ch fun c => { c with block := none }) = s := by
      conv_rhs => rw [← modChan_own hch, ← hown]
      rfl
    rw [refillServe_none hb, hmod, Option.elim_none, List.append_nil]
  | some h => rw [refillServe_complete hb hc]; rfl

/-- The record after steps 1 to 4 at a count of at most 2: counted once, no block in flight (R191 to R195). -/
def completedRecord (c : Channel) : Channel := { countEvent c with block := none }

/-- At a count of at most 2, steps 1 to 4 count the event and complete the block in flight, if there is one (R191 to R195). -/
theorem refillServe_refillCount_of_le_two (hch : ch < s.nch) (hc : (s.chan ch).cnt ≤ 2) :
    (s.refillCount ch).refillServe ch
      = { s.modChan ch completedRecord with
          resp := s.resp ++ (s.chan ch).block.elim []
            fun h => [.writeDone (s.chan ch).process ch .ok h (s.chan ch).size] } := by
  have hcnt := refillCount_cnt (s := s) hch
  rw [refillServe_of_lt_two (by exact (modChan_nch s ch _).symm ▸ hch) (by omega), refillCount_chan hch,
    State.refillCount, modChan_modChan hch]
  rfl

/-- Settles O41: steps 1 to 4 are `refillServe_refillCount_of_le_two`; step 5 underflows when nothing stays owed. -/
theorem refillCompletesAndUnderflows : Obligations.RefillCompletesAndUnderflows := by
  intro s ch
  dsimp only
  intro hch hf hc
  have hserve := refillServe_refillCount_of_le_two hch hc
  have hnch : ch < ((s.refillCount ch).refillServe ch).nch := by
    rw [hserve]; exact hch.trans_eq (modChan_nch s ch completedRecord).symm
  have hself : ((s.refillCount ch).refillServe ch).chan ch = completedRecord (s.chan ch) := by
    rw [hserve]; exact modChan_chan_self hch completedRecord
  have hcnt : (((s.refillCount ch).refillServe ch).chan ch).cnt = (s.chan ch).cnt - 1 := by rw [hself]; rfl
  rw [State.refill, unlessFault_of_none (by rw [hserve]; exact hf)]
  by_cases hle : (s.chan ch).cnt ≤ 1
  · rw [refillUnderflow_of_nonpos hnch (by omega), State.modChan, hself, hserve]
    cases hd : s.cfg.diagUnderflow <;> simp [hle, hd, State.logCall, completedRecord, countEvent]
  · rw [refillUnderflow_of_pos (by omega), hserve]
    simp [hle, State.modChan, completedRecord, countEvent]

end Sys2Proof.Machine

/-! ## Proofs about FLUSH

The phases `F3` to `F5` are the steps Close has too: together they make `State.flushed` of the state. -/

namespace Sys2Proof.Machine

variable {s : State} {i : Instr} {ph ph' ph'' : Phase} {loc loc' loc'' : Locals} {ch : Nat} {a b p : Word}

/-- Settles O33: the branches of `F1` and `F2`. -/
theorem flushChecks : Obligations.FlushChecks := by
  intro s ch a b p loc
  dsimp only
  refine ⟨fun hb hch => ?_, fun hb hch => ?_, fun hb ha => ?_, fun hb ha hm => ?_, fun hb ha hm => ?_⟩
  · rw [(PhaseRun.f1 ch a b p loc).exec_eq hb, flushF1, if_pos hch]
    rfl
  · rw [(PhaseRun.f1 ch a b p loc).exec_eq hb, flushF1, if_neg (Nat.not_le.2 hch)]
    rfl
  · rw [(PhaseRun.f2 ch a b p loc).exec_eq hb, flushF2, if_pos ha]
    rfl
  · rw [(PhaseRun.f2 ch a b p loc).exec_eq hb, flushF2, if_neg (by simp [ha]), if_pos hm]
    rfl
  · rw [(PhaseRun.f2 ch a b p loc).exec_eq hb, flushF2, if_neg (by simp [ha]), if_neg (not_not.2 hm)]
    rfl

/-- Settles O34; a block captured or none are the two cases of `flushCancel`. -/
theorem flushDetachesAndCancels : Obligations.FlushDetachesAndCancels := by
  intro s ch a b p loc
  refine ⟨fun hb => ?_, fun hb => ?_, fun hb hcap => ?_, fun h hb hcap => ?_, fun hb => ?_⟩
  · exact (PhaseRun.f3 ch a b p loc).exec_eq hb
  · exact (PhaseRun.f4 ch a b p loc).exec_eq hb
  · rw [(PhaseRun.f5 ch a b p loc).exec_eq hb, hcap]
    rfl
  · rw [(PhaseRun.f5 ch a b p loc).exec_eq hb, hcap]
    rfl
  · exact (PhaseRun.f6 ch a b p loc).exec_eq hb

/-! ### The whole run -/

/-- Phases `F1` and `F2` of a FLUSH of an active stream channel, not preempted (R211). -/
theorem runSteps_flush_checks (hf : s.fault = none) (hs : s.sched = [])
    (hb : s.seq = .busy (.flushCmd ch a b p) .f1 loc) (hch : ch < s.nch) (ha : (s.chan ch).active = true)
    (hm : (s.chan ch).mode = .stream) : runSteps 2 s = .next (s.goto (.flushCmd ch a b p) .f3 loc) := by
  obtain ⟨-, hf1, -⟩ := flushChecks s ch a b p loc
  obtain ⟨-, -, -, -, hf2⟩ := flushChecks (s.goto (.flushCmd ch a b p) .f2 loc) ch a b p loc
  exact runSteps_succ ((step_busy hf hs hb).trans (hf1 hb hch)) <|
    runSteps_succ ((step_busy (by exact hf) (by exact hs) rfl).trans (hf2 rfl ha hm)) rfl

/-- The three steps Flush and Close share, each as a phase of a command (R212 to R214). -/
theorem flushSteps_goto_eq_flushed (hch : ch < s.nch) :
    let stopped := (flushStop ch s).goto i ph loc
    (flushCancel ch (stopped.chan ch).block ((flushDetach ch stopped).goto i ph' loc')).goto i ph'' loc''
      = (s.flushed ch).goto i ph'' loc'' := by
  have hcap : (((flushStop ch s).goto i ph loc).chan ch).block = (s.chan ch).block :=
    congrArg Regs.block (timerStop_regs s ch ch)
  dsimp only
  rw [hcap, ← flushSteps_eq_flushed hch]
  cases (s.chan ch).block <;> rfl

/-- Phases `F3` to `F6`, not preempted (R212 to R215). -/
theorem runSteps_flush_detach (hf : s.fault = none) (hs : s.sched = [])
    (hb : s.seq = .busy (.flushCmd ch a b p) .f3 loc) (hch : ch < s.nch) :
    runSteps 4 s = .next ((s.flushed ch).finishOk (.flushCmd ch a b p)) := by
  refine runSteps_succ (step_phase (.f3 ..) hf hs hb) <| runSteps_succ (step_phase (.f4 ..) hf hs rfl) <|
    runSteps_succ (step_phase (.f5 ..) hf hs rfl) ?_
  rw [flushSteps_goto_eq_flushed hch]
  exact runSteps_succ (step_phase (.f6 ..) (by exact hf) (by exact hs) rfl) rfl

/-- Settles O58: `D0`, then the checks, then `F3` to `F6`; the detach leaves the mask off, as it was (R213). -/
theorem flushRunsToItsEnd : Obligations.FlushRunsToItsEnd := by
  intro s r rest ch a b p
  dsimp only
  intro hf hs hmask hidle hrq hd hch ha hm
  set u := ({ s with rq := rest } : State).enter (.flushCmd ch a b p) .f1
  have hdispatch : step s = .next u := step_dispatch hf hs hidle hrq hd
  have hchecks : runSteps 2 u = .next (u.goto (.flushCmd ch a b p) .f3 {}) :=
    runSteps_flush_checks hf hs rfl hch ha hm
  have hdetach := runSteps_flush_detach (s := u.goto (.flushCmd ch a b p) .f3 {}) hf hs rfl hch
  rw [runSteps_succ hdispatch ((runSteps_add hchecks 4).trans hdetach), hmask, hidle]
  rfl

end Sys2Proof.Machine

/-! ## Proofs about SETLEVEL and SETWAVE

Both phases begin with the same checks: `State.ifMode` is their common shape, and past them the state left is a record
update. What the fill leaves in the FIFO is `waveFifo`, one write of `waveBytes`. -/

namespace Sys2Proof.Machine

variable {s : State} {ch : Nat} {value waveType amp b p : Word} {loc : Locals}

/-! ### The checks -/

/-- The checks of `L1` and `V1`, then the state `t` of a command on an active channel of mode `m` (R221, R226). -/
def State.ifMode (s : State) (i : Instr) (m : Mode) (t : State) : State :=
  if s.nch ≤ i.chIdx then s.raiseFail i .invalidParams
  else if (s.chan i.chIdx).active = false then s.raiseFail i .notConfigured
  else if (s.chan i.chIdx).mode ≠ m then s.raiseFail i s.cfg.wrongModeStatus
  else t

theorem ifMode_of_mode {i : Instr} {m : Mode} {t : State} (hch : i.chIdx < s.nch)
    (ha : (s.chan i.chIdx).active = true) (hm : (s.chan i.chIdx).mode = m) : s.ifMode i m t = t := by
  rw [State.ifMode, if_neg (Nat.not_le.2 hch), if_neg (by simp [ha]), if_neg (not_not.2 hm)]

theorem exec_l1 (hb : s.seq = .busy (.setLevel ch value b p) .l1 loc) :
    exec (.setLevel ch value b p) s = .next (s.ifMode (.setLevel ch value b p) .level
      ((s.dacWrite ch (levelSample s.cfg value)).finishOk (.setLevel ch value b p))) :=
  (PhaseRun.l1 ch value b p loc).exec_eq hb

/-- `V1` past its checks, on a channel whose timer has been stopped (R225). -/
def waveRestart (i : Instr) (ch : Nat) (waveType amp : Word) (s : State) : State :=
  if amp = 0 then s.finishOk i
  else
    ((s.waveFill ch waveType amp).timerStart ch ((s.chan ch).rate.toNat * s.cfg.h)).unlessFault fun s => s.finishOk i

theorem exec_v1 (hb : s.seq = .busy (.setWave ch waveType amp p) .v1 loc) :
    exec (.setWave ch waveType amp p) s = .next (s.ifMode (.setWave ch waveType amp p) .wave
      (waveRestart (.setWave ch waveType amp p) ch waveType amp (s.timerStop ch))) :=
  (PhaseRun.v1 ch waveType amp p loc).exec_eq hb

/-- Settles O35: either phase is an `ifMode`, whose branches are the checks. -/
theorem levelAndWaveChecks : Obligations.LevelAndWaveChecks := by
  intro s i m ph loc hcmd hb
  obtain ⟨t, ht⟩ : ∃ t, exec i s = .next (s.ifMode i m t) := by
    rcases hcmd with ⟨⟨ch, v, b, p, rfl⟩, rfl, rfl⟩ | ⟨⟨ch, w, a, p, rfl⟩, rfl, rfl⟩
    · exact ⟨_, exec_l1 hb⟩
    · exact ⟨_, exec_v1 hb⟩
  have hblock : failBlock i = 0 := by
    rcases hcmd with ⟨⟨ch, v, b, p, rfl⟩, -⟩ | ⟨⟨ch, w, a, p, rfl⟩, -⟩ <;> rfl
  dsimp only
  rw [ht, State.ifMode, ← hblock]
  refine ⟨fun hch => ?_, fun hch ha => ?_, fun hch ha hm => ?_⟩
  · rw [if_pos hch]
    rfl
  · rw [if_neg (Nat.not_le.2 hch), if_pos ha]
    rfl
  · rw [if_neg (Nat.not_le.2 hch), if_neg (by simp [ha]), if_pos hm]
    rfl

/-! ### SETLEVEL -/

theorem levelSample_length (cfg : Config) (value : Word) : (levelSample cfg value).length = cfg.sb := by
  unfold levelSample
  split
  · simp [wordSample]
  · simp [zeroSample]

/-- By default the value is ignored (R222). -/
theorem levelSample_zero {cfg : Config} (hv : cfg.setLevelUsesValue = false) {j : Nat} (hj : j < cfg.sb) :
    (levelSample cfg value)[j]? = some (some 0) := by
  simp [levelSample, hv, zeroSample, hj]

/-- Where the value is used, its bytes stand least significant first (R222). -/
theorem levelSample_value {cfg : Config} (hv : cfg.setLevelUsesValue = true) {j : Nat} (hj : j < cfg.sb) (hj4 : j < 4) :
    (levelSample cfg value)[j]? = some (some (BitVec.ofNat 8 (value.toNat / 2 ^ (8 * j)))) := by
  have hbyte : valueByte value j = BitVec.ofNat 8 (value.toNat / 2 ^ (8 * j)) := by
    rw [valueByte, if_pos hj4, BitVec.extractLsb', Nat.shiftRight_eq_div_pow]
  simp [levelSample, hv, wordSample, hj, hbyte]

/-- Settles O36: the sample is `levelSample`. -/
theorem setLevelWritesSample : Obligations.SetLevelWritesSample := by
  intro s ch value b p loc hb hch ha hm
  refine ⟨levelSample s.cfg value, ?_, levelSample_length _ _, fun hv j hj => levelSample_zero hv hj,
    fun hv j hj hj4 => levelSample_value hv hj hj4⟩
  exact (exec_l1 hb).trans (congrArg _ (ifMode_of_mode hch ha hm))

/-! ### SETWAVE -/

theorem exec_v1_of_wave (hb : s.seq = .busy (.setWave ch waveType amp p) .v1 loc) (hch : ch < s.nch)
    (ha : (s.chan ch).active = true) (hm : (s.chan ch).mode = .wave) :
    exec (.setWave ch waveType amp p) s
      = .next (waveRestart (.setWave ch waveType amp p) ch waveType amp (s.timerStop ch)) :=
  (exec_v1 hb).trans (congrArg _ (ifMode_of_mode hch ha hm))

/-- Settles O37: past the checks only the stop comes before the acknowledgment. -/
theorem setWaveZeroStopsOnly : Obligations.SetWaveZeroStopsOnly := by
  intro s ch waveType p loc hb hch ha hm
  rw [exec_v1_of_wave hb hch ha hm, waveRestart, if_pos rfl]
  rfl

/-- The FIFO after the fill (R225, R227). -/
def waveFifo (cfg : Config) (waveType amp : Word) (m : Memory) : Memory :=
  Memory.writeBytes m 0 (waveBytes cfg waveType amp)

section

variable {m : Memory} (hwf : Memory.wf m) (cfg : Config) (waveType amp : Word)
include hwf

theorem waveFifo_wf : Memory.wf (waveFifo cfg waveType amp m) := writeBytes_wf hwf 0 _

/-- Every byte of the FIFO is the generator's (R227). -/
theorem waveFifo_read_filled {i j : Nat} (hi : i < 2 * cfg.h) (hj : j < cfg.sb) :
    Memory.read (waveFifo cfg waveType amp m) (i * cfg.sb + j)
      = some (Config.genByte cfg.sb waveType amp (2 * cfg.h) i j) := by
  have hget := waveBytes_getElem cfg waveType amp hi hj
  obtain ⟨hlt, -⟩ := List.getElem?_eq_some_iff.1 hget
  rw [waveFifo, read_writeBytes hwf, if_pos ⟨Nat.zero_le _, by rwa [Nat.zero_add]⟩, Nat.sub_zero, hget,
    Option.getD_some]

/-- A position past the FIFO's end is as before the fill (R227). -/
theorem waveFifo_read_kept {o : Nat} (ho : fbOf cfg ≤ o) :
    Memory.read (waveFifo cfg waveType amp m) o = Memory.read m o := by
  rw [waveFifo, read_writeBytes hwf, waveBytes_length, if_neg (by omega)]

end

/-- The record of a wave channel stopped and filled (R225). -/
def filledRecord (cfg : Config) (waveType amp : Word) (c : Channel) : Channel :=
  { c with timerRun := false, fifo := waveFifo cfg waveType amp c.fifo }

theorem timerStop_waveFill_eq (hch : ch < s.nch) (waveType amp : Word) :
    (s.timerStop ch).waveFill ch waveType amp
      = (s.withChan ch (filledRecord s.cfg waveType amp (s.chan ch))).logCall (.stop ch) :=
  congrArg (·.logCall (.stop ch)) <| modChan_modChan hch (fun c => { c with timerRun := false })
    fun c => { c with fifo := waveFifo s.cfg waveType amp c.fifo }

/-- `V1` past its checks with a nonzero amplitude: the start follows the stop and the fill (R225). -/
theorem waveRestart_timerStop_eq {i : Instr} (hch : ch < s.nch) (hamp : amp ≠ 0) :
    waveRestart i ch waveType amp (s.timerStop ch)
      = (((s.withChan ch (filledRecord s.cfg waveType amp (s.chan ch))).logCall (.stop ch)).timerStart ch
          ((s.chan ch).rate.toNat * s.cfg.h)).unlessFault fun s => s.finishOk i := by
  have hstop : (s.timerStop ch).chan ch = { s.chan ch with timerRun := false } :=
    modChan_chan_self hch fun c => { c with timerRun := false }
  rw [waveRestart, if_neg hamp, hstop, timerStop_waveFill_eq hch, timerStop_cfg]

/-- A start on a record just written, after a stop: one more write of it and two calls in the trace (R251). -/
theorem timerStart_logCall_withChan {d : Channel} {rate : Nat} {c : TimerCall} (hch : ch < s.nch) (hr : rate ≠ 0) :
    ((s.withChan ch d).logCall c).timerStart ch rate
      = { s.withChan ch { d with timerRun := true, timerRate := rate } with ctl := s.ctl ++ [c, .start ch rate] } := by
  calc ((s.withChan ch d).logCall c).timerStart ch rate
      = (((s.withChan ch d).modChan ch fun c => { c with timerRun := true, timerRate := rate }).logCall c).logCall
          (.start ch rate) := timerStart_of_ne_zero hr
    _ = { s.withChan ch { d with timerRun := true, timerRate := rate } with
          ctl := s.ctl ++ [c, .start ch rate] } := by
        rw [withChan_modChan hch]
        simp [State.logCall, State.withChan]

/-- Settles O38: the start is at a nonzero rate, so the acknowledgment follows. -/
theorem setWaveFillsAndRestarts : Obligations.SetWaveFillsAndRestarts := by
  intro s ch waveType amp p loc hb hcfg hf hch ha hm hamp hrate hwf
  refine ⟨waveFifo s.cfg waveType amp (s.chan ch).fifo, ?_, waveFifo_wf hwf _ _ _,
    fun i j => waveFifo_read_filled hwf _ _ _, fun o => waveFifo_read_kept hwf _ _ _⟩
  have hstart : (s.chan ch).rate.toNat * s.cfg.h ≠ 0 :=
    Nat.mul_ne_zero (by bv_omega) (Nat.one_le_iff_ne_zero.1 hcfg.1)
  rw [exec_v1_of_wave hb hch ha hm, waveRestart_timerStop_eq hch hamp, timerStart_logCall_withChan hch hstart,
    unlessFault_of_none (by exact hf)]
  rfl

/-- Settles O39: the start is at rate 0, so its fault is the last thing done. -/
theorem setWaveAtRateZeroFaults : Obligations.SetWaveAtRateZeroFaults := by
  intro s ch waveType amp p loc hb _ hch ha hm hamp hrate hwf
  refine ⟨waveFifo s.cfg waveType amp (s.chan ch).fifo, ?_, waveFifo_wf hwf _ _ _,
    fun i j => waveFifo_read_filled hwf _ _ _, fun o => waveFifo_read_kept hwf _ _ _⟩
  rw [exec_v1_of_wave hb hch ha hm, waveRestart_timerStop_eq hch hamp, timerStart_of_zero (by simp [hrate]),
    unlessFault_of_some rfl]
  rfl

end Sys2Proof.Machine

/-! ## Proofs about the dispatcher

`step_head_request` says once that the step of an idle sequencer dispatches the head request, whichever of the three ways it
has the turn; the statements differ in what the request decodes to. That every command ends is `PhaseRun.progress`: a phase
leaves the schedule alone and faults, ends its command or moves to a phase of higher rank. -/

namespace Sys2Proof.Machine

variable {s t u : State} {i : Instr} {ph ph' : Phase} {loc loc' : Locals} {r : Request} {rest : List Request}
  {ts : List Turn}

/-! ### Dispatch (R241, R245) -/

/-- An idle sequencer takes the head request from the queue and dispatches it (R241). -/
theorem seqTurn_head_request (hidle : s.seq = .idle) (hrq : s.rq = r :: rest) :
    seqTurn s = dispatchRequest r { s with rq := rest } := by
  simp only [seqTurn, hidle, hrq]

/-- The step of an idle sequencer with a request queued, for each way it has the turn: a phase turn is used up, a run turn
stays, and with no turn listed the sequencer has it (R262, log 3). -/
theorem step_head_request (hf : s.fault = none) (hidle : s.seq = .idle) (hrq : s.rq = r :: rest) (ts : List Turn) :
    (s.sched = .phase :: ts → step s = dispatchRequest r { s with rq := rest, sched := ts })
    ∧ (s.sched = .run :: ts → step s = dispatchRequest r { s with rq := rest })
    ∧ (s.sched = [] → step s = dispatchRequest r { s with rq := rest }) := by
  have hturn : seqTurn s = dispatchRequest r { s with rq := rest } := seqTurn_head_request hidle hrq
  have hen : s.seqEnabled = true := by simp [State.seqEnabled, hidle, hrq]
  refine ⟨fun hs => ?_, fun hs => ?_, fun hs => (step_of_unscheduled hf hs).trans hturn⟩
  · rw [step_of_running hf, turnStep, hs]
    exact seqTurn_head_request hidle hrq
  · simp only [step_of_running hf, turnStep, hs, hen, if_true, hturn]

/-- A request that decodes is executed (R241). -/
theorem dispatchRequest_of_ok (hd : decode r = .ok i) (s : State) : dispatchRequest r s = exec i s := by
  rw [dispatchRequest, hd]

/-- A request that does not decode is answered (R245). -/
theorem dispatchRequest_of_error {e : DecodeError} (hd : decode r = .error e) (s : State) :
    dispatchRequest r s = .next (s.unknownCommand r) := by
  rw [dispatchRequest, hd]

/-- Settles O7. -/
theorem stepDispatchesHeadRequest : Obligations.StepDispatchesHeadRequest := by
  intro s r rest i ts hf hidle hrq hd
  simpa only [dispatchRequest_of_ok hd] using step_head_request hf hidle hrq ts

/-- Settles O9. -/
theorem dispatchEntersFirstPhase : Obligations.DispatchEntersFirstPhase :=
  fun _ _ hidle => exec_idle hidle

/-- Settles O10: opcode 0 and those above 6 are the requests that do not decode. -/
theorem unknownOpcodeAnswered : Obligations.UnknownOpcodeAnswered := by
  intro s r rest ts hf hidle hrq hop
  have hd : decode r = .error (.unknownOpcode r.op) := Laws.decode_eq_error_iff.mpr ⟨rfl, hop⟩
  simpa only [dispatchRequest_of_error hd, State.unknownCommand, State.emit] using step_head_request hf hidle hrq ts

/-! ### The host's send (R240) -/

/-- Settles O12. -/
theorem hostSendAppends : Obligations.HostSendAppends := by
  intro s r ts hf hs
  rw [step_of_running hf, turnStep, hs]
  rfl

/-! ### Every command ends (R246) -/

/-- What a phase `ph` of command `i` has done to the control of the machine: the schedule is left alone, and a fault is
recorded, the command has ended, or it stands at a phase of its own that comes later. -/
structure Progress (i : Instr) (ph : Phase) (s t : State) : Prop where
  sched : t.sched = s.sched
  seq : t.fault ≠ none ∨ t.seq = .idle
    ∨ ∃ ph' loc, t.seq = .busy i ph' loc ∧ ph' ∈ phasesOf i ∧ phaseRank ph < phaseRank ph'

theorem Progress.ended (hsched : t.sched = s.sched := by rfl) (hseq : t.seq = .idle := by rfl) : Progress i ph s t :=
  ⟨hsched, .inr (.inl hseq)⟩

theorem Progress.goto (hsched : u.sched = s.sched := by rfl) (hphase : ph' ∈ phasesOf i := by simp [phasesOf])
    (hrank : phaseRank ph < phaseRank ph' := by decide) : Progress i ph s (u.goto i ph' loc) :=
  ⟨hsched, .inr (.inr ⟨ph', loc, rfl, hphase, hrank⟩)⟩

theorem Progress.faulted {f : Fault} (hsched : u.sched = s.sched := by rfl) : Progress i ph s (u.raiseFault f) :=
  ⟨hsched, .inl (Option.some_ne_none f)⟩

/-- The statements after one that may fault: run, or passed over with the fault recorded (R15). -/
theorem Progress.unlessFault {f : State → State} (hsched : u.sched = s.sched) (hf : Progress i ph s (f u)) :
    Progress i ph s (u.unlessFault f) := by
  cases hfault : u.fault with
  | none => rwa [unlessFault_of_none hfault]
  | some e => rw [unlessFault_of_some hfault]; exact ⟨hsched, .inl (by simp [hfault])⟩

@[simp] theorem openReady_sched (s : State) (m : Mode) : (s.openReady m).sched = s.sched := by
  unfold State.openReady; split <;> simp

@[simp] theorem flushCancel_sched (ch : Nat) (cap : Option Word) (s : State) :
    (flushCancel ch cap s).sched = s.sched := by
  cases cap <;> rfl

@[simp] theorem closeClock_sched (s : State) (ch : Nat) : (s.closeClock ch).sched = s.sched := by
  unfold State.closeClock; split <;> rfl

/-- Every phase of every command makes progress (R44, R132, R136, R160, R210, R220, R225). -/
theorem PhaseRun.progress (h : PhaseRun s i ph loc t) (hp : ph ∈ phasesOf i) : Progress i ph s t := by
  cases h with
  | o1 ch mode rate p =>
    rcases openO1_cases ch mode rate p s with ⟨st, e⟩ | ⟨m, st, e⟩ | ⟨m, -, -, -, e⟩ <;> rw [e]
    · exact .ended
    · exact .ended (openReady_sched s m)
    · exact .ended (openReady_sched s m)
  | c1 | f1 | w1 | w3 =>
    simp only [closeC1, flushF1, writeW1, writeW3]
    split
    · exact .ended
    · exact .goto
  | c2 =>
    simp only [closeC2]
    split_ifs
    · exact .ended
    · exact .goto
    · exact .goto
  | f2 | w2 =>
    simp only [flushF2, writeW2]
    split_ifs
    · exact .ended
    · exact .ended
    · exact .goto
  | c3 | f3 | c4 | f4 | w5 | w6 | w7 | w8 | w12 => exact .goto
  | c5 | f5 => exact .goto (flushCancel_sched _ _ s)
  | c6 => exact .ended (closeClock_sched _ _)
  | f6 => exact .ended
  | l1 =>
    simp only [levelL1]
    split_ifs
    all_goals exact .ended
  | v1 =>
    simp only [waveV1]
    split_ifs
    case neg => exact .unlessFault (timerStart_sched _ _ _) (.ended (timerStart_sched _ _ _))
    all_goals exact .ended
  | w4 =>
    simp only [writeW4]
    split
    · exact .ended (mapAsked_sched s)
    · exact .goto (mapAsked_sched s)
  | w9 =>
    simp only [writeW9]
    split_ifs
    · exact .unlessFault (fifoCopy_sched _ _ _ _) (.goto (fifoCopy_sched _ _ _ _))
    · exact .goto
    · exact .goto
  | w10 => exact .unlessFault (fifoCopy_sched _ _ _ _) (.goto (fifoCopy_sched _ _ _ _))
  | w11 =>
    simp only [writeW11]
    split
    · exact .goto
    · exact .goto
  | w13 =>
    simp only [writeW13]
    split
    · exact .goto
    · exact .faulted
  | w14 =>
    simp only [writeW14]
    split
    · exact .unlessFault (timerStart_sched _ _ _) (.ended (timerStart_sched _ _ _))
    · exact .unlessFault rfl .ended
  | stray _ _ _ hout => exact absurd hp hout

theorem phaseRank_le (ph : Phase) : phaseRank ph ≤ 14 := by
  cases ph <;> decide

theorem phaseRank_pos (ph : Phase) : 0 < phaseRank ph := by
  cases ph <;> decide

/-- A command that stands at phase `ph` ends or faults within `k` steps, if at most `k` ranks from that of `ph` on are left. -/
theorem exists_runSteps_ended {k : Nat} (hk : 14 < phaseRank ph + k) (hf : s.fault = none) (hs : s.sched = [])
    (hb : s.seq = .busy i ph loc) (hp : ph ∈ phasesOf i) :
    ∃ l t, l ≤ k ∧ runSteps l s = .next t ∧ (t.seq = .idle ∨ t.fault ≠ none) := by
  induction k generalizing s ph loc with
  | zero => exact absurd (phaseRank_le ph) (by omega)
  | succ k ih =>
    obtain ⟨u, hu⟩ := exists_phaseRun s i ph loc
    have hstep : step s = .next u := step_phase hu hf hs hb
    have hone : runSteps 1 s = .next u := runSteps_succ hstep rfl
    by_cases huf : u.fault = none
    · obtain ⟨hsched, hfault | hidle | ⟨ph', loc', hb', hp', hrank⟩⟩ := hu.progress hp
      · exact absurd huf hfault
      · exact ⟨1, u, by omega, hone, .inl hidle⟩
      · obtain ⟨l, t, hl, hrun, hend⟩ := ih (by omega) huf (hsched.trans hs) hb' hp'
        exact ⟨l + 1, t, by omega, runSteps_succ hstep hrun, hend⟩
    · exact ⟨1, u, by omega, hone, .inr huf⟩

/-- Settles O55: the ranks of a command's phases run from 1 to at most 14 and rise with every step. -/
theorem commandsEndWithin14Phases : Obligations.CommandsEndWithin14Phases := by
  intro s i ph loc hf hs hb hp
  have hpos : 0 < phaseRank ph := phaseRank_pos ph
  exact exists_runSteps_ended (by omega) hf hs hb hp

end Sys2Proof.Machine

/-! ## Proofs about the tick of the engine (R255 to R257)

The two positions that raise an event, `HB` and 0, are apart, so a tick raises at most one of them and the overrun check of
that one reads the flags as they were before the tick. -/

namespace Sys2Proof.Machine

variable {cfg : Config} {c : Channel}

/-! ### The events of a position -/

/-- At `HB` only HT is raised (R255). -/
theorem raiseEvents_of_half (hcfg : ConfigOk cfg) (hpos : c.dmaPos = hbOf cfg) : raiseEvents cfg c = raiseHt c := by
  have hne : (raiseHt c).dmaPos ≠ 0 := by
    have := hbOf_pos hcfg
    simp only [raiseHt]
    omega
  simp only [raiseEvents, if_pos hpos, if_neg hne]

/-- At 0 only TC is raised (R255). -/
theorem raiseEvents_of_zero (hcfg : ConfigOk cfg) (hpos : c.dmaPos = 0) : raiseEvents cfg c = raiseTc c := by
  have hne : c.dmaPos ≠ hbOf cfg := hpos ▸ (hbOf_pos hcfg).ne
  simp only [raiseEvents, if_neg hne, if_pos hpos]

/-- At any other position no event is raised (R255). -/
theorem raiseEvents_of_neither (hhalf : c.dmaPos ≠ hbOf cfg) (hzero : c.dmaPos ≠ 0) : raiseEvents cfg c = c := by
  simp only [raiseEvents, if_neg hhalf, if_neg hzero]

/-- What the events of a position write: a flag each, and one overrun check with the flags as they stand (R255 to R257). -/
theorem raiseEvents_eq (hcfg : ConfigOk cfg) (c : Channel) :
    raiseEvents cfg c = { c with
      htif := if c.dmaPos = hbOf cfg then true else c.htif
      tcif := if c.dmaPos = 0 then true else c.tcif
      overrun := c.overrun || (decide (c.dmaPos = hbOf cfg ∨ c.dmaPos = 0) && overrunHit c) } := by
  have hhb := hbOf_pos hcfg
  by_cases hhalf : c.dmaPos = hbOf cfg
  · simp [raiseEvents_of_half hcfg hhalf, raiseHt, hhalf, hhb.ne']
  · by_cases hzero : c.dmaPos = 0
    · simp [raiseEvents_of_zero hcfg hzero, raiseTc, hzero, hhb.ne]
    · simp [raiseEvents_of_neither hhalf hzero, hhalf, hzero]

/-! ### The tick -/

/-- Settles O43: the move leaves the flags alone, so the overrun check after it is that of the channel before the tick. -/
theorem tickMovesOneSample : Obligations.TickMovesOneSample := by
  intro s ch hcfg _ c hb pos v
  have hhit : overrunHit (moveSample s.cfg c) = overrunHit c := rfl
  rw [State.tick, State.modChan, raiseEvents_eq hcfg, hhit, Bool.and_assoc]
  rfl

end Sys2Proof.Machine
